-- ==== Sys2Proof/Word.lean ====
section
/-! DEFINITION. The word types of the HCE, at the widths of 00_scope.md R5. All quantities are
unsigned (R8). -/

namespace Sys2Proof

/-- A command word: `CMDW` = 32 bits (R5). -/
abbrev Word := BitVec 32

/-- A byte of the artifact. -/
abbrev Byte := BitVec 8

/-- A symbol: one Unicode code point in `SYMW` = 21 bits (R5). -/
abbrev Sym := BitVec 21

/-- A frequency count: `CNTW` = 32 bits (R5). -/
abbrev Count := BitVec 32

/-- A node weight: `WGTW` = 48 bits (R5). -/
abbrev Weight := BitVec 48

/-- A node index: `NIDXW` = 17 bits (R5). -/
abbrev NodeIdx := BitVec 17

/-- A bitstring, earliest bit first (R9); `true` is the bit 1. -/
abbrev Bits := List Bool

end Sys2Proof
end

