-- ==== Sys2Proof/Syntax.lean ====
section
/-! DEFINITION. The eighteen commands of spec/opcode_table.json (30_encoding.md R95), one constructor a
row. An operand's type is the width of its field (R92 to R94), so every term is an encodable command. -/

namespace Sys2Proof

/-- The commands, in the table's order. -/
inductive Instr where
  /-- NOP, R110 -/
  | nop
  /-- RESET, R200 -/
  | reset
  /-- CLRERR, R201 -/
  | clrerr
  /-- PUSHS sym, R111 -/
  | pushs (sym : Sym)
  /-- PUSHB byte, R112 -/
  | pushb (byte : Byte)
  /-- POPB, R113 -/
  | popb
  /-- POPS, R114 -/
  | pops
  /-- HCOUNT, R120 -/
  | hcount
  /-- TBUILD, R130 -/
  | tbuild
  /-- CWALK, R150 -/
  | cwalk
  /-- ENCODE, R185 -/
  | encode
  /-- PACK, R160 -/
  | pack
  /-- UNPACK, R161 -/
  | unpack
  /-- DECODE, R186 -/
  | decode
  /-- HWRITE, R170 -/
  | hwrite
  /-- HREAD, R171 -/
  | hread
  /-- COMPRESS, R190 -/
  | compress
  /-- DECOMPRESS, R191 -/
  | decompress
deriving DecidableEq, Repr

/-- The three word formats (R91 to R93). -/
inductive Format where
  /-- no operand -/
  | z
  /-- symbol operand -/
  | s
  /-- byte operand -/
  | b
deriving DecidableEq, Repr

end Sys2Proof
end

