-- ==== Sys2Proof/WellFormed.lean ====
section
/-! DEFINITION. Which 32-bit words are commands, by 30_encoding.md R91 to R93 and R96. The operands of
`Instr` have the widths of their fields, so every term of `Instr` is well formed by its type and the
checks that remain are on words: the opcode is assigned, and the field a format calls `zero` is zero. -/

namespace Sys2Proof

/-- The format of an assigned opcode (the `op` and `format` columns of R95); `none` is unassigned. -/
def formatOfOpcode (op : BitVec 8) : Option Format :=
  if op = 0x10#8 then some .s
  else if op = 0x11#8 then some .b
  else if op ≤ 0x02#8 ∨ op = 0x12#8 ∨ op = 0x13#8 ∨ (0x20#8 ≤ op ∧ op ≤ 0x28#8) ∨ op = 0x30#8 ∨ op = 0x31#8
  then some .z
  else none

/-- The `zero` field of a format is zero (R91, R92, R93). -/
def zeroFieldOk (f : Format) (w : Word) : Bool :=
  match f with
  | .z => w.extractLsb' 0 24 == 0#24
  | .s => w.extractLsb' 21 3 == 0#3
  | .b => w.extractLsb' 8 16 == 0#16

/-- The word is one of the eighteen commands: every other word is illegal (R96). -/
def wellFormedWord (w : Word) : Bool :=
  match formatOfOpcode (w.extractLsb' 24 8) with
  | some f => zeroFieldOk f w
  | none => false

end Sys2Proof
end

