-- ==== Sys2Proof/Decode.lean ====
section
/-! DEFINITION. The command decoder (30_encoding.md R94, R95, R97), total on 32-bit words, and after it
the encoder (R91 to R93, R95). -/

namespace Sys2Proof

/-- Why a word is no command (R96). The engine treats every kind alike (R215). -/
inductive Illegal where
  /-- no row of R95 has this opcode -/
  | unassignedOpcode
  /-- a bit the row's mask fixes at 0 is set -/
  | reservedBits
deriving DecidableEq, Repr

/-- What the decoder answers: a command with its operand, or `illegal` (R97). -/
inductive Decoded where
  | command (i : Instr)
  | illegal (why : Illegal)
deriving DecidableEq, Repr

/-- `op = w[31:24]` (R94). -/
def opcodeField (w : Word) : BitVec 8 := w.extractLsb' 24 8

/-- `sym = w[20:0]`, used as it stands (R94). -/
def symField (w : Word) : Sym := w.extractLsb' 0 21

/-- `byte = w[7:0]`, used as it stands (R94). -/
def byteField (w : Word) : Byte := w.extractLsb' 0 8

/-- The format column of R95. -/
def Instr.format : Instr → Format
  | .pushs _ => .s
  | .pushb _ => .b
  | .nop | .reset | .clrerr | .popb | .pops | .hcount | .tbuild | .cwalk | .encode | .pack | .unpack
  | .decode | .hwrite | .hread | .compress | .decompress => .z

/-- The mask column of R95. -/
def Format.mask : Format → Word
  | .z => 0xFFFFFFFF#32
  | .s => 0xFFE00000#32
  | .b => 0xFFFFFF00#32

/-- The row of R95 that an opcode selects, with the operand taken from the word. -/
def commandOfOpcode (w : Word) : Option Instr :=
  match (opcodeField w).toNat with
  | 0x00 => some .nop
  | 0x01 => some .reset
  | 0x02 => some .clrerr
  | 0x10 => some (.pushs (symField w))
  | 0x11 => some (.pushb (byteField w))
  | 0x12 => some .popb
  | 0x13 => some .pops
  | 0x20 => some .hcount
  | 0x21 => some .tbuild
  | 0x22 => some .cwalk
  | 0x23 => some .encode
  | 0x24 => some .pack
  | 0x25 => some .unpack
  | 0x26 => some .decode
  | 0x27 => some .hwrite
  | 0x28 => some .hread
  | 0x30 => some .compress
  | 0x31 => some .decompress
  | _ => none

/-- The decoder, by R97's procedure; a row's match is its opcode in bits 31:24 over zeros (R95). -/
def decode (w : Word) : Decoded :=
  match commandOfOpcode w with
  | none => .illegal .unassignedOpcode
  | some i =>
    if w &&& i.format.mask = (opcodeField w ++ 0#24 : Word) then .command i
    else .illegal .reservedBits

/-- The decoder on a row of the opcode table, whose bits are numbered as the command word's. -/
def decodeTableWord (nbits w : Nat) : Option Instr :=
  if nbits ≤ 32 ∧ w < 2 ^ 32 then
    match decode (BitVec.ofNat 32 w) with
    | .command i => some i
    | .illegal _ => none
  else none

/-- The opcode column of R95. -/
def opcodeOf : Instr → BitVec 8
  | .nop => 0x00#8
  | .reset => 0x01#8
  | .clrerr => 0x02#8
  | .pushs _ => 0x10#8
  | .pushb _ => 0x11#8
  | .popb => 0x12#8
  | .pops => 0x13#8
  | .hcount => 0x20#8
  | .tbuild => 0x21#8
  | .cwalk => 0x22#8
  | .encode => 0x23#8
  | .pack => 0x24#8
  | .unpack => 0x25#8
  | .decode => 0x26#8
  | .hwrite => 0x27#8
  | .hread => 0x28#8
  | .compress => 0x30#8
  | .decompress => 0x31#8

/-- The encoder: the fields of R91, R92 and R93, high bits first. -/
def encode (i : Instr) : Word :=
  match i with
  | .pushs sym => opcodeOf i ++ 0#3 ++ sym
  | .pushb byte => opcodeOf i ++ 0#16 ++ byte
  | .nop | .reset | .clrerr | .popb | .pops | .hcount | .tbuild | .cwalk | .encode | .pack | .unpack
  | .decode | .hwrite | .hread | .compress | .decompress => opcodeOf i ++ 0#24

end Sys2Proof
end

