-- ==== Sys2Proof/Config.lean ====
section
/-! DEFINITION. The parameters of 00_scope.md: the fixed ones of R5, the open ones of R6, and the one
free value of the model. -/

namespace Sys2Proof

/-- `NMAX`: most distinct symbols in a frequency table (R5). -/
def nMax : Nat := 65535

/-- `CNTMAX` = 2^32 − 1, the largest count (R5). -/
def countMax : Nat := 4294967295

/-- A capacity is "a natural number below 2^64, or `unbounded`" (R6); `none` is `unbounded`. -/
abbrev Capacity := Option (Fin 18446744073709551616)

/-- The five open capacities of R6. R50: they are fixed for the life of an HCE. -/
structure Capacities where
  /-- `CAP_SYM_IN` -/
  symIn : Capacity
  /-- `CAP_BYTE_IN` -/
  byteIn : Capacity
  /-- `CAP_BYTE_OUT` -/
  byteOut : Capacity
  /-- `CAP_SYM_OUT` -/
  symOut : Capacity
  /-- `CAP_BITS` -/
  bits : Capacity
deriving DecidableEq, Repr

/-- Every capacity `unbounded`: the default of R6's table. -/
def Capacities.unbounded : Capacities := ⟨none, none, none, none, none⟩

/-- FREE VALUE (log entry 5, safe): what a 64-bit length view (R31) reads when the length itself does not
fit 64 bits, which only an `unbounded` capacity allows; the spec states no value there. -/
opaque Config.freeLength : Nat → BitVec 64

end Sys2Proof
end

