-- ==== Sys2Proof/Machine/State.lean ====
section
/-! DEFINITION. The state of the HCE (10_state.md R20), the host side of its port, the reset state
(R49), and the reasons a step can stop. -/

namespace Sys2Proof.Machine

/-- An entry of FT (R38). -/
structure FreqEntry where
  sym : Sym
  count : Count
deriving DecidableEq, Repr

/-- A node of the arena NODE, a tagged variant (R39); children are indices into the same arena. -/
inductive Node where
  | leaf (sym : Sym) (weight : Weight)
  | internal (weight : Weight) (left right : NodeIdx)
deriving DecidableEq, Repr

/-- An entry of CT (R40). -/
structure CodeEntry where
  sym : Sym
  code : Bits
deriving DecidableEq, Repr

/-- The whole architectural state of one HCE, and nothing else (R20). STATUS (R27) is stored as its six
fields; bits 31 to 6 read as zero and no command writes them, so they are no state. -/
structure Engine where
  /-- `N`: number of entries of FT (R22, R23) -/
  n : BitVec 16
  /-- `NN`: number of nodes in the arena (R22) -/
  nn : BitVec 17
  /-- `ROOT`: index of the root (R22, R24) -/
  root : NodeIdx
  /-- `ROOTV`: the tree has a root (R22, R24) -/
  rootv : Bool
  /-- `PAD`: padding count of the last completed PACK or UNPACK (R22, R25) -/
  pad : BitVec 4
  /-- `RDATA`: the element delivered by the last completed POPB or POPS (R22) -/
  rdata : BitVec 32
  /-- STATUS bit 0: a fault is held (R27) -/
  err : Bool
  /-- STATUS bit 1: FT is valid (R27) -/
  ftv : Bool
  /-- STATUS bit 2: the tree is valid (R27) -/
  treev : Bool
  /-- STATUS bit 3: CT is valid (R27) -/
  ctv : Bool
  /-- STATUS bit 4: BITS is valid (R27) -/
  bitsv : Bool
  /-- STATUS bit 5: the last completed DECODE left bits over (R27, R37) -/
  res : Bool
  /-- `ERRCODE` (R28) -/
  errcode : BitVec 8
  /-- `ERRINFO` (R29) -/
  errinfo : BitVec 8
  /-- `ERRCMD` (R30) -/
  errcmd : Word
  /-- `FT`, the frequency table (R38) -/
  ft : List FreqEntry
  /-- `NODE`, the node arena (R39) -/
  node : List Node
  /-- `CT`, the code table (R40) -/
  ct : List CodeEntry
  /-- `PQ`, a set of node indices, held as the strictly ascending list of its members (R41) -/
  pq : List NodeIdx
  /-- `SYM_IN` (R42) -/
  symIn : List Sym
  /-- `BYTE_IN` (R43) -/
  byteIn : List Byte
  /-- `BYTE_OUT` (R44) -/
  byteOut : List Byte
  /-- `SYM_OUT` (R45) -/
  symOut : List Sym
  /-- `BITS` (R46) -/
  bits : Bits
deriving DecidableEq, Repr

/-- Every piece of state at the value of R49. -/
def Engine.reset : Engine where
  n := 0
  nn := 0
  root := 0
  rootv := false
  pad := 0
  rdata := 0
  err := false
  ftv := false
  treev := false
  ctv := false
  bitsv := false
  res := false
  errcode := 0
  errinfo := 0
  errcmd := 0
  ft := []
  node := []
  ct := []
  pq := []
  symIn := []
  byteIn := []
  byteOut := []
  symOut := []
  bits := []

/-- One access from outside (R33, R240). The index has 4 bits: an index outside 0 to 15 does not reach
the HCE (R34). -/
inductive HostAccess where
  /-- `RegRead(idx)` -/
  | regRead (idx : BitVec 4)
  /-- `RegWrite(idx, v)` -/
  | regWrite (idx : BitVec 4) (v : Word)
  /-- hardware reset (R240) -/
  | hardReset
deriving DecidableEq, Repr

/-- The machine: the fixed capacities of the part (R6, R50; log entry 1), the engine's architectural
state, and the host side of the port: accesses still to be made, oldest first (log entry 2), and the
values that reads were given, oldest first (log entry 3). -/
structure State where
  cfg : Capacities
  eng : Engine
  pending : List HostAccess
  answers : List (BitVec 64)
deriving DecidableEq, Repr

/-- The machine right after reset: the engine by R49, the capacities at R6's default (DESIGN CHOICE, log
entry 1), no host access pending (DESIGN CHOICE, log entry 2). -/
def State.reset : State where
  cfg := .unbounded
  eng := .reset
  pending := []
  answers := []

/-- The machine stops: only in states that no run from reset reaches, in which a command's pseudocode
has no meaning (log entry 4). Every fault of the spec is a next state, not one of these. -/
inductive Fault where
  /-- Raised by TBUILD, HWRITE and DECODE (and the macros through their bodies) when FT has fewer entries
  than N says (R22: N is always |FT|). Safe: the model stops where the spec gives no effect. -/
  | entryMissing
  /-- Raised by HWRITE (and COMPRESS through it) when FT holds a symbol that is no scalar value (R20: every
  symbol stored is one), for which `utf8` is not defined. Safe: the model stops. -/
  | symbolNotScalar
  /-- Raised by CWALK (and the macros through it) when NODE is no tree with leaves 0 to N − 1 under ROOT
  (R48). Safe: the model stops. -/
  | arenaMalformed
deriving DecidableEq, Repr

/-- No meaning for a command. -/
inductive Refusal where
  /-- Raised by `exec` for an instruction that has no meaning yet; no arm does. Safe: the model stops. -/
  | notModelled (mnemonic : String)
deriving DecidableEq, Repr

end Sys2Proof.Machine
end

