-- ==== Sys2Proof/Machine/Flags.lean ====
section
/-! DEFINITION. STATUS (10_state.md R27) and the valid-flag chain (R36). -/

namespace Sys2Proof.Machine

/-- STATUS as a word: bit 0 ERR, 1 FTV, 2 TREEV, 3 CTV, 4 BITSV, 5 RES, bits 31 to 6 zero (R27). -/
def statusWord (e : Engine) : Word :=
  0#26 ++ BitVec.ofBool e.res ++ BitVec.ofBool e.bitsv ++ BitVec.ofBool e.ctv ++ BitVec.ofBool e.treev ++
    BitVec.ofBool e.ftv ++ BitVec.ofBool e.err

/-- "Clears the tree" (R36). -/
def clearTree (e : Engine) : Engine :=
  { e with node := [], nn := 0, root := 0, rootv := false, pq := [], treev := false }

/-- "Clears the code table" (R36). -/
def clearCodeTable (e : Engine) : Engine := { e with ct := [], ctv := false }

/-- What a command that writes FT does at its end: `FT <- t ; N <- n ; FTV <- 1 ; clear the tree ; clear
the code table` (R36; 41_frequency_counter.md R120, 45_header_codec.md R171). -/
def installTable (t : List FreqEntry) (n : BitVec 16) (e : Engine) : Engine :=
  clearCodeTable (clearTree { e with ft := t, n := n, ftv := true })

end Sys2Proof.Machine
end

