-- ==== Sys2Proof/Machine/Operands.lean ====
section
/-! DEFINITION. The data forms the commands work on: legal symbols (10_state.md R20), bits of a byte and
big-endian integers (20_memory.md R62, R63), UTF-8 (R64, R65). The operand fields of a command word are
in Decode.lean. -/

namespace Sys2Proof.Machine

/-- `is_scalar(v)` (R20). -/
def isScalar (v : Sym) : Bool := v ≤ 0xD7FF#21 || (0xE000#21 ≤ v && v ≤ 0x10FFFF#21)

/-- `byte_bits(b)`: most significant bit first (R62). -/
def byteBits (b : Byte) : Bits :=
  [b.getLsbD 7, b.getLsbD 6, b.getLsbD 5, b.getLsbD 4, b.getLsbD 3, b.getLsbD 2, b.getLsbD 1, b.getLsbD 0]

/-- `bits_byte(s)` for the 8-bit bitstring `s`: `b[7 − j] = s[j]` (R62). -/
def bitsByte (s0 s1 s2 s3 s4 s5 s6 s7 : Bool) : Byte :=
  BitVec.ofBool s0 ++ BitVec.ofBool s1 ++ BitVec.ofBool s2 ++ BitVec.ofBool s3 ++ BitVec.ofBool s4 ++
    BitVec.ofBool s5 ++ BitVec.ofBool s6 ++ BitVec.ofBool s7

/-- The bytes of a bitstring, 8 bits each; callers pass a length that is a multiple of 8 (R160). -/
def bytesOfBits : Bits → List Byte
  | s0 :: s1 :: s2 :: s3 :: s4 :: s5 :: s6 :: s7 :: rest => bitsByte s0 s1 s2 s3 s4 s5 s6 s7 :: bytesOfBits rest
  | _ => []

/-- The bits of a byte sequence, in order (R161). -/
def bitsOfBytes (y : List Byte) : Bits := y.flatMap byteBits

/-- `be16(v)` (R63). -/
def be16 (v : BitVec 16) : List Byte := [v.extractLsb' 8 8, v.extractLsb' 0 8]

/-- `be32(v)` (R63). -/
def be32 (v : BitVec 32) : List Byte :=
  [v.extractLsb' 24 8, v.extractLsb' 16 8, v.extractLsb' 8 8, v.extractLsb' 0 8]

/-- `from_be` of two bytes (R63). -/
def fromBe16 (y0 y1 : Byte) : BitVec 16 := y0 ++ y1

/-- `from_be` of four bytes (R63). -/
def fromBe32 (y0 y1 y2 y3 : Byte) : BitVec 32 := y0 ++ y1 ++ y2 ++ y3

/-- A UTF-8 byte `10xxxxxx` (R64). -/
def utf8Cont (x : BitVec 6) : Byte := 0b10#2 ++ x

/-- `utf8(s)`; `none` where it is not defined, off the scalar values (R64). -/
def utf8 (s : Sym) : Option (List Byte) :=
  if isScalar s then
    if s ≤ 0x7F#21 then some [s.extractLsb' 0 8]
    else if s ≤ 0x7FF#21 then
      some [0b110#3 ++ s.extractLsb' 6 5, utf8Cont (s.extractLsb' 0 6)]
    else if s ≤ 0xFFFF#21 then
      some [0b1110#4 ++ s.extractLsb' 12 4, utf8Cont (s.extractLsb' 6 6), utf8Cont (s.extractLsb' 0 6)]
    else
      some [0b11110#5 ++ s.extractLsb' 18 3, utf8Cont (s.extractLsb' 12 6), utf8Cont (s.extractLsb' 6 6),
        utf8Cont (s.extractLsb' 0 6)]
  else none

/-- The `x` bits of a byte sequence read by the form of its length (R64), whatever its other bits are. -/
def utf8Payload : List Byte → Option Sym
  | [a] => some (a.setWidth 21)
  | [a, b] => some (0#10 ++ a.extractLsb' 0 5 ++ b.extractLsb' 0 6)
  | [a, b, c] => some (0#5 ++ a.extractLsb' 0 4 ++ b.extractLsb' 0 6 ++ c.extractLsb' 0 6)
  | [a, b, c, d] =>
    some (a.extractLsb' 0 3 ++ b.extractLsb' 0 6 ++ c.extractLsb' 0 6 ++ d.extractLsb' 0 6)
  | _ => none

/-- `utf8_one(y)`: the scalar value `s` with `utf8(s) = y` if there is one, else `none` for `invalid`
(R65). The value the form would carry is the only candidate; asking that its encoding be `y` again is what
refuses wrong lead and continuation bytes, over-long forms, surrogates and values above 0x10FFFF. -/
def utf8One (y : List Byte) : Option Sym :=
  match utf8Payload y with
  | some s => if utf8 s = some y then some s else none
  | none => none

end Sys2Proof.Machine
end

