-- ==== Sys2Proof/Machine/Ops.lean ====
section
/-! DEFINITION. The operations the meanings share: sequence primitives (00_scope.md R11), how a command's
pseudocode ends (R12), fault entry and return (60_exceptions.md R210, R222, R224), and the execution
envelope (R210, R223). -/

namespace Sys2Proof.Machine

/-- `len` elements fit the capacity; `unbounded` always fits (R6). -/
def fits (cap : Capacity) (len : Nat) : Bool :=
  match cap with
  | none => true
  | some c => len ≤ c.val

/-- `Append(Q, xs)`: the longer queue, or `none` where R11 raises ERR_CAPACITY(4). -/
def appendWithin {α : Type} (cap : Capacity) (q xs : List α) : Option (List α) :=
  if fits cap (q.length + xs.length) then some (q ++ xs) else none

/-- `FT[0..N)`, `none` when FT is shorter (`MemRead` of R11; R22 says N is always |FT|). -/
def tableEntries (e : Engine) : Option (List FreqEntry) :=
  if e.n.toNat ≤ e.ft.length then some (e.ft.take e.n.toNat) else none

/-- The seven error names (R212). -/
inductive Cause where
  /-- ERR_FORMAT -/
  | format
  /-- ERR_CAPACITY -/
  | capacity
  /-- ERR_ILLEGAL -/
  | illegal
  /-- ERR_SEQ -/
  | seq
  /-- ERR_SYMBOL -/
  | symbol
  /-- ERR_NOCODE -/
  | nocode
  /-- ERR_EMPTY -/
  | empty
deriving DecidableEq, Repr

/-- The number ERRCODE holds for a cause (R212). -/
def Cause.code : Cause → BitVec 8
  | .format => 1
  | .capacity => 2
  | .illegal => 3
  | .seq => 4
  | .symbol => 5
  | .nocode => 6
  | .empty => 7

/-- How a command's pseudocode ends: it runs to its end, or at a `raise E(info)` (R12), or (in states no run
reaches) it has no meaning. -/
inductive Ending where
  | done (e : Engine)
  | raise (c : Cause) (info : BitVec 8)
  | stuck (f : Fault)
deriving DecidableEq, Repr

/-- One body after another, as in the macros (46_codec_sequencer.md R190, R191). -/
def Ending.andThen (r : Ending) (next : Engine → Ending) : Ending :=
  match r with
  | .done e => next e
  | .raise c info => .raise c info
  | .stuck f => .stuck f

/-- Fault entry: over the state from before the command, `ERR <- 1 ; ERRCODE <- code of E ; ERRINFO <- info ;
ERRCMD <- w`; nothing else is saved and no control is transferred (R210, R222). -/
def takeFault (c : Cause) (info : BitVec 8) (w : Word) (e : Engine) : Engine :=
  { e with err := true, errcode := c.code, errinfo := info, errcmd := w }

/-- Fault return: the record is cleared, the rest stays (R224; 47_system.md R201). -/
def clearFault (e : Engine) : Engine :=
  { e with err := false, errcode := 0, errinfo := 0, errcmd := 0 }

/-- The envelope of every command but NOP, RESET and CLRERR: ignored while a fault is held, else the body is
run and a `raise` rolls back to the state before it (R210, R211, R223). -/
def runCommand (i : Instr) (body : Engine → Ending) (s : State) : Host.Outcome State Fault Refusal :=
  if s.eng.err then .next s
  else
    match body s.eng with
    | .done e => .next { s with eng := e }
    | .raise c info => .next { s with eng := takeFault c info (encode i) s.eng }
    | .stuck f => .fault f

/-- The envelope of NOP, RESET and CLRERR, executed whether ERR is 0 or 1 and never faulting (R210, R225). -/
def runAlways (effect : Engine → Engine) (s : State) : Host.Outcome State Fault Refusal :=
  .next { s with eng := effect s.eng }

/-- A word that is no command: ignored while a fault is held, else ERR_ILLEGAL(0) (R96, R210, R215). -/
def runIllegal (w : Word) (s : State) : Host.Outcome State Fault Refusal :=
  if s.eng.err then .next s else .next { s with eng := takeFault .illegal 0 w s.eng }

end Sys2Proof.Machine
end

