-- ==== Sys2Proof/Machine/HostData.lean ====
section
/-! DEFINITION. The host data commands PUSHS, PUSHB, POPB, POPS (40_host_data.md). -/

namespace Sys2Proof.Machine

/-- R111: the symbol is checked before the capacity. -/
def pushsBody (cfg : Capacities) (sym : Sym) (e : Engine) : Ending :=
  if isScalar sym then
    match appendWithin cfg.symIn e.symIn [sym] with
    | some q => .done { e with symIn := q }
    | none => .raise .capacity 4
  else .raise .symbol 0

/-- PUSHS sym (R111). -/
def execPushs (sym : Sym) (s : State) : Host.Outcome State Fault Refusal :=
  runCommand (.pushs sym) (pushsBody s.cfg sym) s

/-- R112. -/
def pushbBody (cfg : Capacities) (byte : Byte) (e : Engine) : Ending :=
  match appendWithin cfg.byteIn e.byteIn [byte] with
  | some q => .done { e with byteIn := q }
  | none => .raise .capacity 4

/-- PUSHB byte (R112). -/
def execPushb (byte : Byte) (s : State) : Host.Outcome State Fault Refusal :=
  runCommand (.pushb byte) (pushbBody s.cfg byte) s

/-- R113: `TakeHead(BYTE_OUT, 1)` into RDATA, zero-extended. -/
def popbBody (e : Engine) : Ending :=
  match e.byteOut with
  | [] => .raise .empty 0
  | b :: rest => .done { e with byteOut := rest, rdata := b.setWidth 32 }

/-- POPB (R113). -/
def execPopb (s : State) : Host.Outcome State Fault Refusal := runCommand .popb popbBody s

/-- R114: `TakeHead(SYM_OUT, 1)` into RDATA, zero-extended. -/
def popsBody (e : Engine) : Ending :=
  match e.symOut with
  | [] => .raise .empty 0
  | x :: rest => .done { e with symOut := rest, rdata := x.setWidth 32 }

/-- POPS (R114). -/
def execPops (s : State) : Host.Outcome State Fault Refusal := runCommand .pops popsBody s

end Sys2Proof.Machine
end

