-- ==== Sys2Proof/Machine/BitPacker.lean ====
section
/-! DEFINITION. The bit packer and unpacker, PACK and UNPACK (44_bit_packer.md). -/

namespace Sys2Proof.Machine

/-- `p <- 8 − (n mod 8)`, 1 to 8 and never 0 (R160). -/
def paddingOf (n : Nat) : Nat := 8 - n % 8

/-- `pack(B)` (R160): the count byte, the bits, `p` zero filler bits, in bytes. -/
def packBits (b : Bits) : List Byte :=
  bytesOfBits (byteBits (BitVec.ofNat 8 (paddingOf b.length)) ++ b ++ List.replicate (paddingOf b.length) false)

/-- R160. -/
def packBody (cfg : Capacities) (e : Engine) : Ending :=
  if e.bitsv then
    match appendWithin cfg.byteOut e.byteOut (packBits e.bits) with
    | some q => .done { e with byteOut := q, pad := BitVec.ofNat 4 (paddingOf e.bits.length) }
    | none => .raise .capacity 4
  else .raise .seq 0

/-- PACK (R160). -/
def execPack (s : State) : Host.Outcome State Fault Refusal := runCommand .pack (packBody s.cfg) s

/-- R161, its tests in the order written. -/
def unpackBody (cfg : Capacities) (e : Engine) : Ending :=
  match e.byteIn with
  | [] => .raise .format 6
  | y0 :: rest =>
    if y0.toNat < 1 ∨ 8 < y0.toNat then .raise .format 7
    else if (bitsOfBytes rest).length < y0.toNat then .raise .format 6
    else if fits cfg.bits ((bitsOfBytes rest).length - y0.toNat) then
      .done { e with
        bits := (bitsOfBytes rest).take ((bitsOfBytes rest).length - y0.toNat)
        bitsv := true
        pad := y0.setWidth 4
        byteIn := [] }
    else .raise .capacity 4

/-- UNPACK (R161). -/
def execUnpack (s : State) : Host.Outcome State Fault Refusal := runCommand .unpack (unpackBody s.cfg) s

end Sys2Proof.Machine
end

