-- ==== Sys2Proof/Machine/CodeTable.lean ====
section
/-! DEFINITION. The code-table generator, CWALK, and the two lookups (43_code_table.md). -/

namespace Sys2Proof.Machine

/-- `walk(k, path)` of R150, filling the slots `c`. `depth` bounds the walk, which in a tree of `|NODE|` nodes
is never deeper than that; `none` when the arena is no tree over the slots (log entry 4). -/
def walk (node : List Node) : (depth : Nat) → NodeIdx → Bits → List (Option CodeEntry) →
    Option (List (Option CodeEntry))
  | 0, _, _, _ => none
  | d + 1, k, path, c =>
    match node[k.toNat]? with
    | none => none
    | some (.leaf sym _) => if k.toNat < c.length then some (c.set k.toNat (some ⟨sym, path⟩)) else none
    | some (.internal _ l r) =>
      match walk node d l (path ++ [false]) c with
      | none => none
      | some c' => walk node d r (path ++ [true]) c'

/-- The sequence of the slots, `none` when one is empty. -/
def filledSlots : List (Option CodeEntry) → Option (List CodeEntry)
  | [] => some []
  | none :: _ => none
  | some x :: rest => (filledSlots rest).map (x :: ·)

/-- The table of codes of the built tree: N empty slots, filled by the walk from the root (R150, R157). -/
def codesOfTree (e : Engine) : Option (List CodeEntry) :=
  if e.rootv then
    match walk e.node e.node.length e.root [] (List.replicate e.n.toNat none) with
    | some c => filledSlots c
    | none => none
  else filledSlots (List.replicate e.n.toNat none)

/-- R150. -/
def cwalkBody (e : Engine) : Ending :=
  if e.treev then
    match codesOfTree e with
    | some c => .done { e with ct := c, ctv := true }
    | none => .stuck .arenaMalformed
  else .raise .seq 0

/-- CWALK (R150). -/
def execCwalk (s : State) : Host.Outcome State Fault Refusal := runCommand .cwalk cwalkBody s

/-- `enc(s)` (R153). -/
def enc (ct : List CodeEntry) (x : Sym) : Option Bits :=
  (ct.find? (fun c => c.sym == x)).map CodeEntry.code

/-- `dec(b)` (R153). -/
def dec (ct : List CodeEntry) (b : Bits) : Option Sym :=
  (ct.find? (fun c => c.code == b)).map CodeEntry.sym

end Sys2Proof.Machine
end

