-- ==== Sys2Proof/Machine/HeaderCodec.lean ====
section
/-! DEFINITION. The header serializer and deserializer, HWRITE and HREAD (45_header_codec.md; the layout is
20_memory.md R67). -/

namespace Sys2Proof.Machine

/-- One entry of the header, `[ |u| ] ++ u ++ be32(count)`; `none` where `utf8` is not defined (R170). -/
def headerEntry (t : FreqEntry) : Option (List Byte) :=
  match utf8 t.sym with
  | some u => some (BitVec.ofNat 8 u.length :: (u ++ be32 t.count))
  | none => none

/-- The entries in ascending table index (R170). -/
def headerEntries : List FreqEntry → Option (List Byte)
  | [] => some []
  | t :: rest =>
    match headerEntry t, headerEntries rest with
    | some h, some hs => some (h ++ hs)
    | _, _ => none

/-- `header(T)`: `be16(N)` and the entries (R170). -/
def headerOf (n : BitVec 16) (t : List FreqEntry) : Option (List Byte) :=
  match headerEntries t with
  | some h => some (be16 n ++ h)
  | none => none

/-- R170. -/
def hwriteBody (cfg : Capacities) (e : Engine) : Ending :=
  if e.ftv then
    match tableEntries e with
    | none => .stuck .entryMissing
    | some t =>
      match headerOf e.n t with
      | none => .stuck .symbolNotScalar
      | some h =>
        match appendWithin cfg.byteOut e.byteOut h with
        | some q => .done { e with byteOut := q }
        | none => .raise .capacity 4
  else .raise .seq 0

/-- HWRITE (R170). -/
def execHwrite (s : State) : Host.Outcome State Fault Refusal := runCommand .hwrite (hwriteBody s.cfg) s

/-- What parsing comes to: a table and the bytes after what was parsed, or the sub-cause of ERR_FORMAT. -/
inductive Parsed where
  | table (t : List FreqEntry) (rest : List Byte)
  | bad (info : BitVec 8)
deriving DecidableEq, Repr

/-- The body of the `repeat` of R171 on the bytes from the cursor on, its tests in the order written. -/
def parseEntry (t : List FreqEntry) (y : List Byte) : Parsed :=
  match y with
  | [] => .bad 2
  | len :: y1 =>
    if y1.length < len.toNat then .bad 2
    else
      match utf8One (y1.take len.toNat) with
      | none => .bad 3
      | some x =>
        if t.any (fun r => r.sym == x) then .bad 4
        else
          match y1.drop len.toNat with
          | k0 :: k1 :: k2 :: k3 :: y2 =>
            if fromBe32 k0 k1 k2 k3 = 0 then .bad 5
            else .table (t ++ [⟨x, fromBe32 k0 k1 k2 k3⟩]) y2
          | _ => .bad 2

/-- `repeat n times` (R171). -/
def parseEntries : (n : Nat) → List FreqEntry → List Byte → Parsed
  | 0, t, y => .table t y
  | k + 1, t, y =>
    match parseEntry t y with
    | .table t' y' => parseEntries k t' y'
    | .bad info => .bad info

/-- R171. -/
def hreadBody (e : Engine) : Ending :=
  match e.byteIn with
  | y0 :: y1 :: y =>
    match parseEntries (fromBe16 y0 y1).toNat [] y with
    | .table t rest => .done (installTable t (fromBe16 y0 y1) { e with byteIn := rest })
    | .bad info => .raise .format info
  | _ => .raise .format 1

/-- HREAD (R171). -/
def execHread (s : State) : Host.Outcome State Fault Refusal := runCommand .hread hreadBody s

end Sys2Proof.Machine
end

