-- ==== Sys2Proof/Machine/Histogram.lean ====
section
/-! DEFINITION. The frequency histogram counter, HCOUNT (41_frequency_counter.md). -/

namespace Sys2Proof.Machine

/-- The table after one more occurrence of a symbol it already holds: `T[i].count <- T[i].count + 1` at the
first such `i`, or `none` at a count of 2^32 − 1 (R120). -/
def bumpEntry (x : Sym) : List FreqEntry → Option (List FreqEntry)
  | [] => some []
  | t :: rest =>
    if t.sym = x then
      if t.count.toNat = countMax then none else some ({ t with count := t.count + 1 } :: rest)
    else (bumpEntry x rest).map (t :: ·)

/-- What the scan of SYM_IN comes to: a table, or the sub-cause of ERR_CAPACITY (R120). -/
inductive Counted where
  | table (t : List FreqEntry)
  | full (info : BitVec 8)
deriving DecidableEq, Repr

/-- One symbol of the scan (the loop body of R120). -/
def countSymbol (t : List FreqEntry) (x : Sym) : Counted :=
  if t.any (fun r => r.sym == x) then
    match bumpEntry x t with
    | some t' => .table t'
    | none => .full 3
  else if t.length = nMax then .full 1
  else .table (t ++ [⟨x, 1⟩])

/-- The loop of R120 over the symbols in queue order (R61); the first `raise` ends it. -/
def countSymbols : List FreqEntry → List Sym → Counted
  | t, [] => .table t
  | t, x :: rest =>
    match countSymbol t x with
    | .table t' => countSymbols t' rest
    | .full info => .full info

/-- R120. -/
def hcountBody (e : Engine) : Ending :=
  match countSymbols [] e.symIn with
  | .table t => .done (installTable t (BitVec.ofNat 16 t.length) e)
  | .full info => .raise .capacity info

/-- HCOUNT (R120). -/
def execHcount (s : State) : Host.Outcome State Fault Refusal := runCommand .hcount hcountBody s

end Sys2Proof.Machine
end

