-- ==== Sys2Proof/Machine/TreeBuilder.lean ====
section
/-! DEFINITION. The tree builder and its priority queue, TBUILD (42_tree_builder.md). -/

namespace Sys2Proof.Machine

/-- `NODE[k].weight` of either kind of node (10_state.md R39). -/
def Node.weight : Node → Weight
  | .leaf _ w => w
  | .internal w _ _ => w

/-- The weight of the node at an index. TBUILD only asks at indices of the arena; off it the answer 0 is
never used. -/
def weightAt (node : List Node) (k : NodeIdx) : Weight :=
  match node[k.toNat]? with
  | some x => x.weight
  | none => 0

/-- `key(a) < key(b)`: the lesser weight, and of equal weights the lower index (R132). -/
def keyLt (node : List Node) (a b : NodeIdx) : Bool :=
  weightAt node a < weightAt node b || (weightAt node a == weightAt node b && a < b)

/-- `PQ.insert(k)` (R131) on the strictly ascending list of the members. -/
def pqInsert (k : NodeIdx) : List NodeIdx → List NodeIdx
  | [] => [k]
  | x :: rest => if k < x then k :: x :: rest else if k = x then x :: rest else x :: pqInsert k rest

/-- The member with the least key among `best` and the list (R132). -/
def pqLeast (node : List Node) (best : NodeIdx) : List NodeIdx → NodeIdx
  | [] => best
  | x :: rest => pqLeast node (if keyLt node x best then x else best) rest

/-- `PQ.extract_min()` (R132): the member with the least key, and the set without it; `none` on the empty
set. -/
def pqExtractMin (node : List Node) : List NodeIdx → Option (NodeIdx × List NodeIdx)
  | [] => none
  | x :: rest => some (pqLeast node x rest, (x :: rest).erase (pqLeast node x rest))

/-- A node appended to NODE at index NN, and that index inserted into PQ (R130, R131, R133). -/
def addNode (x : Node) (e : Engine) : Engine :=
  { e with node := e.node ++ [x], nn := e.nn + 1, pq := pqInsert e.nn e.pq }

/-- The leaf of a table entry, its count zero-extended to the weight's width (R130, R140). -/
def leafOf (t : FreqEntry) : Node := .leaf t.sym (t.count.setWidth 48)

/-- The leaves in ascending table index (R130). -/
def addLeaves (t : List FreqEntry) (e : Engine) : Engine :=
  t.foldl (fun e r => addNode (leafOf r) e) e

/-- `merge(a, b)`: the first extracted is the left child, the second the right (R133). -/
def mergeNodes (a b : NodeIdx) (e : Engine) : Engine :=
  addNode (.internal (weightAt e.node a + weightAt e.node b) a b) e

/-- One round of the loop of R130: extract, extract, merge; `none` when PQ has fewer than two members. -/
def mergeRound (e : Engine) : Option Engine :=
  match pqExtractMin e.node e.pq with
  | none => none
  | some (a, q1) =>
    match pqExtractMin e.node q1 with
    | none => none
    | some (b, q2) => some (mergeNodes a b { e with pq := q2 })

/-- `while |PQ| >= 2` (R130). Every round takes one member away (R134), so as many rounds as PQ has members
are more than enough; `rounds` only makes the recursion structural. -/
def mergeAll : (rounds : Nat) → Engine → Engine
  | 0, e => e
  | k + 1, e =>
    match mergeRound e with
    | none => e
    | some e' => mergeAll k e'

/-- The end of R130: ROOT is the one member of PQ, or there is no root. -/
def setRoot (e : Engine) : Engine :=
  match e.pq with
  | [k] => { e with root := k, rootv := true, treev := true }
  | _ => { e with root := 0, rootv := false, treev := true }

/-- The tree of a table, built over an engine whose tree and code table are cleared (R130). -/
def buildTree (t : List FreqEntry) (e : Engine) : Engine :=
  setRoot (mergeAll t.length (addLeaves t (clearCodeTable (clearTree e))))

/-- R130. -/
def tbuildBody (e : Engine) : Ending :=
  if e.ftv then
    match tableEntries e with
    | some t => .done (buildTree t e)
    | none => .stuck .entryMissing
  else .raise .seq 0

/-- TBUILD (R130). -/
def execTbuild (s : State) : Host.Outcome State Fault Refusal := runCommand .tbuild tbuildBody s

end Sys2Proof.Machine
end

