-- ==== Sys2Proof/Machine/Sequencer.lean ====
section
/-! DEFINITION. Encoder, decoder and the two macro commands: ENCODE, DECODE, COMPRESS, DECOMPRESS
(46_codec_sequencer.md). -/

namespace Sys2Proof.Machine

/-- The loop of R185: the codes of the symbols in queue order, `none` at a symbol without a code. -/
def encodeSymbols (ct : List CodeEntry) : List Sym → Option Bits
  | [] => some []
  | x :: rest =>
    match enc ct x, encodeSymbols ct rest with
    | some c, some b => some (c ++ b)
    | _, _ => none

/-- R185. -/
def encodeBody (cfg : Capacities) (e : Engine) : Ending :=
  if e.ctv then
    match encodeSymbols e.ct e.symIn with
    | none => .raise .nocode 0
    | some b => if fits cfg.bits b.length then .done { e with bits := b, bitsv := true } else .raise .capacity 4
  else .raise .seq 0

/-- ENCODE (R185). -/
def execEncode (s : State) : Host.Outcome State Fault Refusal := runCommand .encode (encodeBody s.cfg) s

/-- The greedy loop of R186: the symbols emitted and the bits left in the accumulator. -/
def decodeBits (ct : List CodeEntry) : (acc : Bits) → Bits → List Sym × Bits
  | acc, [] => ([], acc)
  | acc, b :: rest =>
    match dec ct (acc ++ [b]) with
    | some x => (x :: (decodeBits ct [] rest).1, (decodeBits ct [] rest).2)
    | none => decodeBits ct (acc ++ [b]) rest

/-- `O` and `ACC` at the end of R186's branches: one symbol is emitted as often as FT counts it and no bit is
read (R187); otherwise the greedy loop. `none` when N = 1 and FT is empty. -/
def decodePayload (e : Engine) : Option (List Sym × Bits) :=
  if e.n = 1 then
    match e.ft with
    | [] => none
    | t :: _ => some (List.replicate t.count.toNat t.sym, e.bits)
  else some (decodeBits e.ct [] e.bits)

/-- R186; RES is set when bits were left over (R189). -/
def decodeBody (cfg : Capacities) (e : Engine) : Ending :=
  if e.ctv && e.bitsv then
    match decodePayload e with
    | none => .stuck .entryMissing
    | some (out, acc) =>
      match appendWithin cfg.symOut e.symOut out with
      | some q => .done { e with symOut := q, res := !acc.isEmpty }
      | none => .raise .capacity 4
  else .raise .seq 0

/-- DECODE (R186). -/
def execDecode (s : State) : Host.Outcome State Fault Refusal := runCommand .decode (decodeBody s.cfg) s

/-- The six bodies back to back (R190). -/
def compressBody (cfg : Capacities) (e : Engine) : Ending :=
  (((((hcountBody e).andThen (hwriteBody cfg)).andThen tbuildBody).andThen cwalkBody).andThen
    (encodeBody cfg)).andThen (packBody cfg)

/-- COMPRESS (R190): one atomic step, a fault rolls back the whole macro. -/
def execCompress (s : State) : Host.Outcome State Fault Refusal := runCommand .compress (compressBody s.cfg) s

/-- The five bodies back to back (R191). -/
def decompressBody (cfg : Capacities) (e : Engine) : Ending :=
  ((((hreadBody e).andThen tbuildBody).andThen cwalkBody).andThen (unpackBody cfg)).andThen (decodeBody cfg)

/-- DECOMPRESS (R191): one atomic step, a fault rolls back the whole macro. -/
def execDecompress (s : State) : Host.Outcome State Fault Refusal :=
  runCommand .decompress (decompressBody s.cfg) s

end Sys2Proof.Machine
end

