-- ==== Sys2Proof/Machine/System.lean ====
section
/-! DEFINITION. NOP (40_host_data.md R110) and the system commands RESET and CLRERR (47_system.md). -/

namespace Sys2Proof.Machine

/-- NOP (R110): nothing; executed even while a fault is held, which it leaves held. -/
def execNop (s : State) : Host.Outcome State Fault Refusal := runAlways (fun e => e) s

/-- RESET (R200): every piece of state at its reset value (R49). -/
def execReset (s : State) : Host.Outcome State Fault Refusal := runAlways (fun _ => Engine.reset) s

/-- CLRERR (R201): the fault record is cleared. -/
def execClrerr (s : State) : Host.Outcome State Fault Refusal := runAlways clearFault s

end Sys2Proof.Machine
end

