-- ==== Sys2Proof/Machine/Dispatch.lean ====
section
/-! DEFINITION. One arm per command, each a call of its meaning. -/

namespace Sys2Proof.Machine

def exec (i : Instr) (s : State) : Host.Outcome State Fault Refusal :=
  match i with
  | .nop => Sys2Proof.Machine.execNop s
  | .reset => Sys2Proof.Machine.execReset s
  | .clrerr => Sys2Proof.Machine.execClrerr s
  | .pushs sym => Sys2Proof.Machine.execPushs sym s
  | .pushb byte => Sys2Proof.Machine.execPushb byte s
  | .popb => Sys2Proof.Machine.execPopb s
  | .pops => Sys2Proof.Machine.execPops s
  | .hcount => Sys2Proof.Machine.execHcount s
  | .tbuild => Sys2Proof.Machine.execTbuild s
  | .cwalk => Sys2Proof.Machine.execCwalk s
  | .encode => Sys2Proof.Machine.execEncode s
  | .pack => Sys2Proof.Machine.execPack s
  | .unpack => Sys2Proof.Machine.execUnpack s
  | .decode => Sys2Proof.Machine.execDecode s
  | .hwrite => Sys2Proof.Machine.execHwrite s
  | .hread => Sys2Proof.Machine.execHread s
  | .compress => Sys2Proof.Machine.execCompress s
  | .decompress => Sys2Proof.Machine.execDecompress s

end Sys2Proof.Machine
end

