-- ==== Sys2Proof/Machine/HostPort.lean ====
section
/-! DEFINITION. The register port (10_state.md R31 to R34) and the serving of one host access. -/

namespace Sys2Proof.Machine

/-- A length as a 64-bit view (R31); a free value where it does not fit (log entry 5). -/
def lengthView (len : Nat) : BitVec 64 :=
  if len < 2 ^ 64 then BitVec.ofNat 64 len else Config.freeLength len

/-- `RegRead(idx)`: the register's value zero-extended to 64 bits (R33); CMD (R32) and index 0xF (R34) read 0. -/
def regRead (idx : BitVec 4) (e : Engine) : BitVec 64 :=
  match idx.toNat with
  | 0x1 => (statusWord e).setWidth 64
  | 0x2 => e.errcode.setWidth 64
  | 0x3 => e.errinfo.setWidth 64
  | 0x4 => e.errcmd.setWidth 64
  | 0x5 => e.rdata.setWidth 64
  | 0x6 => e.n.setWidth 64
  | 0x7 => e.nn.setWidth 64
  | 0x8 => (BitVec.ofBool e.rootv ++ e.root).setWidth 64
  | 0x9 => e.pad.setWidth 64
  | 0xA => lengthView e.symIn.length
  | 0xB => lengthView e.byteIn.length
  | 0xC => lengthView e.byteOut.length
  | 0xD => lengthView e.symOut.length
  | 0xE => lengthView e.bits.length
  | _ => 0

/-- A word written to CMD is executed as a command (R32; 60_exceptions.md R210). -/
def runWord (w : Word) (s : State) : Host.Outcome State Fault Refusal :=
  match decode w with
  | .command i => exec i s
  | .illegal _ => runIllegal w s

/-- One access of the host: a read delivers a value and changes nothing else (20_memory.md R72), a write to
CMD runs a command, a write to any other index does nothing (R34), a hardware reset has the effect of RESET
(70_reset_and_hazards.md R240). -/
def serveAccess (a : HostAccess) (s : State) : Host.Outcome State Fault Refusal :=
  match a with
  | .regRead idx => .next { s with answers := s.answers ++ [regRead idx s.eng] }
  | .regWrite idx v => if idx = 0 then runWord v s else .next s
  | .hardReset => .next { s with eng := Engine.reset }

/-- The next access the host has pending is taken and served; with none pending the engine is idle, which has
no architectural effect (60_exceptions.md R232). -/
def stepHost (s : State) : Host.Outcome State Fault Refusal :=
  match s.pending with
  | [] => .next s
  | a :: rest => serveAccess a { s with pending := rest }

/-- The host's next access becomes a write of this word to CMD (log entry 2). -/
def hostWritesCommand (w : Nat) (s : State) : State :=
  { s with pending := .regWrite 0 (BitVec.ofNat 32 w) :: s.pending }

end Sys2Proof.Machine
end

