-- ==== Sys2Proof/Machine/Step.lean ====
section
/-! DEFINITION. One step of the machine: one host access is served. -/

namespace Sys2Proof.Machine

/-- One step: the oldest pending host access is served to completion (00_scope.md R4). -/
def step (s : State) : Host.Outcome State Fault Refusal := stepHost s

/-- The state in which the very next step runs the given command word: it is what the host writes to CMD next.
A command is one 32-bit word (30_encoding.md R90), whose bits the opcode table numbers as the word's own, so
`nbits` is always 32 and is not needed. -/
def State.withFetchWord (s : State) (_nbits w : Nat) : State := hostWritesCommand w s

end Sys2Proof.Machine
end

