-- ==== Sys2Proof/Safety.lean ====
section
/-! DEFINITION. What holds of every state a run from reset reaches, in the terms the statements use: the
invariants of 10_state.md, one predicate each, and the reading of a path through the arena. -/

namespace Sys2Proof.Machine

/-- The canonical form of the machine's one memory whose order is not the spec's: PQ is a set (R41), held as
the strictly ascending list of its members, so that equal sets are equal data. The other memories are
sequences (R38 to R46) and have one form only. -/
abbrev Memory.wf (e : Engine) : Prop := e.pq.Pairwise (fun a b => a < b)

/-- R20: every symbol stored anywhere in the state is a scalar value. -/
abbrev SymbolsScalar (e : Engine) : Prop :=
  (∀ x ∈ e.symIn, isScalar x = true) ∧ (∀ x ∈ e.symOut, isScalar x = true) ∧
    (∀ t ∈ e.ft, isScalar t.sym = true) ∧ (∀ c ∈ e.ct, isScalar c.sym = true)

/-- R22, R38: N is |FT|, counts are at least 1, symbols are distinct, and an invalid table is empty. -/
abbrev TableSound (e : Engine) : Prop :=
  e.n.toNat = e.ft.length ∧ (∀ t ∈ e.ft, t.count ≠ 0) ∧ (e.ft.map FreqEntry.sym).Nodup ∧
    (e.ftv = false → e.ft = [])

/-- NODE, NN, ROOT, ROOTV and PQ are the tree of another engine's. -/
abbrev SameTree (a b : Engine) : Prop :=
  a.node = b.node ∧ a.nn = b.nn ∧ a.root = b.root ∧ a.rootv = b.rootv ∧ a.pq = b.pq

/-- R27, R36: with TREEV the tree is the one TBUILD makes of the current FT, without it there is none. -/
abbrev TreeSound (e : Engine) : Prop :=
  (e.treev = true → SameTree e (buildTree e.ft Engine.reset)) ∧ (e.treev = false → SameTree e Engine.reset)

/-- R27, R36: with CTV the code table is the one CWALK makes of the current tree, without it there is none. -/
abbrev CodesSound (e : Engine) : Prop :=
  (e.ctv = true → codesOfTree e = some e.ct) ∧ (e.ctv = false → e.ct = [])

/-- R36: the valid-flag chain. -/
abbrev FlagChain (e : Engine) : Prop :=
  (e.ctv = true → e.treev = true) ∧ (e.treev = true → e.ftv = true)

/-- R25, R46: PAD is 0 to 8; an invalid BITS is empty. -/
abbrev PayloadSound (e : Engine) : Prop := e.pad ≤ 8#4 ∧ (e.bitsv = false → e.bits = [])

/-- R28 to R30, R212: with no fault held the record is 0, with one ERRCODE is 1 to 7. -/
abbrev RecordSound (e : Engine) : Prop :=
  (e.err = false → e.errcode = 0 ∧ e.errinfo = 0 ∧ e.errcmd = 0) ∧
    (e.err = true → 1#8 ≤ e.errcode ∧ e.errcode ≤ 7#8)

/-- Every invariant of the engine's own state. -/
abbrev EngineSound (e : Engine) : Prop :=
  Memory.wf e ∧ SymbolsScalar e ∧ TableSound e ∧ TreeSound e ∧ CodesSound e ∧ FlagChain e ∧ PayloadSound e ∧
    RecordSound e

/-- R6, R35: a queue's length is bounded by its capacity. -/
abbrev WithinCapacities (cfg : Capacities) (e : Engine) : Prop :=
  fits cfg.symIn e.symIn.length = true ∧ fits cfg.byteIn e.byteIn.length = true ∧
    fits cfg.byteOut e.byteOut.length = true ∧ fits cfg.symOut e.symOut.length = true ∧
    fits cfg.bits e.bits.length = true

/-- A sound state of the machine. -/
abbrev Sound (s : State) : Prop := EngineSound s.eng ∧ WithinCapacities s.cfg s.eng

/-- The node reached from `k` by a bitstring, left on 0 and right on 1 (43_code_table.md R151, R158). -/
def followPath (node : List Node) : NodeIdx → Bits → Option NodeIdx
  | k, [] => some k
  | k, b :: rest =>
    match node[k.toNat]? with
    | some (.internal _ l r) => followPath node (if b then r else l) rest
    | _ => none

/-- Node `p` of the arena is internal with `j` for a child (R39). -/
def isParentOf (node : List Node) (p j : Nat) : Prop :=
  ∃ w l r, node[p]? = some (.internal w l r) ∧ (l.toNat = j ∨ r.toNat = j)

/-- `len` elements are within a capacity, which `unbounded` always is (00_scope.md R6). -/
def roomFor (cap : Capacity) (len : Nat) : Prop := ∀ c, cap = some c → len ≤ c.val

/-- `key(a) < key(b)` (42_tree_builder.md R132) in numbers: the lesser weight, or the same weight and the lower
index. -/
def keyLess (node : List Node) (a b : NodeIdx) : Prop :=
  (weightAt node a).toNat < (weightAt node b).toNat ∨
    ((weightAt node a).toNat = (weightAt node b).toNat ∧ a.toNat < b.toNat)

/-- A node without its symbol: what 42_tree_builder.md R137 calls the shape. -/
def withoutSym : Node → Node
  | .leaf _ w => .leaf 0 w
  | .internal w l r => .internal w l r

/-- A scalar value by its number (10_state.md R20). -/
def scalarValue (x : Sym) : Prop := x.toNat ≤ 0xD7FF ∨ (0xE000 ≤ x.toNat ∧ x.toNat ≤ 0x10FFFF)

/-- The rows of 30_encoding.md R95: match and mask. -/
def opcodeRows : List (Word × Word) :=
  [(0x00000000, 0xFFFFFFFF), (0x01000000, 0xFFFFFFFF), (0x02000000, 0xFFFFFFFF), (0x10000000, 0xFFE00000),
    (0x11000000, 0xFFFFFF00), (0x12000000, 0xFFFFFFFF), (0x13000000, 0xFFFFFFFF), (0x20000000, 0xFFFFFFFF),
    (0x21000000, 0xFFFFFFFF), (0x22000000, 0xFFFFFFFF), (0x23000000, 0xFFFFFFFF), (0x24000000, 0xFFFFFFFF),
    (0x25000000, 0xFFFFFFFF), (0x26000000, 0xFFFFFFFF), (0x27000000, 0xFFFFFFFF), (0x28000000, 0xFFFFFFFF),
    (0x30000000, 0xFFFFFFFF), (0x31000000, 0xFFFFFFFF)]

/-- The engine after a fault of this command word (60_exceptions.md R210): the state of before but for the four
fault registers. -/
def faulted (e : Engine) (code info : BitVec 8) (w : Word) : Engine :=
  { e with err := true, errcode := code, errinfo := info, errcmd := w }

/-- A frequency table as R38 asks: legal symbols, distinct, counts at least 1, at most 65 535 entries. -/
abbrev ValidTable (t : List FreqEntry) : Prop :=
  (∀ r ∈ t, isScalar r.sym = true ∧ r.count ≠ 0) ∧ (t.map FreqEntry.sym).Nodup ∧ t.length ≤ 65535

/-- The texts HCOUNT can count: at most 65 535 distinct symbols, none more often than 2^32 − 1 times
(41_frequency_counter.md R120). -/
def countable (text : List Sym) : Prop :=
  text.eraseDups.length ≤ 65535 ∧ ∀ x, text.count x ≤ 4294967295

/-- The histogram of a text: its distinct symbols in the order of their first occurrence, each with the number
of times it occurs (41_frequency_counter.md R121). -/
def isHistogram (text : List Sym) (t : List FreqEntry) : Prop :=
  t.map FreqEntry.sym = text.eraseDups ∧ ∀ r ∈ t, r.count.toNat = text.count r.sym

/-- The bytes are the entries of a table as the header lays them out (20_memory.md R67). -/
def isEntries (t : List FreqEntry) (h : List Byte) : Prop :=
  ∃ us : List (List Byte), t.map (fun r => utf8 r.sym) = us.map some ∧
    h = (List.zipWith (fun r u => BitVec.ofNat 8 u.length :: (u ++ be32 r.count)) t us).flatten

/-- The bytes are the header of a table (20_memory.md R67). -/
def isHeader (t : List FreqEntry) (h : List Byte) : Prop :=
  ∃ entries, isEntries t entries ∧ h = be16 (BitVec.ofNat 16 t.length) ++ entries

/-- The arena of a table has the shape of 10_state.md R48. -/
def treeShape (t : List FreqEntry) (node : List Node) : Prop :=
  node.length = 2 * t.length - 1 ∧
    (∀ (i : Nat) (r : FreqEntry), t[i]? = some r → node[i]? = some (.leaf r.sym (r.count.setWidth 48))) ∧
    (∀ k : Nat, t.length ≤ k → k < 2 * t.length - 1 → ∃ w l r, node[k]? = some (.internal w l r) ∧
      l.toNat < k ∧ r.toNat < k ∧ l ≠ r ∧ w.toNat = (weightAt node l).toNat + (weightAt node r).toNat) ∧
    (∀ j : Nat, j < 2 * t.length - 2 → ∃ p, isParentOf node p j ∧ ∀ q, isParentOf node q j → q = p) ∧
    ∀ p, ¬ isParentOf node p (2 * t.length - 2)

/-- The bytes are the payload section of a bitstring: seen as one bitstring, the count byte, the payload and that
many zero filler bits (20_memory.md R68). -/
def isPayloadSection (bits : Bits) (y : List Byte) : Prop :=
  bitsOfBytes y = byteBits (BitVec.ofNat 8 (8 - bits.length % 8)) ++ bits ++
    List.replicate (8 - bits.length % 8) false

/-- A binary tree whose leaves are named by table index: any, not only one TBUILD makes. -/
inductive HTree where
  | leaf (i : Nat)
  | fork (l r : HTree)
deriving DecidableEq, Repr

/-- The leaves of a tree, left to right. -/
def HTree.leaves : HTree → List Nat
  | .leaf i => [i]
  | .fork l r => l.leaves ++ r.leaves

/-- The leaves with their depths. -/
def HTree.depths : HTree → List (Nat × Nat)
  | .leaf i => [(i, 0)]
  | .fork l r => (l.depths ++ r.depths).map (fun p => (p.1, p.2 + 1))

/-- `FT[i].count`, 0 off the table. -/
def countAt (t : List FreqEntry) (i : Nat) : Nat :=
  match t[i]? with
  | some r => r.count.toNat
  | none => 0

/-- `sum over leaves i of FT[i].count × depth(i)` (42_tree_builder.md R138). -/
def HTree.cost (t : List FreqEntry) (tree : HTree) : Nat := (tree.depths.map (fun p => countAt t p.1 * p.2)).sum

/-- What greedy matching makes of a bitstring (46_codec_sequencer.md R186, R189): it is cut into pieces, each
the first bits so far that are a code, and into bits left over in which no code is met. -/
def greedySplit (ct : List CodeEntry) (bits : Bits) (out : List Sym) (left : Bits) : Prop :=
  ∃ pieces : List Bits, bits = pieces.flatten ++ left ∧ pieces.map (dec ct) = out.map some ∧
    (∀ p ∈ pieces, p ≠ [] ∧ ∀ q, q <+: p → q ≠ [] → q ≠ p → dec ct q = none) ∧
    ∀ q, q <+: left → q ≠ [] → dec ct q = none

/-- The bits DECODE leaves over of an engine's BITS: with one symbol it reads none (46_codec_sequencer.md R187),
else what greedy matching leaves (R189). -/
def bitsLeft (e : Engine) (left : Bits) : Prop :=
  (e.n = 1 → left = e.bits) ∧ (e.n ≠ 1 → ∃ out, greedySplit e.ct e.bits out left)

/-- Commands run one after another by their meanings. -/
def runAll : List Instr → State → Host.Outcome State Fault Refusal
  | [], s => .next s
  | i :: rest, s =>
    match exec i s with
    | .next t => runAll rest t
    | .fault f => .fault f
    | .refused r => .refused r

/-- Every piece of state at the value of 10_state.md R49. -/
def atReset (e : Engine) : Prop :=
  e.n = 0 ∧ e.nn = 0 ∧ e.root = 0 ∧ e.rootv = false ∧ e.pad = 0 ∧ e.rdata = 0 ∧
    e.err = false ∧ e.ftv = false ∧ e.treev = false ∧ e.ctv = false ∧ e.bitsv = false ∧ e.res = false ∧
    e.errcode = 0 ∧ e.errinfo = 0 ∧ e.errcmd = 0 ∧ e.ft = [] ∧ e.node = [] ∧ e.ct = [] ∧ e.pq = [] ∧
    e.symIn = [] ∧ e.byteIn = [] ∧ e.byteOut = [] ∧ e.symOut = [] ∧ e.bits = []

/-- STATUS in numbers: the place of each flag (10_state.md R27). -/
def statusValue (e : Engine) : Nat :=
  e.err.toNat + 2 * e.ftv.toNat + 4 * e.treev.toNat + 8 * e.ctv.toNat + 16 * e.bitsv.toNat + 32 * e.res.toNat

end Sys2Proof.Machine
end

