-- ==== Sys2Proof/Certificates/Slice0/Obligations.lean ====
section
/-! DEFINITION. The statements for the provers. The terms they use beyond the model's own are in Safety.lean. -/

open Sys2Proof Sys2Proof.Machine

/-! Encoding -/

/-- 30_encoding.md R94, R95, R97: a word decodes to a command exactly when it is that command's encoding, for every
command and every operand. -/
def Obligations.DecodeInvertsEncode : Prop :=
  ∀ (i : Instr) (w : Word), decode w = .command i ↔ w = encode i

/-- 30_encoding.md R95, R97: a word is a command exactly when it meets that row's mask and match, its operand is the
row's field, and it is illegal exactly when it meets no row. -/
def Obligations.DecoderFollowsTheTable : Prop :=
  ∀ w : Word,
    (decode w = .command .nop ↔ w &&& 0xFFFFFFFF = 0x00000000) ∧
    (decode w = .command .reset ↔ w &&& 0xFFFFFFFF = 0x01000000) ∧
    (decode w = .command .clrerr ↔ w &&& 0xFFFFFFFF = 0x02000000) ∧
    (∀ sym, decode w = .command (.pushs sym) ↔ w &&& 0xFFE00000 = 0x10000000 ∧ sym = w.extractLsb' 0 21) ∧
    (∀ byte, decode w = .command (.pushb byte) ↔ w &&& 0xFFFFFF00 = 0x11000000 ∧ byte = w.extractLsb' 0 8) ∧
    (decode w = .command .popb ↔ w &&& 0xFFFFFFFF = 0x12000000) ∧
    (decode w = .command .pops ↔ w &&& 0xFFFFFFFF = 0x13000000) ∧
    (decode w = .command .hcount ↔ w &&& 0xFFFFFFFF = 0x20000000) ∧
    (decode w = .command .tbuild ↔ w &&& 0xFFFFFFFF = 0x21000000) ∧
    (decode w = .command .cwalk ↔ w &&& 0xFFFFFFFF = 0x22000000) ∧
    (decode w = .command .encode ↔ w &&& 0xFFFFFFFF = 0x23000000) ∧
    (decode w = .command .pack ↔ w &&& 0xFFFFFFFF = 0x24000000) ∧
    (decode w = .command .unpack ↔ w &&& 0xFFFFFFFF = 0x25000000) ∧
    (decode w = .command .decode ↔ w &&& 0xFFFFFFFF = 0x26000000) ∧
    (decode w = .command .hwrite ↔ w &&& 0xFFFFFFFF = 0x27000000) ∧
    (decode w = .command .hread ↔ w &&& 0xFFFFFFFF = 0x28000000) ∧
    (decode w = .command .compress ↔ w &&& 0xFFFFFFFF = 0x30000000) ∧
    (decode w = .command .decompress ↔ w &&& 0xFFFFFFFF = 0x31000000) ∧
    ((∃ why, decode w = .illegal why) ↔ ∀ r ∈ opcodeRows, w &&& r.2 ≠ r.1)

/-- 30_encoding.md R95, R97, R99: words written out from the table and the listings. That an illegal word has one of
two names is the model's choice (log entry 9): R97 has the one answer illegal. -/
def Obligations.SampleWordsDecode : Prop :=
  decode 0x00000000 = .command .nop ∧ decode 0x02000000 = .command .clrerr ∧
    decode 0x10000061 = .command (.pushs 0x61) ∧ decode 0x1100001F = .command (.pushb 0x1F) ∧
    decode 0x12000000 = .command .popb ∧ decode 0x20000000 = .command .hcount ∧
    decode 0x21000000 = .command .tbuild ∧ decode 0x22000000 = .command .cwalk ∧
    decode 0x24000000 = .command .pack ∧ decode 0x28000000 = .command .hread ∧
    decode 0x30000000 = .command .compress ∧ decode 0x31000000 = .command .decompress ∧
    decode 0x03000000 = .illegal .unassignedOpcode ∧ decode 0x00000001 = .illegal .reservedBits

/-! The step -/

/-- 10_state.md R32, 60_exceptions.md R210: when the host's next access writes a command's word to CMD, the step is
that command's meaning, with the access taken from the list; `withFetchWord` puts exactly such an access first.
The list is the model's (log entry 2). -/
def Obligations.StepRunsTheDecodedCommand : Prop :=
  (∀ (s : State) (w : Word) (rest : List HostAccess) (i : Instr), s.pending = .regWrite 0 w :: rest →
    decode w = .command i → step s = exec i { s with pending := rest }) ∧
  ∀ (s : State) (i : Instr), step (s.withFetchWord 32 (encode i).toNat) = exec i s

/-- 60_exceptions.md R215: with no fault held, a word that meets no row of the opcode table raises ERR_ILLEGAL with
ERRINFO 0 and ERRCMD the word. -/
def Obligations.IllegalWordFaults : Prop :=
  ∀ (s : State) (w : Word) (rest : List HostAccess), s.pending = .regWrite 0 w :: rest → s.eng.err = false →
    (∀ r ∈ opcodeRows, w &&& r.2 ≠ r.1) →
    step s = .next { s with eng := faulted s.eng 3 0 w, pending := rest }

/-- 60_exceptions.md R223: while a fault is held only the words NOP, RESET and CLRERR are executed, every other word
written to CMD changes nothing, and register reads work. -/
def Obligations.HeldFaultIgnoresCommands : Prop :=
  ∀ (s : State) (rest : List HostAccess), s.eng.err = true →
    (∀ w : Word, s.pending = .regWrite 0 w :: rest → w ≠ 0x00000000 → w ≠ 0x01000000 → w ≠ 0x02000000 →
      step s = .next { s with pending := rest }) ∧
    (s.pending = .regWrite 0 0x00000000 :: rest → step s = .next { s with pending := rest }) ∧
    (s.pending = .regWrite 0 0x01000000 :: rest →
      ∃ e, atReset e ∧ step s = .next { s with eng := e, pending := rest }) ∧
    (s.pending = .regWrite 0 0x02000000 :: rest →
      step s = .next { s with
        eng := { s.eng with err := false, errcode := 0, errinfo := 0, errcmd := 0 }
        pending := rest }) ∧
    ∀ idx, s.pending = .regRead idx :: rest →
      step s = .next { s with pending := rest, answers := s.answers ++ [regRead idx s.eng] }

/-- 10_state.md R33: a read of a register delivers its value zero-extended to 64 bits and changes nothing of the
engine, and right after reset every register reads 0; where a length does not fit 64 bits the value is free
(log entry 5). -/
def Obligations.RegisterReadsFollowTheMap : Prop :=
  (∀ (s : State) (idx : BitVec 4) (rest : List HostAccess), s.pending = .regRead idx :: rest →
    ∃ v : BitVec 64, step s = .next { s with pending := rest, answers := s.answers ++ [v] } ∧
      (idx = 0x0 → v = 0) ∧
      (idx = 0x1 → v.toNat = statusValue s.eng) ∧
      (idx = 0x2 → v.toNat = s.eng.errcode.toNat) ∧
      (idx = 0x3 → v.toNat = s.eng.errinfo.toNat) ∧
      (idx = 0x4 → v.toNat = s.eng.errcmd.toNat) ∧
      (idx = 0x5 → v.toNat = s.eng.rdata.toNat) ∧
      (idx = 0x6 → v.toNat = s.eng.n.toNat) ∧
      (idx = 0x7 → v.toNat = s.eng.nn.toNat) ∧
      (idx = 0x8 → v.toNat = 131072 * s.eng.rootv.toNat + s.eng.root.toNat) ∧
      (idx = 0x9 → v.toNat = s.eng.pad.toNat) ∧
      (idx = 0xA → s.eng.symIn.length < 2 ^ 64 → v.toNat = s.eng.symIn.length) ∧
      (idx = 0xB → s.eng.byteIn.length < 2 ^ 64 → v.toNat = s.eng.byteIn.length) ∧
      (idx = 0xC → s.eng.byteOut.length < 2 ^ 64 → v.toNat = s.eng.byteOut.length) ∧
      (idx = 0xD → s.eng.symOut.length < 2 ^ 64 → v.toNat = s.eng.symOut.length) ∧
      (idx = 0xE → s.eng.bits.length < 2 ^ 64 → v.toNat = s.eng.bits.length) ∧
      (idx = 0xF → v = 0)) ∧
  ∀ idx, regRead idx State.reset.eng = 0

/-- 10_state.md R34: a write to an index other than 0 changes nothing and raises nothing, and reads of CMD and of
index 0xF deliver 0. -/
def Obligations.AccessesOffTheMapDoNothing : Prop :=
  ∀ (s : State) (rest : List HostAccess),
    (∀ idx v, s.pending = .regWrite idx v :: rest → idx ≠ 0 → step s = .next { s with pending := rest }) ∧
    ∀ idx, s.pending = .regRead idx :: rest → idx = 0 ∨ idx = 0xF →
      step s = .next { s with pending := rest, answers := s.answers ++ [0] }

/-- The model's choice (log entry 2), after 60_exceptions.md R232: with no access pending a step changes nothing. -/
def Obligations.IdleStepChangesNothing : Prop :=
  ∀ s : State, s.pending = [] → step s = .next s

/-! Reset, NOP and the fault record -/

/-- 10_state.md R49, 47_system.md R200, 70_reset_and_hazards.md R240: RESET, executed whether a fault is held or not,
a hardware reset and the machine's reset state all put every piece of the engine's state at its reset value, and
every register then reads 0. -/
def Obligations.ResetGivesResetValues : Prop :=
  (∀ s : State, ∃ e, atReset e ∧ exec .reset s = .next { s with eng := e }) ∧
  (∀ (s : State) (rest : List HostAccess), s.pending = .hardReset :: rest →
    ∃ e, atReset e ∧ step s = .next { s with eng := e, pending := rest }) ∧
  atReset State.reset.eng ∧ ∀ (e : Engine) (idx : BitVec 4), atReset e → regRead idx e = 0

/-- 40_host_data.md R110: NOP changes nothing, whether a fault is held or not. -/
def Obligations.NopChangesNothing : Prop :=
  ∀ s : State, exec .nop s = .next s

/-- 47_system.md R201: CLRERR clears the fault record and nothing else, whether a fault is held or not. -/
def Obligations.ClrerrClearsTheFaultRecord : Prop :=
  ∀ s : State, exec .clrerr s =
    .next { s with eng := { s.eng with err := false, errcode := 0, errinfo := 0, errcmd := 0 } }

/-- 70_reset_and_hazards.md R241: what each command does right after reset, whatever the capacities; COMPRESS where
BYTE_OUT has room for its four bytes (00_scope.md R6). -/
def Obligations.AfterResetCommandsRun : Prop :=
  ∀ s : State, atReset s.eng →
    (∀ p ∈ [(Instr.tbuild, (0x21000000 : Word)), (.cwalk, 0x22000000), (.encode, 0x23000000), (.pack, 0x24000000),
        (.decode, 0x26000000), (.hwrite, 0x27000000)],
      exec p.1 s = .next { s with eng := faulted s.eng 4 0 p.2 }) ∧
    exec .hcount s = .next { s with eng := { s.eng with ftv := true } } ∧
    (roomFor s.cfg.byteOut 4 →
      ∃ t, exec .compress s = .next t ∧ t.eng.byteOut = [0x00, 0x00, 0x08, 0x00] ∧ t.eng.err = false) ∧
    exec .popb s = .next { s with eng := faulted s.eng 7 0 0x12000000 } ∧
    exec .pops s = .next { s with eng := faulted s.eng 7 0 0x13000000 } ∧
    exec .hread s = .next { s with eng := faulted s.eng 1 1 0x28000000 } ∧
    exec .unpack s = .next { s with eng := faulted s.eng 1 6 0x25000000 } ∧
    exec .decompress s = .next { s with eng := faulted s.eng 1 1 0x31000000 }

/-! Host data -/

/-- 40_host_data.md R111: PUSHS appends a scalar value to SYM_IN, faults with ERR_SYMBOL(0) on any other value, and
with ERR_CAPACITY(4) when the queue is full, the symbol being checked first. -/
def Obligations.PushsAppendsOrFaults : Prop :=
  ∀ (s : State) (sym : Sym), s.eng.err = false →
    (scalarValue sym → roomFor s.cfg.symIn (s.eng.symIn.length + 1) →
      exec (.pushs sym) s = .next { s with eng := { s.eng with symIn := s.eng.symIn ++ [sym] } }) ∧
    (¬ scalarValue sym →
      exec (.pushs sym) s = .next { s with eng := faulted s.eng 5 0 (0x10000000 ||| sym.setWidth 32) }) ∧
    (scalarValue sym → ¬ roomFor s.cfg.symIn (s.eng.symIn.length + 1) →
      exec (.pushs sym) s = .next { s with eng := faulted s.eng 2 4 (0x10000000 ||| sym.setWidth 32) })

/-- 40_host_data.md R112: PUSHB appends any byte to BYTE_IN, and faults with ERR_CAPACITY(4) when the queue is full. -/
def Obligations.PushbAppendsOrFaults : Prop :=
  ∀ (s : State) (byte : Byte), s.eng.err = false →
    (roomFor s.cfg.byteIn (s.eng.byteIn.length + 1) →
      exec (.pushb byte) s = .next { s with eng := { s.eng with byteIn := s.eng.byteIn ++ [byte] } }) ∧
    (¬ roomFor s.cfg.byteIn (s.eng.byteIn.length + 1) →
      exec (.pushb byte) s = .next { s with eng := faulted s.eng 2 4 (0x11000000 ||| byte.setWidth 32) })

/-- 40_host_data.md R113: POPB moves the oldest byte of BYTE_OUT into RDATA, zero-extended, and faults with
ERR_EMPTY(0) on the empty queue. -/
def Obligations.PopbDeliversTheOldestByte : Prop :=
  ∀ s : State, s.eng.err = false →
    (∀ b rest, s.eng.byteOut = b :: rest →
      exec .popb s = .next { s with eng := { s.eng with byteOut := rest, rdata := b.setWidth 32 } }) ∧
    (s.eng.byteOut = [] → exec .popb s = .next { s with eng := faulted s.eng 7 0 0x12000000 })

/-- 40_host_data.md R114: POPS moves the oldest symbol of SYM_OUT into RDATA, zero-extended, and faults with
ERR_EMPTY(0) on the empty queue. -/
def Obligations.PopsDeliversTheOldestSymbol : Prop :=
  ∀ s : State, s.eng.err = false →
    (∀ x rest, s.eng.symOut = x :: rest →
      exec .pops s = .next { s with eng := { s.eng with symOut := rest, rdata := x.setWidth 32 } }) ∧
    (s.eng.symOut = [] → exec .pops s = .next { s with eng := faulted s.eng 7 0 0x13000000 })

/-! The histogram counter -/

/-- 41_frequency_counter.md R121, R122, R123: HCOUNT leaves in FT the histogram of SYM_IN, clears the tree and the
code table, and changes nothing else. -/
def Obligations.HcountMakesTheHistogram : Prop :=
  ∀ s : State, s.eng.err = false → countable s.eng.symIn →
    ∃ t : List FreqEntry, isHistogram s.eng.symIn t ∧ t.length ≤ 65535 ∧
      exec .hcount s = .next { s with
        eng := { s.eng with
          ft := t, n := BitVec.ofNat 16 t.length, ftv := true
          node := [], nn := 0, root := 0, rootv := false, pq := [], treev := false
          ct := [], ctv := false } }

/-- 41_frequency_counter.md R120: after a part of the text that could be counted, a 65 536th distinct symbol raises
ERR_CAPACITY(1) and a 2^32nd occurrence of a symbol ERR_CAPACITY(3). -/
def Obligations.HcountFaultsAtTheLimits : Prop :=
  ∀ (s : State) (text : List Sym) (x : Sym) (rest : List Sym), s.eng.err = false →
    s.eng.symIn = text ++ x :: rest → countable text →
    (x ∉ text → text.eraseDups.length = 65535 →
      exec .hcount s = .next { s with eng := faulted s.eng 2 1 0x20000000 }) ∧
    (text.count x = 4294967295 → exec .hcount s = .next { s with eng := faulted s.eng 2 3 0x20000000 })

/-! The tree builder -/

/-- 42_tree_builder.md R131, R132: on the set PQ, insert adds one member, and extract_min removes and returns the
member of the least key, which no other member's key equals. That a set is the ascending list of its members, which
both keep, is the model's representation (log entry 7); 10_state.md R41 leaves it free. -/
def Obligations.PriorityQueueOperations : Prop :=
  ∀ (node : List Node) (q : List NodeIdx), q.Pairwise (fun a b => a < b) →
    (∀ k, (pqInsert k q).Pairwise (fun a b => a < b) ∧ ∀ j, j ∈ pqInsert k q ↔ j = k ∨ j ∈ q) ∧
    (q ≠ [] → ∃ k q', pqExtractMin node q = some (k, q') ∧ k ∈ q ∧ (∀ j ∈ q, j ≠ k → keyLess node k j) ∧
      q'.Pairwise (fun a b => a < b) ∧ ∀ j, j ∈ q' ↔ j ∈ q ∧ j ≠ k)

/-- 10_state.md R24, R48, 42_tree_builder.md R134, R135, R136: TBUILD builds the arena of FT, with the root and the
queue those rules give, clears the code table, and changes nothing else. N is |FT| by 10_state.md R22. -/
def Obligations.TbuildBuildsTheTree : Prop :=
  ∀ s : State, s.eng.err = false → s.eng.ftv = true → s.eng.n.toNat = s.eng.ft.length →
    ∃ (node : List Node) (nn : BitVec 17) (root : NodeIdx) (rootv : Bool) (pq : List NodeIdx),
      exec .tbuild s = .next { s with
        eng := { s.eng with
          node := node, nn := nn, root := root, rootv := rootv, pq := pq, treev := true
          ct := [], ctv := false } } ∧
      nn.toNat = node.length ∧ treeShape s.eng.ft node ∧
      (s.eng.ft = [] → node = [] ∧ root = 0 ∧ rootv = false ∧ pq = []) ∧
      (∀ r, s.eng.ft = [r] → node = [.leaf r.sym (r.count.setWidth 48)] ∧ root = 0) ∧
      (s.eng.ft ≠ [] → root.toNat = 2 * s.eng.ft.length - 2 ∧ rootv = true ∧ pq = [root] ∧
        (weightAt node root).toNat = (s.eng.ft.map (fun r => r.count.toNat)).sum)

/-- 42_tree_builder.md R130, R132, R133: every internal node has for its left child the node of the least key among
those then without a parent, and for its right child the node of the least key among the others. -/
def Obligations.TbuildMergesTheLeastKeys : Prop :=
  ∀ s t : State, s.eng.err = false → s.eng.ftv = true → s.eng.n.toNat = s.eng.ft.length →
    exec .tbuild s = .next t →
    ∀ (k : Nat) (w : Weight) (l r : NodeIdx), t.eng.node[k]? = some (.internal w l r) →
      keyLess t.eng.node l r ∧
      ∀ j : NodeIdx, j.toNat < k → j ≠ l → j ≠ r → (∀ p, isParentOf t.eng.node p j.toNat → k ≤ p) →
        keyLess t.eng.node r j

/-- 42_tree_builder.md R142: internal nodes are made in order of non-decreasing weight. -/
def Obligations.InternalWeightsNeverFall : Prop :=
  ∀ s t : State, s.eng.err = false → s.eng.ftv = true → s.eng.n.toNat = s.eng.ft.length →
    exec .tbuild s = .next t →
    ∀ (j k : Nat) (w w' : Weight) (l r l' r' : NodeIdx), j < k → t.eng.node[j]? = some (.internal w l r) →
      t.eng.node[k]? = some (.internal w' l' r') → w.toNat ≤ w'.toNat

/-- 42_tree_builder.md R137: the tree depends on FT alone, and its shape on the counts alone. -/
def Obligations.TreeDependsOnTheTableAlone : Prop :=
  ∀ s s' : State, s.eng.err = false → s'.eng.err = false → s.eng.ftv = true → s'.eng.ftv = true →
    s.eng.n.toNat = s.eng.ft.length → s'.eng.n.toNat = s'.eng.ft.length →
    s.eng.ft.map FreqEntry.count = s'.eng.ft.map FreqEntry.count →
    ∃ t t', exec .tbuild s = .next t ∧ exec .tbuild s' = .next t' ∧
      t.eng.node.map withoutSym = t'.eng.node.map withoutSym ∧
      (s.eng.ft = s'.eng.ft → SameTree t.eng t'.eng)

/-! The code table -/

/-- 43_code_table.md R150, R151, R156, R157: CWALK binds every symbol of FT to the path from the root to its leaf,
changes nothing else, and faults with ERR_SEQ(0) where there is no tree. -/
def Obligations.CwalkBindsThePaths : Prop :=
  ∀ s : State, EngineSound s.eng → s.eng.err = false →
    (s.eng.treev = true → ∃ ct : List CodeEntry,
      exec .cwalk s = .next { s with eng := { s.eng with ct := ct, ctv := true } } ∧
      ct.length = s.eng.ft.length ∧ (∀ r, s.eng.ft = [r] → ct = [⟨r.sym, []⟩]) ∧
      ∀ (i : Nat) (r : FreqEntry), s.eng.ft[i]? = some r → ∃ c : Bits, ct[i]? = some ⟨r.sym, c⟩ ∧
        followPath s.eng.node s.eng.root c = some (BitVec.ofNat 17 i)) ∧
    (s.eng.treev = false → exec .cwalk s = .next { s with eng := faulted s.eng 4 0 0x22000000 })

/-- 43_code_table.md R154: with two or more symbols no code is a prefix of another's and none is empty. -/
def Obligations.CodesArePrefixFree : Prop :=
  ∀ e : Engine, EngineSound e → e.ctv = true → 2 ≤ e.n.toNat →
    ∀ (i j : Nat) (a b : CodeEntry), e.ct[i]? = some a → e.ct[j]? = some b → a.code ≠ [] ∧
      (i ≠ j → ¬ a.code <+: b.code)

/-- 43_code_table.md R155: with two or more symbols a code has 1 to N − 1 bits. -/
def Obligations.CodeLengthsAreBounded : Prop :=
  ∀ e : Engine, EngineSound e → e.ctv = true → 2 ≤ e.n.toNat →
    ∀ c ∈ e.ct, 1 ≤ c.code.length ∧ c.code.length ≤ e.n.toNat - 1

/-- 43_code_table.md R158: with two or more symbols every infinite bit sequence begins with exactly one code. -/
def Obligations.EveryBitSequenceBeginsWithOneCode : Prop :=
  ∀ e : Engine, EngineSound e → e.ctv = true → 2 ≤ e.n.toNat →
    ∀ bit : Nat → Bool, ∃ c ∈ e.ct, (∀ i, i < c.code.length → c.code[i]? = some (bit i)) ∧
      ∀ d ∈ e.ct, (∀ i, i < d.code.length → d.code[i]? = some (bit i)) → d.code = c.code

/-- 42_tree_builder.md R138: of all binary trees with the table's leaves, the one whose codes CT holds has a least sum
of count times depth; the depth of a leaf is the length of its code (43_code_table.md R151). -/
def Obligations.TreeIsOptimal : Prop :=
  ∀ e : Engine, EngineSound e → e.ctv = true →
    ∀ tree : HTree, tree.leaves.Perm (List.range e.ft.length) →
      (List.zipWith (fun r c => r.count.toNat * c.code.length) e.ft e.ct).sum ≤ tree.cost e.ft

/-- 43_code_table.md R153: the lookups answer the one entry with that symbol or that code, `none` where there is
none, and `dec(enc(s)) = s`. -/
def Obligations.LookupsAreInverse : Prop :=
  ∀ e : Engine, EngineSound e → e.ctv = true →
    (∀ c ∈ e.ct, enc e.ct c.sym = some c.code ∧ dec e.ct c.code = some c.sym) ∧
    (∀ x, (∀ c ∈ e.ct, c.sym ≠ x) → enc e.ct x = none) ∧
    ∀ b, (∀ c ∈ e.ct, c.code ≠ b) → dec e.ct b = none

/-! Encoder and decoder -/

/-- 46_codec_sequencer.md R185: ENCODE replaces BITS by the codes of SYM_IN in order; it faults with ERR_SEQ(0)
without a code table, ERR_NOCODE(0) at a symbol without a code, ERR_CAPACITY(4) where BITS cannot hold them. -/
def Obligations.EncodeConcatenatesTheCodes : Prop :=
  ∀ s : State, s.eng.err = false →
    (∀ codes : List Bits, s.eng.ctv = true → s.eng.symIn.map (enc s.eng.ct) = codes.map some →
      (roomFor s.cfg.bits codes.flatten.length →
        exec .encode s = .next { s with eng := { s.eng with bits := codes.flatten, bitsv := true } }) ∧
      (¬ roomFor s.cfg.bits codes.flatten.length →
        exec .encode s = .next { s with eng := faulted s.eng 2 4 0x23000000 })) ∧
    (∀ x ∈ s.eng.symIn, s.eng.ctv = true → enc s.eng.ct x = none →
      exec .encode s = .next { s with eng := faulted s.eng 6 0 0x23000000 }) ∧
    (s.eng.ctv = false → exec .encode s = .next { s with eng := faulted s.eng 4 0 0x23000000 })

/-- 46_codec_sequencer.md R186, R189: for N other than 1, DECODE appends to SYM_OUT the symbols that greedy matching
makes of BITS, and sets RES exactly when bits are left over. -/
def Obligations.DecodeMatchesGreedily : Prop :=
  ∀ s : State, s.eng.err = false → s.eng.ctv = true → s.eng.bitsv = true → s.eng.n ≠ 1 →
    ∃ (out : List Sym) (left : Bits), greedySplit s.eng.ct s.eng.bits out left ∧
      (roomFor s.cfg.symOut (s.eng.symOut.length + out.length) →
        exec .decode s = .next { s with
          eng := { s.eng with symOut := s.eng.symOut ++ out, res := !left.isEmpty } }) ∧
      (¬ roomFor s.cfg.symOut (s.eng.symOut.length + out.length) →
        exec .decode s = .next { s with eng := faulted s.eng 2 4 0x26000000 })

/-- 46_codec_sequencer.md R187: with one symbol, DECODE appends it as often as FT counts it and reads no bit; any bits
of BITS are left over. -/
def Obligations.DecodeRepeatsTheOneSymbol : Prop :=
  ∀ (s : State) (r : FreqEntry), s.eng.err = false → s.eng.ctv = true → s.eng.bitsv = true → s.eng.n = 1 →
    s.eng.ft = [r] →
    (roomFor s.cfg.symOut (s.eng.symOut.length + r.count.toNat) →
      exec .decode s = .next { s with
        eng := { s.eng with
          symOut := s.eng.symOut ++ List.replicate r.count.toNat r.sym, res := !s.eng.bits.isEmpty } }) ∧
    (¬ roomFor s.cfg.symOut (s.eng.symOut.length + r.count.toNat) →
      exec .decode s = .next { s with eng := faulted s.eng 2 4 0x26000000 })

/-- 46_codec_sequencer.md R188: with no symbol, DECODE emits nothing and any bits of BITS are left over. -/
def Obligations.DecodeOfNoSymbolEmitsNothing : Prop :=
  ∀ s : State, Sound s → s.eng.err = false → s.eng.ctv = true → s.eng.bitsv = true → s.eng.n = 0 →
    exec .decode s = .next { s with eng := { s.eng with res := !s.eng.bits.isEmpty } }

/-- 46_codec_sequencer.md R194: with two or more symbols, when BITS is the codes of some symbols one after another,
DECODE emits exactly those symbols and no bit is left over. -/
def Obligations.DecodeInvertsTheCodes : Prop :=
  ∀ (s : State) (text : List Sym) (codes : List Bits), EngineSound s.eng → s.eng.err = false → s.eng.ctv = true →
    s.eng.bitsv = true → 2 ≤ s.eng.n.toNat → text.map (enc s.eng.ct) = codes.map some →
    s.eng.bits = codes.flatten → roomFor s.cfg.symOut (s.eng.symOut.length + text.length) →
    exec .decode s = .next { s with eng := { s.eng with symOut := s.eng.symOut ++ text, res := false } }

/-! The packer -/

/-- 44_bit_packer.md R160: PACK appends to BYTE_OUT the payload section of BITS, 2 + |BITS| / 8 bytes, and records the
padding count; it faults with ERR_SEQ(0) without valid BITS and ERR_CAPACITY(4) where BYTE_OUT cannot take it. -/
def Obligations.PackAppendsThePayloadSection : Prop :=
  ∀ s : State, s.eng.err = false →
    (s.eng.bitsv = true →
      ∃ y, isPayloadSection s.eng.bits y ∧ y.length = 2 + s.eng.bits.length / 8 ∧
        (roomFor s.cfg.byteOut (s.eng.byteOut.length + y.length) →
          exec .pack s = .next { s with
            eng := { s.eng with
              byteOut := s.eng.byteOut ++ y, pad := BitVec.ofNat 4 (8 - s.eng.bits.length % 8) } }) ∧
        (¬ roomFor s.cfg.byteOut (s.eng.byteOut.length + y.length) →
          exec .pack s = .next { s with eng := faulted s.eng 2 4 0x24000000 })) ∧
    (s.eng.bitsv = false → exec .pack s = .next { s with eng := faulted s.eng 4 0 0x24000000 })

/-- 44_bit_packer.md R161: UNPACK, its tests in the order the rule gives. -/
def Obligations.UnpackStripsThePadding : Prop :=
  ∀ s : State, s.eng.err = false →
    (s.eng.byteIn = [] → exec .unpack s = .next { s with eng := faulted s.eng 1 6 0x25000000 }) ∧
    ∀ (p : Byte) (rest : List Byte), s.eng.byteIn = p :: rest →
      (p.toNat < 1 ∨ 8 < p.toNat → exec .unpack s = .next { s with eng := faulted s.eng 1 7 0x25000000 }) ∧
      (1 ≤ p.toNat → p.toNat ≤ 8 → rest = [] →
        exec .unpack s = .next { s with eng := faulted s.eng 1 6 0x25000000 }) ∧
      (1 ≤ p.toNat → p.toNat ≤ 8 → rest ≠ [] →
        (roomFor s.cfg.bits (8 * rest.length - p.toNat) →
          exec .unpack s = .next { s with
            eng := { s.eng with
              bits := (rest.flatMap byteBits).take (8 * rest.length - p.toNat), bitsv := true
              pad := p.setWidth 4, byteIn := [] } }) ∧
        (¬ roomFor s.cfg.bits (8 * rest.length - p.toNat) →
          exec .unpack s = .next { s with eng := faulted s.eng 2 4 0x25000000 }))

/-- 44_bit_packer.md R163: UNPACK of what PACK made gives the bits back and leaves the same PAD; PACK of what UNPACK
made gives the bytes back exactly when the filler bits were zeros. -/
def Obligations.UnpackInvertsPack : Prop :=
  (∀ (s t u : State) (y : List Byte), s.eng.err = false → exec .pack s = .next t → t.eng.err = false →
    t.eng.byteOut = s.eng.byteOut ++ y → u.eng.err = false → u.eng.byteIn = y →
    roomFor u.cfg.bits s.eng.bits.length →
    ∃ v, exec .unpack u = .next v ∧ v.eng.err = false ∧ v.eng.bits = s.eng.bits ∧ v.eng.pad = t.eng.pad) ∧
  ∀ (s t u v : State) (p : Byte) (rest : List Byte), s.eng.err = false → s.eng.byteIn = p :: rest →
    exec .unpack s = .next t → t.eng.err = false → u.eng.err = false → u.eng.bitsv = true →
    u.eng.bits = t.eng.bits → exec .pack u = .next v → v.eng.err = false →
    (v.eng.byteOut = u.eng.byteOut ++ p :: rest ↔
      (rest.flatMap byteBits).drop (8 * rest.length - p.toNat) = List.replicate p.toNat false)

/-! Data forms -/

/-- 20_memory.md R62, R63: the bits of a byte, most significant first, and big-endian integers. -/
def Obligations.BitsAndBytesAreBigEndian : Prop :=
  (∀ b : Byte, (byteBits b).length = 8 ∧ ∀ j, j < 8 → (byteBits b)[j]? = some (b.getLsbD (7 - j))) ∧
  (∀ s0 s1 s2 s3 s4 s5 s6 s7 : Bool,
    byteBits (bitsByte s0 s1 s2 s3 s4 s5 s6 s7) = [s0, s1, s2, s3, s4, s5, s6, s7]) ∧
  (∀ v : BitVec 16, be16 v = [BitVec.ofNat 8 (v.toNat / 256), BitVec.ofNat 8 (v.toNat % 256)]) ∧
  (∀ v : BitVec 32, be32 v = [BitVec.ofNat 8 (v.toNat / 16777216), BitVec.ofNat 8 (v.toNat / 65536 % 256),
    BitVec.ofNat 8 (v.toNat / 256 % 256), BitVec.ofNat 8 (v.toNat % 256)]) ∧
  (∀ y0 y1 : Byte, (fromBe16 y0 y1).toNat = y0.toNat * 256 + y1.toNat) ∧
  ∀ y0 y1 y2 y3 : Byte, (fromBe32 y0 y1 y2 y3).toNat =
    y0.toNat * 16777216 + y1.toNat * 65536 + y2.toNat * 256 + y3.toNat

/-- 20_memory.md R64: the four rows of UTF-8, and no encoding off the scalar values. -/
def Obligations.UtfEightFollowsItsRows : Prop :=
  ∀ s : Sym,
    (s.toNat ≤ 0x7F → utf8 s = some [BitVec.ofNat 8 s.toNat]) ∧
    (0x80 ≤ s.toNat → s.toNat ≤ 0x7FF →
      utf8 s = some [BitVec.ofNat 8 (0xC0 + s.toNat / 64), BitVec.ofNat 8 (0x80 + s.toNat % 64)]) ∧
    (0x800 ≤ s.toNat → s.toNat ≤ 0xFFFF → scalarValue s →
      utf8 s = some [BitVec.ofNat 8 (0xE0 + s.toNat / 4096), BitVec.ofNat 8 (0x80 + s.toNat / 64 % 64),
        BitVec.ofNat 8 (0x80 + s.toNat % 64)]) ∧
    (0x10000 ≤ s.toNat → s.toNat ≤ 0x10FFFF →
      utf8 s = some [BitVec.ofNat 8 (0xF0 + s.toNat / 262144), BitVec.ofNat 8 (0x80 + s.toNat / 4096 % 64),
        BitVec.ofNat 8 (0x80 + s.toNat / 64 % 64), BitVec.ofNat 8 (0x80 + s.toNat % 64)]) ∧
    (¬ scalarValue s → utf8 s = none)

/-- 20_memory.md R65: `utf8_one` answers the scalar value whose encoding the bytes are, and it alone. -/
def Obligations.UtfEightOneInvertsUtfEight : Prop :=
  ∀ (y : List Byte) (s : Sym), utf8One y = some s ↔ utf8 s = some y

/-! The header -/

/-- 45_header_codec.md R170: HWRITE appends the header of FT to BYTE_OUT and changes nothing else; it faults with
ERR_SEQ(0) without a table and ERR_CAPACITY(4) where BYTE_OUT cannot take all of it. The premises on FT are
10_state.md R20 and R22. -/
def Obligations.HwriteAppendsTheHeader : Prop :=
  ∀ s : State, s.eng.err = false → s.eng.n.toNat = s.eng.ft.length →
    (∀ r ∈ s.eng.ft, isScalar r.sym = true) →
    (s.eng.ftv = true →
      ∃ h, isHeader s.eng.ft h ∧
        (roomFor s.cfg.byteOut (s.eng.byteOut.length + h.length) →
          exec .hwrite s = .next { s with eng := { s.eng with byteOut := s.eng.byteOut ++ h } }) ∧
        (¬ roomFor s.cfg.byteOut (s.eng.byteOut.length + h.length) →
          exec .hwrite s = .next { s with eng := faulted s.eng 2 4 0x27000000 })) ∧
    (s.eng.ftv = false → exec .hwrite s = .next { s with eng := faulted s.eng 4 0 0x27000000 })

/-- 45_header_codec.md R171: HREAD takes the header of a table from the head of BYTE_IN and installs the table; else it
reports the first defect in stream order, here after the entries `t` that are good. -/
def Obligations.HreadParsesTheHeader : Prop :=
  ∀ s : State, s.eng.err = false →
    (∀ (t : List FreqEntry) (h tail : List Byte), ValidTable t → isHeader t h → s.eng.byteIn = h ++ tail →
      exec .hread s = .next { s with
        eng := { s.eng with
          ft := t, n := BitVec.ofNat 16 t.length, ftv := true
          node := [], nn := 0, root := 0, rootv := false, pq := [], treev := false
          ct := [], ctv := false, byteIn := tail } }) ∧
    (s.eng.byteIn.length < 2 → exec .hread s = .next { s with eng := faulted s.eng 1 1 0x28000000 }) ∧
    ∀ (n : BitVec 16) (t : List FreqEntry) (good y : List Byte), ValidTable t → t.length < n.toNat →
      isEntries t good → s.eng.byteIn = be16 n ++ good ++ y →
      (y = [] → exec .hread s = .next { s with eng := faulted s.eng 1 2 0x28000000 }) ∧
      ∀ (len : Byte) (z : List Byte), y = len :: z →
        (z.length < len.toNat → exec .hread s = .next { s with eng := faulted s.eng 1 2 0x28000000 }) ∧
        (len.toNat ≤ z.length → utf8One (z.take len.toNat) = none →
          exec .hread s = .next { s with eng := faulted s.eng 1 3 0x28000000 }) ∧
        ∀ x : Sym, len.toNat ≤ z.length → utf8One (z.take len.toNat) = some x →
          (x ∈ t.map FreqEntry.sym → exec .hread s = .next { s with eng := faulted s.eng 1 4 0x28000000 }) ∧
          (x ∉ t.map FreqEntry.sym → z.length - len.toNat < 4 →
            exec .hread s = .next { s with eng := faulted s.eng 1 2 0x28000000 }) ∧
          (x ∉ t.map FreqEntry.sym → (z.drop len.toNat).take 4 = [0x00, 0x00, 0x00, 0x00] →
            exec .hread s = .next { s with eng := faulted s.eng 1 5 0x28000000 })

/-- 45_header_codec.md R172: what HWRITE appended, moved into BYTE_IN, is read back by HREAD as the same sequence and
leaves BYTE_IN empty. -/
def Obligations.HreadInvertsHwrite : Prop :=
  ∀ (s t : State) (h : List Byte), Sound s → s.eng.err = false → s.eng.ftv = true → s.eng.byteIn = [] →
    exec .hwrite s = .next t → t.eng.err = false → t.eng.byteOut = s.eng.byteOut ++ h →
    ∃ u, exec .hread { t with eng := { t.eng with byteIn := h } } = .next u ∧ u.eng.err = false ∧
      u.eng.ft = s.eng.ft ∧ u.eng.n = s.eng.n ∧ u.eng.byteIn = []

/-- 45_header_codec.md R174: an HREAD that completes has consumed the header of a legal table, 2 + sum of (5 + L)
bytes, and leaves what follows. -/
def Obligations.HreadConsumesExactlyAHeader : Prop :=
  ∀ s t : State, s.eng.err = false → exec .hread s = .next t → t.eng.err = false →
    ∃ (h : List Byte) (us : List (List Byte)), ValidTable t.eng.ft ∧ isHeader t.eng.ft h ∧
      s.eng.byteIn = h ++ t.eng.byteIn ∧ t.eng.ft.map (fun r => utf8 r.sym) = us.map some ∧
      h.length = 2 + (us.map (fun u => 5 + u.length)).sum

/-! The macro commands -/

/-- 46_codec_sequencer.md R190: COMPRESS appends to BYTE_OUT the header of the histogram of SYM_IN and the payload
section of its codes, leaves the tables of that histogram, and faults with ERR_CAPACITY(4) where BYTE_OUT or BITS
cannot take them, and as HCOUNT does at a text it cannot count. That every symbol is a scalar value is 10_state.md
R20. -/
def Obligations.CompressMakesTheArtifact : Prop :=
  ∀ s : State, s.eng.err = false →
    (∀ code info, exec .hcount s = .next { s with eng := faulted s.eng code info 0x20000000 } →
      exec .compress s = .next { s with eng := faulted s.eng code info 0x30000000 }) ∧
    (countable s.eng.symIn → (∀ x ∈ s.eng.symIn, isScalar x = true) →
      ∃ (e : Engine) (h : List Byte) (codes : List Bits) (y : List Byte),
        isHistogram s.eng.symIn e.ft ∧ e.n.toNat = e.ft.length ∧ TreeSound e ∧ CodesSound e ∧
        isHeader e.ft h ∧ s.eng.symIn.map (enc e.ct) = codes.map some ∧ isPayloadSection codes.flatten y ∧
        e = { s.eng with
          ft := e.ft, n := e.n, ftv := true
          node := e.node, nn := e.nn, root := e.root, rootv := e.rootv, pq := e.pq, treev := true
          ct := e.ct, ctv := true, bits := codes.flatten, bitsv := true
          byteOut := s.eng.byteOut ++ h ++ y, pad := BitVec.ofNat 4 (8 - codes.flatten.length % 8) } ∧
        (roomFor s.cfg.bits codes.flatten.length → roomFor s.cfg.byteOut e.byteOut.length →
          exec .compress s = .next { s with eng := e }) ∧
        (¬ roomFor s.cfg.bits codes.flatten.length ∨ ¬ roomFor s.cfg.byteOut e.byteOut.length →
          exec .compress s = .next { s with eng := faulted s.eng 2 4 0x30000000 }))

/-- 46_codec_sequencer.md R191: DECOMPRESS of a header and a payload section leaves the table of the header, its tree
and codes, and appends the decoded symbols; it faults as its bodies do, the header's defects first. -/
def Obligations.DecompressRecoversTheText : Prop :=
  ∀ s : State, s.eng.err = false →
    (∀ code info, exec .hread s = .next { s with eng := faulted s.eng code info 0x28000000 } →
      exec .decompress s = .next { s with eng := faulted s.eng code info 0x31000000 }) ∧
    ∀ (t : List FreqEntry) (h tail : List Byte), ValidTable t → isHeader t h → s.eng.byteIn = h ++ tail →
      (tail = [] → exec .decompress s = .next { s with eng := faulted s.eng 1 6 0x31000000 }) ∧
      ∀ (p : Byte) (rest : List Byte), tail = p :: rest →
        (p.toNat < 1 ∨ 8 < p.toNat →
          exec .decompress s = .next { s with eng := faulted s.eng 1 7 0x31000000 }) ∧
        (1 ≤ p.toNat → p.toNat ≤ 8 → rest = [] →
          exec .decompress s = .next { s with eng := faulted s.eng 1 6 0x31000000 }) ∧
        (1 ≤ p.toNat → p.toNat ≤ 8 → rest ≠ [] →
          ∃ (e : Engine) (out : List Sym) (left : Bits),
            e.n.toNat = t.length ∧ TreeSound e ∧ CodesSound e ∧
            (∀ r, t = [r] → out = List.replicate r.count.toNat r.sym ∧ left = e.bits) ∧
            (t.length ≠ 1 → greedySplit e.ct e.bits out left) ∧
            e = { s.eng with
              ft := t, n := e.n, ftv := true
              node := e.node, nn := e.nn, root := e.root, rootv := e.rootv, pq := e.pq, treev := true
              ct := e.ct, ctv := true
              bits := (rest.flatMap byteBits).take (8 * rest.length - p.toNat), bitsv := true
              pad := p.setWidth 4, byteIn := [], symOut := s.eng.symOut ++ out, res := !left.isEmpty } ∧
            (roomFor s.cfg.bits e.bits.length → roomFor s.cfg.symOut e.symOut.length →
              exec .decompress s = .next { s with eng := e }) ∧
            (¬ roomFor s.cfg.bits e.bits.length ∨ ¬ roomFor s.cfg.symOut e.symOut.length →
              exec .decompress s = .next { s with eng := faulted s.eng 2 4 0x31000000 }))

/-- 46_codec_sequencer.md R192: a text pushed, compressed, its artifact moved byte by byte from BYTE_OUT to BYTE_IN and
decompressed, comes back whole, with no fault and no bit left over: from reset, and from every state with unbounded
capacities, no fault held and empty queues. -/
def Obligations.RoundTrip : Prop :=
  ∀ (s : State) (text : List Sym), s = State.reset ∨ (s.cfg = .unbounded ∧ s.eng.err = false ∧ s.eng.symIn = [] ∧
      s.eng.byteIn = [] ∧ s.eng.byteOut = [] ∧ s.eng.symOut = []) →
    (∀ x ∈ text, scalarValue x) → countable text →
    ∃ t, runAll (text.map Instr.pushs ++ [.compress]) s = .next t ∧ t.eng.err = false ∧
      ∃ u, runAll (t.eng.byteOut.flatMap (fun b => [.popb, .pushb b]) ++ [.decompress]) t = .next u ∧
        u.eng.err = false ∧ u.eng.symOut = text ∧ u.eng.res = false

/-- 46_codec_sequencer.md R193, 20_memory.md R72: two calls of COMPRESS over the same SYM_IN that complete append the
same bytes, whatever else the two states hold; a second call over the state the first leaves is such a pair. -/
def Obligations.CompressIsDeterministic : Prop :=
  ∀ s s' t t' : State, s.eng.err = false → s'.eng.err = false → s.eng.symIn = s'.eng.symIn →
    exec .compress s = .next t → exec .compress s' = .next t' → t.eng.err = false → t'.eng.err = false →
    t.eng.symIn = s.eng.symIn ∧
      ∃ y, t.eng.byteOut = s.eng.byteOut ++ y ∧ t'.eng.byteOut = s'.eng.byteOut ++ y

/-- 46_codec_sequencer.md R195: the unit commands, if none faults, leave exactly the state the macro leaves, HWRITE
standing anywhere between HCOUNT and PACK. -/
def Obligations.MacrosAreTheirUnitCommands : Prop :=
  ∀ s t : State, s.eng.err = false → t.eng.err = false →
    (∀ units ∈ [[Instr.hcount, .hwrite, .tbuild, .cwalk, .encode, .pack],
        [.hcount, .tbuild, .hwrite, .cwalk, .encode, .pack],
        [.hcount, .tbuild, .cwalk, .hwrite, .encode, .pack],
        [.hcount, .tbuild, .cwalk, .encode, .hwrite, .pack]],
      runAll units s = .next t → exec .compress s = .next t) ∧
    (runAll [.hread, .tbuild, .cwalk, .unpack, .decode] s = .next t → exec .decompress s = .next t)

/-! Faults -/

/-- 60_exceptions.md R216: with no fault held, a command issued without the valid flag it needs faults with
ERR_SEQ(0). -/
def Obligations.MissingFlagsRaiseErrSeq : Prop :=
  ∀ s : State, s.eng.err = false →
    (s.eng.ftv = false → exec .tbuild s = .next { s with eng := faulted s.eng 4 0 0x21000000 } ∧
      exec .hwrite s = .next { s with eng := faulted s.eng 4 0 0x27000000 }) ∧
    (s.eng.treev = false → exec .cwalk s = .next { s with eng := faulted s.eng 4 0 0x22000000 }) ∧
    (s.eng.ctv = false → exec .encode s = .next { s with eng := faulted s.eng 4 0 0x23000000 }) ∧
    (s.eng.bitsv = false → exec .pack s = .next { s with eng := faulted s.eng 4 0 0x24000000 }) ∧
    (s.eng.ctv = false ∨ s.eng.bitsv = false →
      exec .decode s = .next { s with eng := faulted s.eng 4 0 0x26000000 })

/-- 60_exceptions.md R211: a command that faults changes the four fault registers and nothing else. -/
def Obligations.FaultsAreAllOrNothing : Prop :=
  ∀ (i : Instr) (s t : State), s.eng.err = false → exec i s = .next t → t.eng.err = true →
    t = { s with eng := faulted s.eng t.eng.errcode t.eng.errinfo (encode i) }

/-- 60_exceptions.md R212: which commands raise which codes; code 3 is the decoder's alone. -/
def Obligations.FaultCodesByCommand : Prop :=
  ∀ (i : Instr) (s t : State), s.eng.err = false → exec i s = .next t → t.eng.err = true →
    (t.eng.errcode = 1 ∧ i ∈ [.hread, .unpack, .decompress]) ∨
    (t.eng.errcode = 2 ∧ (i ∈ [.hcount, .hwrite, .pack, .unpack, .encode, .decode, .compress, .decompress] ∨
      (∃ sym, i = .pushs sym) ∨ ∃ byte, i = .pushb byte)) ∨
    (t.eng.errcode = 4 ∧ i ∈ [.tbuild, .cwalk, .encode, .pack, .decode, .hwrite]) ∨
    (t.eng.errcode = 5 ∧ ∃ sym, i = .pushs sym) ∨
    (t.eng.errcode = 6 ∧ i = .encode) ∨
    (t.eng.errcode = 7 ∧ i ∈ [.popb, .pops])

/-! Whole-machine rules -/

/-- Every step of a sound state that answers a next state answers a sound one: the invariants of 10_state.md R20,
R22, R25, R28, R35, R36, R38 and R41. -/
def Obligations.StepKeepsSound : Prop :=
  ∀ s t : State, Sound s → step s = .next t → Sound t

/-- The reset state is sound. -/
def Obligations.ResetIsSound : Prop := Sound State.reset

/-- 60_exceptions.md R210: the step is total; in a sound state it always answers a next state, so the model's own
stops (log entry 4) are never reached. -/
def Obligations.SoundStatesAlwaysStep : Prop :=
  ∀ s : State, Sound s → ∃ t, step s = .next t

/-- 10_state.md R22: which commands write the data registers. -/
def Obligations.DataRegistersHaveTheirWriters : Prop :=
  ∀ (i : Instr) (s t : State), exec i s = .next t →
    (t.eng.n ≠ s.eng.n → i ∈ [.hcount, .hread, .compress, .decompress, .reset]) ∧
    (t.eng.nn ≠ s.eng.nn ∨ t.eng.root ≠ s.eng.root ∨ t.eng.rootv ≠ s.eng.rootv →
      i ∈ [.tbuild, .compress, .decompress, .reset, .hcount, .hread]) ∧
    (t.eng.pad ≠ s.eng.pad → i ∈ [.pack, .unpack, .compress, .decompress, .reset]) ∧
    (t.eng.rdata ≠ s.eng.rdata → i ∈ [.popb, .pops, .reset])

/-- 20_memory.md R60: which commands write each memory, and at which end. -/
def Obligations.MemoriesHaveTheirWriters : Prop :=
  ∀ (i : Instr) (s t : State), exec i s = .next t →
    (t.eng.symIn = s.eng.symIn ∨ (∃ x, i = .pushs x ∧ t.eng.symIn = s.eng.symIn ++ [x]) ∨
      (i = .reset ∧ t.eng.symIn = [])) ∧
    (t.eng.byteIn = s.eng.byteIn ∨ (∃ b, i = .pushb b ∧ t.eng.byteIn = s.eng.byteIn ++ [b]) ∨
      (i ∈ [.hread, .unpack, .decompress] ∧ t.eng.byteIn <:+ s.eng.byteIn) ∨
      (i = .reset ∧ t.eng.byteIn = [])) ∧
    (t.eng.byteOut = s.eng.byteOut ∨ (i ∈ [.hwrite, .pack, .compress] ∧ s.eng.byteOut <+: t.eng.byteOut) ∨
      (i = .popb ∧ ∃ b, s.eng.byteOut = b :: t.eng.byteOut) ∨ (i = .reset ∧ t.eng.byteOut = [])) ∧
    (t.eng.symOut = s.eng.symOut ∨ (i ∈ [.decode, .decompress] ∧ s.eng.symOut <+: t.eng.symOut) ∨
      (i = .pops ∧ ∃ x, s.eng.symOut = x :: t.eng.symOut) ∨ (i = .reset ∧ t.eng.symOut = [])) ∧
    (t.eng.bits ≠ s.eng.bits → i ∈ [.encode, .unpack, .compress, .decompress, .reset]) ∧
    (t.eng.ft ≠ s.eng.ft → i ∈ [.hcount, .hread, .compress, .decompress, .reset]) ∧
    (t.eng.node ≠ s.eng.node ∨ t.eng.pq ≠ s.eng.pq →
      i ∈ [.tbuild, .compress, .decompress, .hcount, .hread, .reset]) ∧
    (t.eng.ct ≠ s.eng.ct → i ∈ [.cwalk, .compress, .decompress, .hcount, .hread, .tbuild, .reset])

/-- 10_state.md R27: which commands set and which clear each flag, that a command which completes does, and that a
command which faults sets ERR alone. RES after DECODE and DECOMPRESS is 46_codec_sequencer.md R189. -/
def Obligations.FlagsHaveTheirWriters : Prop :=
  ∀ (i : Instr) (s t : State), exec i s = .next t →
    (s.eng.err = true → t.eng.err = false → i ∈ [.clrerr, .reset]) ∧
    (s.eng.ftv = false → t.eng.ftv = true → i ∈ [.hcount, .hread, .compress, .decompress]) ∧
    (s.eng.ftv = true → t.eng.ftv = false → i = .reset) ∧
    (s.eng.treev = false → t.eng.treev = true → i ∈ [.tbuild, .compress, .decompress]) ∧
    (s.eng.treev = true → t.eng.treev = false → i ∈ [.hcount, .hread, .reset]) ∧
    (s.eng.ctv = false → t.eng.ctv = true → i ∈ [.cwalk, .compress, .decompress]) ∧
    (s.eng.ctv = true → t.eng.ctv = false → i ∈ [.hcount, .hread, .tbuild, .reset]) ∧
    (s.eng.bitsv = false → t.eng.bitsv = true → i ∈ [.encode, .unpack, .compress, .decompress]) ∧
    (s.eng.bitsv = true → t.eng.bitsv = false → i = .reset) ∧
    (s.eng.res = false → t.eng.res = true → i ∈ [.decode, .decompress]) ∧
    (s.eng.res = true → t.eng.res = false → i ∈ [.decode, .decompress, .reset]) ∧
    (s.eng.err = false → t.eng.err = false →
      (i ∈ [.hcount, .hread] → t.eng.ftv = true ∧ t.eng.treev = false ∧ t.eng.ctv = false) ∧
      (i = .tbuild → t.eng.treev = true ∧ t.eng.ctv = false) ∧
      (i = .cwalk → t.eng.ctv = true) ∧
      (i ∈ [.encode, .unpack] → t.eng.bitsv = true) ∧
      (i ∈ [.compress, .decompress] →
        t.eng.ftv = true ∧ t.eng.treev = true ∧ t.eng.ctv = true ∧ t.eng.bitsv = true) ∧
      (i ∈ [.decode, .decompress] → ∃ left, bitsLeft t.eng left ∧ (t.eng.res = true ↔ left ≠ []))) ∧
    (s.eng.err = false → t.eng.err = true → statusValue t.eng = statusValue s.eng + 1) ∧
    (i = .clrerr → t.eng.err = false) ∧
    (i = .reset → statusValue t.eng = 0)

/-- 10_state.md R50: no command and no access changes the capacities. -/
def Obligations.ConfigurationIsFixed : Prop :=
  (∀ (i : Instr) (s t : State), exec i s = .next t → t.cfg = s.cfg) ∧
    ∀ s t : State, step s = .next t → t.cfg = s.cfg
end

