-- ==== Sys2Proof/Laws/State.lean ====
section
/-! SUPPORT. One lemma per field per update of the engine, true by rfl, so that no proof unfolds an update. -/

namespace Sys2Proof.Machine

@[simp] theorem clearTree_n (e : Engine) : (clearTree e).n = e.n := rfl
@[simp] theorem clearTree_nn (e : Engine) : (clearTree e).nn = 0 := rfl
@[simp] theorem clearTree_root (e : Engine) : (clearTree e).root = 0 := rfl
@[simp] theorem clearTree_rootv (e : Engine) : (clearTree e).rootv = false := rfl
@[simp] theorem clearTree_pad (e : Engine) : (clearTree e).pad = e.pad := rfl
@[simp] theorem clearTree_rdata (e : Engine) : (clearTree e).rdata = e.rdata := rfl
@[simp] theorem clearTree_err (e : Engine) : (clearTree e).err = e.err := rfl
@[simp] theorem clearTree_ftv (e : Engine) : (clearTree e).ftv = e.ftv := rfl
@[simp] theorem clearTree_treev (e : Engine) : (clearTree e).treev = false := rfl
@[simp] theorem clearTree_ctv (e : Engine) : (clearTree e).ctv = e.ctv := rfl
@[simp] theorem clearTree_bitsv (e : Engine) : (clearTree e).bitsv = e.bitsv := rfl
@[simp] theorem clearTree_res (e : Engine) : (clearTree e).res = e.res := rfl
@[simp] theorem clearTree_errcode (e : Engine) : (clearTree e).errcode = e.errcode := rfl
@[simp] theorem clearTree_errinfo (e : Engine) : (clearTree e).errinfo = e.errinfo := rfl
@[simp] theorem clearTree_errcmd (e : Engine) : (clearTree e).errcmd = e.errcmd := rfl
@[simp] theorem clearTree_ft (e : Engine) : (clearTree e).ft = e.ft := rfl
@[simp] theorem clearTree_node (e : Engine) : (clearTree e).node = [] := rfl
@[simp] theorem clearTree_ct (e : Engine) : (clearTree e).ct = e.ct := rfl
@[simp] theorem clearTree_pq (e : Engine) : (clearTree e).pq = [] := rfl
@[simp] theorem clearTree_symIn (e : Engine) : (clearTree e).symIn = e.symIn := rfl
@[simp] theorem clearTree_byteIn (e : Engine) : (clearTree e).byteIn = e.byteIn := rfl
@[simp] theorem clearTree_byteOut (e : Engine) : (clearTree e).byteOut = e.byteOut := rfl
@[simp] theorem clearTree_symOut (e : Engine) : (clearTree e).symOut = e.symOut := rfl
@[simp] theorem clearTree_bits (e : Engine) : (clearTree e).bits = e.bits := rfl

@[simp] theorem clearCodeTable_n (e : Engine) : (clearCodeTable e).n = e.n := rfl
@[simp] theorem clearCodeTable_nn (e : Engine) : (clearCodeTable e).nn = e.nn := rfl
@[simp] theorem clearCodeTable_root (e : Engine) : (clearCodeTable e).root = e.root := rfl
@[simp] theorem clearCodeTable_rootv (e : Engine) : (clearCodeTable e).rootv = e.rootv := rfl
@[simp] theorem clearCodeTable_pad (e : Engine) : (clearCodeTable e).pad = e.pad := rfl
@[simp] theorem clearCodeTable_rdata (e : Engine) : (clearCodeTable e).rdata = e.rdata := rfl
@[simp] theorem clearCodeTable_err (e : Engine) : (clearCodeTable e).err = e.err := rfl
@[simp] theorem clearCodeTable_ftv (e : Engine) : (clearCodeTable e).ftv = e.ftv := rfl
@[simp] theorem clearCodeTable_treev (e : Engine) : (clearCodeTable e).treev = e.treev := rfl
@[simp] theorem clearCodeTable_ctv (e : Engine) : (clearCodeTable e).ctv = false := rfl
@[simp] theorem clearCodeTable_bitsv (e : Engine) : (clearCodeTable e).bitsv = e.bitsv := rfl
@[simp] theorem clearCodeTable_res (e : Engine) : (clearCodeTable e).res = e.res := rfl
@[simp] theorem clearCodeTable_errcode (e : Engine) : (clearCodeTable e).errcode = e.errcode := rfl
@[simp] theorem clearCodeTable_errinfo (e : Engine) : (clearCodeTable e).errinfo = e.errinfo := rfl
@[simp] theorem clearCodeTable_errcmd (e : Engine) : (clearCodeTable e).errcmd = e.errcmd := rfl
@[simp] theorem clearCodeTable_ft (e : Engine) : (clearCodeTable e).ft = e.ft := rfl
@[simp] theorem clearCodeTable_node (e : Engine) : (clearCodeTable e).node = e.node := rfl
@[simp] theorem clearCodeTable_ct (e : Engine) : (clearCodeTable e).ct = [] := rfl
@[simp] theorem clearCodeTable_pq (e : Engine) : (clearCodeTable e).pq = e.pq := rfl
@[simp] theorem clearCodeTable_symIn (e : Engine) : (clearCodeTable e).symIn = e.symIn := rfl
@[simp] theorem clearCodeTable_byteIn (e : Engine) : (clearCodeTable e).byteIn = e.byteIn := rfl
@[simp] theorem clearCodeTable_byteOut (e : Engine) : (clearCodeTable e).byteOut = e.byteOut := rfl
@[simp] theorem clearCodeTable_symOut (e : Engine) : (clearCodeTable e).symOut = e.symOut := rfl
@[simp] theorem clearCodeTable_bits (e : Engine) : (clearCodeTable e).bits = e.bits := rfl

@[simp] theorem installTable_n (t : List FreqEntry) (n : BitVec 16) (e : Engine) : (installTable t n e).n = n := rfl
@[simp] theorem installTable_nn (t : List FreqEntry) (n : BitVec 16) (e : Engine) : (installTable t n e).nn = 0 := rfl
@[simp] theorem installTable_root (t : List FreqEntry) (n : BitVec 16) (e : Engine) : (installTable t n e).root = 0 := rfl
@[simp] theorem installTable_rootv (t : List FreqEntry) (n : BitVec 16) (e : Engine) : (installTable t n e).rootv = false := rfl
@[simp] theorem installTable_pad (t : List FreqEntry) (n : BitVec 16) (e : Engine) : (installTable t n e).pad = e.pad := rfl
@[simp] theorem installTable_rdata (t : List FreqEntry) (n : BitVec 16) (e : Engine) : (installTable t n e).rdata = e.rdata := rfl
@[simp] theorem installTable_err (t : List FreqEntry) (n : BitVec 16) (e : Engine) : (installTable t n e).err = e.err := rfl
@[simp] theorem installTable_ftv (t : List FreqEntry) (n : BitVec 16) (e : Engine) : (installTable t n e).ftv = true := rfl
@[simp] theorem installTable_treev (t : List FreqEntry) (n : BitVec 16) (e : Engine) : (installTable t n e).treev = false := rfl
@[simp] theorem installTable_ctv (t : List FreqEntry) (n : BitVec 16) (e : Engine) : (installTable t n e).ctv = false := rfl
@[simp] theorem installTable_bitsv (t : List FreqEntry) (n : BitVec 16) (e : Engine) : (installTable t n e).bitsv = e.bitsv := rfl
@[simp] theorem installTable_res (t : List FreqEntry) (n : BitVec 16) (e : Engine) : (installTable t n e).res = e.res := rfl
@[simp] theorem installTable_errcode (t : List FreqEntry) (n : BitVec 16) (e : Engine) : (installTable t n e).errcode = e.errcode := rfl
@[simp] theorem installTable_errinfo (t : List FreqEntry) (n : BitVec 16) (e : Engine) : (installTable t n e).errinfo = e.errinfo := rfl
@[simp] theorem installTable_errcmd (t : List FreqEntry) (n : BitVec 16) (e : Engine) : (installTable t n e).errcmd = e.errcmd := rfl
@[simp] theorem installTable_ft (t : List FreqEntry) (n : BitVec 16) (e : Engine) : (installTable t n e).ft = t := rfl
@[simp] theorem installTable_node (t : List FreqEntry) (n : BitVec 16) (e : Engine) : (installTable t n e).node = [] := rfl
@[simp] theorem installTable_ct (t : List FreqEntry) (n : BitVec 16) (e : Engine) : (installTable t n e).ct = [] := rfl
@[simp] theorem installTable_pq (t : List FreqEntry) (n : BitVec 16) (e : Engine) : (installTable t n e).pq = [] := rfl
@[simp] theorem installTable_symIn (t : List FreqEntry) (n : BitVec 16) (e : Engine) : (installTable t n e).symIn = e.symIn := rfl
@[simp] theorem installTable_byteIn (t : List FreqEntry) (n : BitVec 16) (e : Engine) : (installTable t n e).byteIn = e.byteIn := rfl
@[simp] theorem installTable_byteOut (t : List FreqEntry) (n : BitVec 16) (e : Engine) : (installTable t n e).byteOut = e.byteOut := rfl
@[simp] theorem installTable_symOut (t : List FreqEntry) (n : BitVec 16) (e : Engine) : (installTable t n e).symOut = e.symOut := rfl
@[simp] theorem installTable_bits (t : List FreqEntry) (n : BitVec 16) (e : Engine) : (installTable t n e).bits = e.bits := rfl

@[simp] theorem takeFault_n (c : Cause) (i : BitVec 8) (w : Word) (e : Engine) : (takeFault c i w e).n = e.n := rfl
@[simp] theorem takeFault_nn (c : Cause) (i : BitVec 8) (w : Word) (e : Engine) : (takeFault c i w e).nn = e.nn := rfl
@[simp] theorem takeFault_root (c : Cause) (i : BitVec 8) (w : Word) (e : Engine) : (takeFault c i w e).root = e.root := rfl
@[simp] theorem takeFault_rootv (c : Cause) (i : BitVec 8) (w : Word) (e : Engine) : (takeFault c i w e).rootv = e.rootv := rfl
@[simp] theorem takeFault_pad (c : Cause) (i : BitVec 8) (w : Word) (e : Engine) : (takeFault c i w e).pad = e.pad := rfl
@[simp] theorem takeFault_rdata (c : Cause) (i : BitVec 8) (w : Word) (e : Engine) : (takeFault c i w e).rdata = e.rdata := rfl
@[simp] theorem takeFault_err (c : Cause) (i : BitVec 8) (w : Word) (e : Engine) : (takeFault c i w e).err = true := rfl
@[simp] theorem takeFault_ftv (c : Cause) (i : BitVec 8) (w : Word) (e : Engine) : (takeFault c i w e).ftv = e.ftv := rfl
@[simp] theorem takeFault_treev (c : Cause) (i : BitVec 8) (w : Word) (e : Engine) : (takeFault c i w e).treev = e.treev := rfl
@[simp] theorem takeFault_ctv (c : Cause) (i : BitVec 8) (w : Word) (e : Engine) : (takeFault c i w e).ctv = e.ctv := rfl
@[simp] theorem takeFault_bitsv (c : Cause) (i : BitVec 8) (w : Word) (e : Engine) : (takeFault c i w e).bitsv = e.bitsv := rfl
@[simp] theorem takeFault_res (c : Cause) (i : BitVec 8) (w : Word) (e : Engine) : (takeFault c i w e).res = e.res := rfl
@[simp] theorem takeFault_errcode (c : Cause) (i : BitVec 8) (w : Word) (e : Engine) : (takeFault c i w e).errcode = c.code := rfl
@[simp] theorem takeFault_errinfo (c : Cause) (i : BitVec 8) (w : Word) (e : Engine) : (takeFault c i w e).errinfo = i := rfl
@[simp] theorem takeFault_errcmd (c : Cause) (i : BitVec 8) (w : Word) (e : Engine) : (takeFault c i w e).errcmd = w := rfl
@[simp] theorem takeFault_ft (c : Cause) (i : BitVec 8) (w : Word) (e : Engine) : (takeFault c i w e).ft = e.ft := rfl
@[simp] theorem takeFault_node (c : Cause) (i : BitVec 8) (w : Word) (e : Engine) : (takeFault c i w e).node = e.node := rfl
@[simp] theorem takeFault_ct (c : Cause) (i : BitVec 8) (w : Word) (e : Engine) : (takeFault c i w e).ct = e.ct := rfl
@[simp] theorem takeFault_pq (c : Cause) (i : BitVec 8) (w : Word) (e : Engine) : (takeFault c i w e).pq = e.pq := rfl
@[simp] theorem takeFault_symIn (c : Cause) (i : BitVec 8) (w : Word) (e : Engine) : (takeFault c i w e).symIn = e.symIn := rfl
@[simp] theorem takeFault_byteIn (c : Cause) (i : BitVec 8) (w : Word) (e : Engine) : (takeFault c i w e).byteIn = e.byteIn := rfl
@[simp] theorem takeFault_byteOut (c : Cause) (i : BitVec 8) (w : Word) (e : Engine) : (takeFault c i w e).byteOut = e.byteOut := rfl
@[simp] theorem takeFault_symOut (c : Cause) (i : BitVec 8) (w : Word) (e : Engine) : (takeFault c i w e).symOut = e.symOut := rfl
@[simp] theorem takeFault_bits (c : Cause) (i : BitVec 8) (w : Word) (e : Engine) : (takeFault c i w e).bits = e.bits := rfl

@[simp] theorem clearFault_n (e : Engine) : (clearFault e).n = e.n := rfl
@[simp] theorem clearFault_nn (e : Engine) : (clearFault e).nn = e.nn := rfl
@[simp] theorem clearFault_root (e : Engine) : (clearFault e).root = e.root := rfl
@[simp] theorem clearFault_rootv (e : Engine) : (clearFault e).rootv = e.rootv := rfl
@[simp] theorem clearFault_pad (e : Engine) : (clearFault e).pad = e.pad := rfl
@[simp] theorem clearFault_rdata (e : Engine) : (clearFault e).rdata = e.rdata := rfl
@[simp] theorem clearFault_err (e : Engine) : (clearFault e).err = false := rfl
@[simp] theorem clearFault_ftv (e : Engine) : (clearFault e).ftv = e.ftv := rfl
@[simp] theorem clearFault_treev (e : Engine) : (clearFault e).treev = e.treev := rfl
@[simp] theorem clearFault_ctv (e : Engine) : (clearFault e).ctv = e.ctv := rfl
@[simp] theorem clearFault_bitsv (e : Engine) : (clearFault e).bitsv = e.bitsv := rfl
@[simp] theorem clearFault_res (e : Engine) : (clearFault e).res = e.res := rfl
@[simp] theorem clearFault_errcode (e : Engine) : (clearFault e).errcode = 0 := rfl
@[simp] theorem clearFault_errinfo (e : Engine) : (clearFault e).errinfo = 0 := rfl
@[simp] theorem clearFault_errcmd (e : Engine) : (clearFault e).errcmd = 0 := rfl
@[simp] theorem clearFault_ft (e : Engine) : (clearFault e).ft = e.ft := rfl
@[simp] theorem clearFault_node (e : Engine) : (clearFault e).node = e.node := rfl
@[simp] theorem clearFault_ct (e : Engine) : (clearFault e).ct = e.ct := rfl
@[simp] theorem clearFault_pq (e : Engine) : (clearFault e).pq = e.pq := rfl
@[simp] theorem clearFault_symIn (e : Engine) : (clearFault e).symIn = e.symIn := rfl
@[simp] theorem clearFault_byteIn (e : Engine) : (clearFault e).byteIn = e.byteIn := rfl
@[simp] theorem clearFault_byteOut (e : Engine) : (clearFault e).byteOut = e.byteOut := rfl
@[simp] theorem clearFault_symOut (e : Engine) : (clearFault e).symOut = e.symOut := rfl
@[simp] theorem clearFault_bits (e : Engine) : (clearFault e).bits = e.bits := rfl

@[simp] theorem addNode_n (x : Node) (e : Engine) : (addNode x e).n = e.n := rfl
@[simp] theorem addNode_nn (x : Node) (e : Engine) : (addNode x e).nn = e.nn + 1 := rfl
@[simp] theorem addNode_root (x : Node) (e : Engine) : (addNode x e).root = e.root := rfl
@[simp] theorem addNode_rootv (x : Node) (e : Engine) : (addNode x e).rootv = e.rootv := rfl
@[simp] theorem addNode_pad (x : Node) (e : Engine) : (addNode x e).pad = e.pad := rfl
@[simp] theorem addNode_rdata (x : Node) (e : Engine) : (addNode x e).rdata = e.rdata := rfl
@[simp] theorem addNode_err (x : Node) (e : Engine) : (addNode x e).err = e.err := rfl
@[simp] theorem addNode_ftv (x : Node) (e : Engine) : (addNode x e).ftv = e.ftv := rfl
@[simp] theorem addNode_treev (x : Node) (e : Engine) : (addNode x e).treev = e.treev := rfl
@[simp] theorem addNode_ctv (x : Node) (e : Engine) : (addNode x e).ctv = e.ctv := rfl
@[simp] theorem addNode_bitsv (x : Node) (e : Engine) : (addNode x e).bitsv = e.bitsv := rfl
@[simp] theorem addNode_res (x : Node) (e : Engine) : (addNode x e).res = e.res := rfl
@[simp] theorem addNode_errcode (x : Node) (e : Engine) : (addNode x e).errcode = e.errcode := rfl
@[simp] theorem addNode_errinfo (x : Node) (e : Engine) : (addNode x e).errinfo = e.errinfo := rfl
@[simp] theorem addNode_errcmd (x : Node) (e : Engine) : (addNode x e).errcmd = e.errcmd := rfl
@[simp] theorem addNode_ft (x : Node) (e : Engine) : (addNode x e).ft = e.ft := rfl
@[simp] theorem addNode_node (x : Node) (e : Engine) : (addNode x e).node = e.node ++ [x] := rfl
@[simp] theorem addNode_ct (x : Node) (e : Engine) : (addNode x e).ct = e.ct := rfl
@[simp] theorem addNode_pq (x : Node) (e : Engine) : (addNode x e).pq = pqInsert e.nn e.pq := rfl
@[simp] theorem addNode_symIn (x : Node) (e : Engine) : (addNode x e).symIn = e.symIn := rfl
@[simp] theorem addNode_byteIn (x : Node) (e : Engine) : (addNode x e).byteIn = e.byteIn := rfl
@[simp] theorem addNode_byteOut (x : Node) (e : Engine) : (addNode x e).byteOut = e.byteOut := rfl
@[simp] theorem addNode_symOut (x : Node) (e : Engine) : (addNode x e).symOut = e.symOut := rfl
@[simp] theorem addNode_bits (x : Node) (e : Engine) : (addNode x e).bits = e.bits := rfl

@[simp] theorem mergeNodes_n (a b : NodeIdx) (e : Engine) : (mergeNodes a b e).n = e.n := rfl
@[simp] theorem mergeNodes_nn (a b : NodeIdx) (e : Engine) : (mergeNodes a b e).nn = e.nn + 1 := rfl
@[simp] theorem mergeNodes_root (a b : NodeIdx) (e : Engine) : (mergeNodes a b e).root = e.root := rfl
@[simp] theorem mergeNodes_rootv (a b : NodeIdx) (e : Engine) : (mergeNodes a b e).rootv = e.rootv := rfl
@[simp] theorem mergeNodes_pad (a b : NodeIdx) (e : Engine) : (mergeNodes a b e).pad = e.pad := rfl
@[simp] theorem mergeNodes_rdata (a b : NodeIdx) (e : Engine) : (mergeNodes a b e).rdata = e.rdata := rfl
@[simp] theorem mergeNodes_err (a b : NodeIdx) (e : Engine) : (mergeNodes a b e).err = e.err := rfl
@[simp] theorem mergeNodes_ftv (a b : NodeIdx) (e : Engine) : (mergeNodes a b e).ftv = e.ftv := rfl
@[simp] theorem mergeNodes_treev (a b : NodeIdx) (e : Engine) : (mergeNodes a b e).treev = e.treev := rfl
@[simp] theorem mergeNodes_ctv (a b : NodeIdx) (e : Engine) : (mergeNodes a b e).ctv = e.ctv := rfl
@[simp] theorem mergeNodes_bitsv (a b : NodeIdx) (e : Engine) : (mergeNodes a b e).bitsv = e.bitsv := rfl
@[simp] theorem mergeNodes_res (a b : NodeIdx) (e : Engine) : (mergeNodes a b e).res = e.res := rfl
@[simp] theorem mergeNodes_errcode (a b : NodeIdx) (e : Engine) : (mergeNodes a b e).errcode = e.errcode := rfl
@[simp] theorem mergeNodes_errinfo (a b : NodeIdx) (e : Engine) : (mergeNodes a b e).errinfo = e.errinfo := rfl
@[simp] theorem mergeNodes_errcmd (a b : NodeIdx) (e : Engine) : (mergeNodes a b e).errcmd = e.errcmd := rfl
@[simp] theorem mergeNodes_ft (a b : NodeIdx) (e : Engine) : (mergeNodes a b e).ft = e.ft := rfl
@[simp] theorem mergeNodes_node (a b : NodeIdx) (e : Engine) : (mergeNodes a b e).node = e.node ++ [.internal (weightAt e.node a + weightAt e.node b) a b] := rfl
@[simp] theorem mergeNodes_ct (a b : NodeIdx) (e : Engine) : (mergeNodes a b e).ct = e.ct := rfl
@[simp] theorem mergeNodes_pq (a b : NodeIdx) (e : Engine) : (mergeNodes a b e).pq = pqInsert e.nn e.pq := rfl
@[simp] theorem mergeNodes_symIn (a b : NodeIdx) (e : Engine) : (mergeNodes a b e).symIn = e.symIn := rfl
@[simp] theorem mergeNodes_byteIn (a b : NodeIdx) (e : Engine) : (mergeNodes a b e).byteIn = e.byteIn := rfl
@[simp] theorem mergeNodes_byteOut (a b : NodeIdx) (e : Engine) : (mergeNodes a b e).byteOut = e.byteOut := rfl
@[simp] theorem mergeNodes_symOut (a b : NodeIdx) (e : Engine) : (mergeNodes a b e).symOut = e.symOut := rfl
@[simp] theorem mergeNodes_bits (a b : NodeIdx) (e : Engine) : (mergeNodes a b e).bits = e.bits := rfl

@[simp] theorem faulted_eq_takeFault (c : Cause) (i : BitVec 8) (w : Word) (e : Engine) :
    faulted e c.code i w = takeFault c i w e := rfl

end Sys2Proof.Machine
end

