-- ==== Sys2Proof/Laws/Ops.lean ====
section
/-! SUPPORT. What the shared operations of Machine/Ops.lean can do, said once each, and how each body ends. -/

namespace Sys2Proof.Machine

@[simp] theorem fits_none (len : Nat) : fits none len = true := rfl

theorem fits_mono {cap : Capacity} {a b : Nat} (h : fits cap b = true) (hab : a ≤ b) : fits cap a = true := by
  cases cap with
  | none => rfl
  | some c => simp only [fits, decide_eq_true_eq] at *; omega

theorem appendWithin_eq_some {α : Type} {cap : Capacity} {q xs r : List α} :
    appendWithin cap q xs = some r ↔ fits cap (q.length + xs.length) = true ∧ r = q ++ xs := by
  unfold appendWithin
  split <;> rename_i hf <;> simp [hf, eq_comm]

theorem appendWithin_eq_none {α : Type} {cap : Capacity} {q xs : List α} :
    appendWithin cap q xs = none ↔ fits cap (q.length + xs.length) = false := by
  unfold appendWithin
  split <;> rename_i hf <;> simp [hf]

theorem tableEntries_eq_some {e : Engine} (h : e.n.toNat = e.ft.length) : tableEntries e = some e.ft := by
  simp [tableEntries, h]

theorem andThen_eq_done {r : Ending} {f : Engine → Ending} {e : Engine} :
    r.andThen f = .done e ↔ ∃ e', r = .done e' ∧ f e' = .done e := by
  cases r <;> simp [Ending.andThen]

theorem andThen_eq_raise {r : Ending} {f : Engine → Ending} {c : Cause} {i : BitVec 8} :
    r.andThen f = .raise c i ↔ r = .raise c i ∨ ∃ e', r = .done e' ∧ f e' = .raise c i := by
  cases r <;> simp [Ending.andThen]

theorem andThen_eq_stuck {r : Ending} {f : Engine → Ending} {x : Fault} :
    r.andThen f = .stuck x ↔ r = .stuck x ∨ ∃ e', r = .done e' ∧ f e' = .stuck x := by
  cases r <;> simp [Ending.andThen]

/-- Everything the envelope can answer with a next state (R210). -/
theorem runCommand_cases {i : Instr} {body : Engine → Ending} {s t : State}
    (h : runCommand i body s = .next t) :
    (s.eng.err = true ∧ t = s) ∨
    (s.eng.err = false ∧ ∃ e, body s.eng = .done e ∧ t = { s with eng := e }) ∨
    (s.eng.err = false ∧ ∃ c info, body s.eng = .raise c info ∧
      t = { s with eng := takeFault c info (encode i) s.eng }) := by
  unfold runCommand at h
  split at h
  · cases h; exact .inl ⟨‹_›, rfl⟩
  · rename_i hne
    have he : s.eng.err = false := by simpa using hne
    split at h
    · rename_i e hb; cases h; exact .inr (.inl ⟨he, e, hb, rfl⟩)
    · rename_i c info hb; cases h; exact .inr (.inr ⟨he, c, info, hb, rfl⟩)
    · cases h

theorem runCommand_held {i : Instr} {body : Engine → Ending} {s : State} (h : s.eng.err = true) :
    runCommand i body s = .next s := by simp [runCommand, h]

theorem runCommand_done {i : Instr} {body : Engine → Ending} {s : State} {e : Engine}
    (h : s.eng.err = false) (hb : body s.eng = .done e) : runCommand i body s = .next { s with eng := e } := by
  simp [runCommand, h, hb]

theorem runCommand_raise {i : Instr} {body : Engine → Ending} {s : State} {c : Cause} {info : BitVec 8}
    (h : s.eng.err = false) (hb : body s.eng = .raise c info) :
    runCommand i body s = .next { s with eng := takeFault c info (encode i) s.eng } := by
  simp [runCommand, h, hb]

theorem runCommand_stuck {i : Instr} {body : Engine → Ending} {s : State} {f : Fault}
    (h : s.eng.err = false) (hb : body s.eng = .stuck f) : runCommand i body s = .fault f := by
  simp [runCommand, h, hb]

theorem pushsBody_done {cfg : Capacities} {x : Sym} {e e' : Engine} :
    pushsBody cfg x e = .done e' ↔ isScalar x = true ∧ fits cfg.symIn (e.symIn.length + 1) = true ∧
      e' = { e with symIn := e.symIn ++ [x] } := by
  unfold pushsBody appendWithin
  cases h1 : isScalar x <;> cases h2 : fits cfg.symIn (e.symIn.length + 1) <;> simp [eq_comm]

theorem pushbBody_done {cfg : Capacities} {x : Byte} {e e' : Engine} :
    pushbBody cfg x e = .done e' ↔ fits cfg.byteIn (e.byteIn.length + 1) = true ∧
      e' = { e with byteIn := e.byteIn ++ [x] } := by
  unfold pushbBody appendWithin
  cases h2 : fits cfg.byteIn (e.byteIn.length + 1) <;> simp [eq_comm]

theorem popbBody_done {e e' : Engine} :
    popbBody e = .done e' ↔
      ∃ b rest, e.byteOut = b :: rest ∧ e' = { e with byteOut := rest, rdata := b.setWidth 32 } := by
  unfold popbBody
  cases h : e.byteOut <;> simp [eq_comm]

theorem popsBody_done {e e' : Engine} :
    popsBody e = .done e' ↔
      ∃ x rest, e.symOut = x :: rest ∧ e' = { e with symOut := rest, rdata := x.setWidth 32 } := by
  unfold popsBody
  cases h : e.symOut <;> simp [eq_comm]

theorem hcountBody_done {e e' : Engine} :
    hcountBody e = .done e' ↔
      ∃ t, countSymbols [] e.symIn = .table t ∧ e' = installTable t (BitVec.ofNat 16 t.length) e := by
  unfold hcountBody
  cases h : countSymbols [] e.symIn <;> simp [eq_comm]

theorem tbuildBody_done {e e' : Engine} :
    tbuildBody e = .done e' ↔ e.ftv = true ∧ ∃ t, tableEntries e = some t ∧ e' = buildTree t e := by
  unfold tbuildBody
  cases h1 : e.ftv <;> cases h2 : tableEntries e <;> simp [eq_comm]

theorem cwalkBody_done {e e' : Engine} :
    cwalkBody e = .done e' ↔ e.treev = true ∧ ∃ c, codesOfTree e = some c ∧ e' = { e with ct := c, ctv := true } := by
  unfold cwalkBody
  cases h1 : e.treev <;> cases h2 : codesOfTree e <;> simp [eq_comm]

theorem encodeBody_done {cfg : Capacities} {e e' : Engine} :
    encodeBody cfg e = .done e' ↔ e.ctv = true ∧ ∃ b, encodeSymbols e.ct e.symIn = some b ∧
      fits cfg.bits b.length = true ∧ e' = { e with bits := b, bitsv := true } := by
  unfold encodeBody
  cases h1 : e.ctv <;> cases h2 : encodeSymbols e.ct e.symIn with
  | none => simp
  | some b => cases h3 : fits cfg.bits b.length <;> simp [h3] <;> exact eq_comm

theorem packBody_done {cfg : Capacities} {e e' : Engine} :
    packBody cfg e = .done e' ↔ e.bitsv = true ∧
      fits cfg.byteOut (e.byteOut.length + (packBits e.bits).length) = true ∧
      e' = { e with byteOut := e.byteOut ++ packBits e.bits, pad := BitVec.ofNat 4 (paddingOf e.bits.length) } := by
  unfold packBody appendWithin
  cases h1 : e.bitsv <;> cases h2 : fits cfg.byteOut (e.byteOut.length + (packBits e.bits).length) <;>
    simp [eq_comm]

theorem unpackBody_done {cfg : Capacities} {e e' : Engine} :
    unpackBody cfg e = .done e' ↔ ∃ y0 rest, e.byteIn = y0 :: rest ∧ 1 ≤ y0.toNat ∧ y0.toNat ≤ 8 ∧
      y0.toNat ≤ (bitsOfBytes rest).length ∧
      fits cfg.bits ((bitsOfBytes rest).length - y0.toNat) = true ∧
      e' = { e with
        bits := (bitsOfBytes rest).take ((bitsOfBytes rest).length - y0.toNat)
        bitsv := true
        pad := y0.setWidth 4
        byteIn := [] } := by
  unfold unpackBody
  split
  · simp_all
  · rename_i y0 rest hy
    split
    · rename_i h
      simp only [reduceCtorEq, false_iff, not_exists, not_and, hy, List.cons.injEq]
      rintro a b ⟨rfl, rfl⟩ h1 h2; omega
    · rename_i h
      split
      · rename_i h'
        simp only [reduceCtorEq, false_iff, not_exists, not_and, hy, List.cons.injEq]
        rintro a b ⟨rfl, rfl⟩ h1 h2 h3; omega
      · rename_i h'
        split
        · rename_i hf
          simp only [Ending.done.injEq, hy, List.cons.injEq]
          constructor
          · rintro rfl; exact ⟨y0, rest, ⟨rfl, rfl⟩, by omega, by omega, by omega, hf, rfl⟩
          · rintro ⟨a, b, ⟨rfl, rfl⟩, -, -, -, -, h⟩; exact h.symm
        · rename_i hf
          simp only [reduceCtorEq, false_iff, not_exists, not_and, hy, List.cons.injEq]
          rintro a b ⟨rfl, rfl⟩ h1 h2 h3 h4; exact absurd h4 hf

theorem hwriteBody_done {cfg : Capacities} {e e' : Engine} :
    hwriteBody cfg e = .done e' ↔ e.ftv = true ∧ ∃ t h, tableEntries e = some t ∧ headerOf e.n t = some h ∧
      fits cfg.byteOut (e.byteOut.length + h.length) = true ∧ e' = { e with byteOut := e.byteOut ++ h } := by
  unfold hwriteBody appendWithin
  cases h1 : e.ftv <;> cases h2 : tableEntries e with
  | none => simp
  | some t =>
    cases h3 : headerOf e.n t with
    | none => simp [h3]
    | some h => cases h4 : fits cfg.byteOut (e.byteOut.length + h.length) <;> simp [h3, h4] <;> exact eq_comm

theorem hreadBody_done {e e' : Engine} :
    hreadBody e = .done e' ↔ ∃ y0 y1 y t rest, e.byteIn = y0 :: y1 :: y ∧
      parseEntries (fromBe16 y0 y1).toNat [] y = .table t rest ∧
      e' = installTable t (fromBe16 y0 y1) { e with byteIn := rest } := by
  unfold hreadBody
  split
  · rename_i y0 y1 y hy
    split
    · rename_i t rest hp
      constructor
      · intro h; cases h; exact ⟨y0, y1, y, t, rest, hy, hp, rfl⟩
      · rintro ⟨a, b, c, t', r', h1, h2, rfl⟩
        rw [hy] at h1; cases h1; rw [hp] at h2; cases h2; rfl
    · rename_i info hp
      constructor
      · intro h; cases h
      · rintro ⟨a, b, c, t', r', h1, h2, rfl⟩
        rw [hy] at h1; cases h1; rw [hp] at h2; cases h2
  · rename_i hne
    constructor
    · intro h; cases h
    · rintro ⟨a, b, c, t', r', h1, -, -⟩; exact absurd h1 (hne a b c)

theorem decodeBody_done {cfg : Capacities} {e e' : Engine} :
    decodeBody cfg e = .done e' ↔ e.ctv = true ∧ e.bitsv = true ∧ ∃ out acc, decodePayload e = some (out, acc) ∧
      fits cfg.symOut (e.symOut.length + out.length) = true ∧
      e' = { e with symOut := e.symOut ++ out, res := !acc.isEmpty } := by
  unfold decodeBody
  split
  · rename_i hv
    simp only [Bool.and_eq_true] at hv
    split
    · simp_all
    · rename_i out acc hd
      split
      · rename_i q hq
        rw [appendWithin_eq_some] at hq
        obtain ⟨hf, rfl⟩ := hq
        simp only [Ending.done.injEq, hd, Option.some.injEq, Prod.mk.injEq, hv.1, hv.2, true_and]
        constructor
        · rintro rfl; exact ⟨out, acc, ⟨rfl, rfl⟩, hf, rfl⟩
        · rintro ⟨o, a, ⟨rfl, rfl⟩, -, h⟩; exact h.symm
      · rename_i hq
        rw [appendWithin_eq_none] at hq
        simp only [reduceCtorEq, hd, Option.some.injEq, Prod.mk.injEq, false_iff, not_and, not_exists]
        rintro - - o a ⟨rfl, rfl⟩ hf; simp [hq] at hf
  · rename_i hv
    simp only [reduceCtorEq, false_iff, not_and, not_exists]
    intro h1 h2; simp [h1, h2] at hv

end Sys2Proof.Machine
end

