-- ==== Sys2Proof/Laws/Queue.lean ====
section
/-! SUPPORT. The two operations of the priority queue (42_tree_builder.md R131, R132) on its canonical list. -/

namespace Sys2Proof.Machine

theorem mem_pqInsert {k x : NodeIdx} {q : List NodeIdx} : x ∈ pqInsert k q ↔ x = k ∨ x ∈ q := by
  induction q with
  | nil => simp [pqInsert]
  | cons y q ih =>
    simp only [pqInsert]
    split
    · simp
    · split
      · rename_i h; subst h; simp
      · simp only [List.mem_cons, ih]; tauto

/-- Insertion keeps the canonical form. -/
theorem pqInsert_sorted {k : NodeIdx} {q : List NodeIdx} (h : q.Pairwise (· < ·)) :
    (pqInsert k q).Pairwise (· < ·) := by
  induction q with
  | nil => simp [pqInsert]
  | cons y q ih =>
    rw [List.pairwise_cons] at h
    simp only [pqInsert]
    split
    · rename_i hk
      rw [List.pairwise_cons, List.pairwise_cons]
      refine ⟨fun a ha => ?_, h.1, h.2⟩
      rcases List.mem_cons.1 ha with rfl | ha
      · exact hk
      · have := h.1 a ha; bv_omega
    · split
      · rw [List.pairwise_cons]; exact h
      · rw [List.pairwise_cons]
        refine ⟨fun a ha => ?_, ih h.2⟩
        rcases mem_pqInsert.1 ha with rfl | ha
        · bv_omega
        · exact h.1 a ha

/-- A new node's index is above all members, so it goes to the end (R131). -/
theorem pqInsert_above {k : NodeIdx} {q : List NodeIdx} (h : ∀ x ∈ q, x < k) : pqInsert k q = q ++ [k] := by
  induction q with
  | nil => rfl
  | cons y q ih =>
    have hy := h y (by simp)
    have h1 : ¬ k < y := by bv_omega
    have h2 : ¬ k = y := by bv_omega
    simp [pqInsert, h1, h2, ih (fun x hx => h x (by simp [hx]))]

/-- The key order of R132, in numbers. -/
theorem keyLt_iff {node : List Node} {a b : NodeIdx} : keyLt node a b = true ↔
    (weightAt node a).toNat < (weightAt node b).toNat ∨
      ((weightAt node a).toNat = (weightAt node b).toNat ∧ a.toNat < b.toNat) := by
  simp only [keyLt, Bool.or_eq_true, decide_eq_true_eq, Bool.and_eq_true, beq_iff_eq]
  constructor
  · rintro (h | ⟨h1, h2⟩)
    · exact .inl h
    · exact .inr ⟨congrArg BitVec.toNat h1, h2⟩
  · rintro (h | ⟨h1, h2⟩)
    · exact .inl h
    · exact .inr ⟨BitVec.eq_of_toNat_eq h1, h2⟩

theorem keyLt_trans {node : List Node} {a b c : NodeIdx} (h1 : keyLt node a b = true)
    (h2 : keyLt node b c = true) : keyLt node a c = true := by
  rw [keyLt_iff] at *; omega

theorem keyLt_total {node : List Node} {a b : NodeIdx} (h : a ≠ b) (hn : keyLt node a b = false) :
    keyLt node b a = true := by
  have hne : a.toNat ≠ b.toNat := fun he => h (BitVec.eq_of_toNat_eq he)
  have : ¬ keyLt node a b = true := by simp [hn]
  rw [keyLt_iff] at *; omega

theorem pqLeast_mem (node : List Node) (best : NodeIdx) (q : List NodeIdx) :
    pqLeast node best q ∈ best :: q := by
  induction q generalizing best with
  | nil => simp [pqLeast]
  | cons x q ih =>
    simp only [pqLeast]
    have := ih (if keyLt node x best then x else best)
    split <;> rename_i h <;> simp [h] at this <;> rcases this with h' | h' <;> simp [h']

theorem pqLeast_least (node : List Node) (best : NodeIdx) (q : List NodeIdx) :
    ∀ y ∈ best :: q, y ≠ pqLeast node best q → keyLt node (pqLeast node best q) y = true := by
  induction q generalizing best with
  | nil => intro y hy hne; simp_all [pqLeast]
  | cons x q ih =>
    intro y hy hne
    simp only [pqLeast] at *
    split at hne
    · rename_i hx
      simp only [hx, if_true]
      rcases List.mem_cons.1 hy with rfl | hy
      · by_cases he : x = pqLeast node x q
        · exact he ▸ hx
        · exact keyLt_trans (ih x x (by simp) he) hx
      · exact ih x y hy hne
    · rename_i hx
      simp only [hx, Bool.false_eq_true, if_false]
      simp only [List.mem_cons] at hy
      rcases hy with rfl | rfl | hy
      · exact ih y y (by simp) hne
      · by_cases hyb : y = best
        · exact ih best y (by simp [hyb]) hne
        · have hb := keyLt_total hyb (by simpa using hx)
          by_cases he : best = pqLeast node best q
          · exact he ▸ hb
          · exact keyLt_trans (ih best best (by simp) he) hb
      · exact ih best y (by simp [hy]) hne

/-- Everything `extract_min` can do (R132): a member, the one of least key, and the set without it. -/
theorem pqExtractMin_some {node : List Node} {q q' : List NodeIdx} {k : NodeIdx}
    (h : pqExtractMin node q = some (k, q')) :
    k ∈ q ∧ q' = q.erase k ∧ ∀ y ∈ q, y ≠ k → keyLt node k y = true := by
  cases q with
  | nil => cases h
  | cons x q =>
    simp only [pqExtractMin, Option.some.injEq, Prod.mk.injEq] at h
    obtain ⟨rfl, rfl⟩ := h
    exact ⟨pqLeast_mem node x q, rfl, pqLeast_least node x q⟩

theorem pqExtractMin_none {node : List Node} {q : List NodeIdx} : pqExtractMin node q = none ↔ q = [] := by
  cases q <;> simp [pqExtractMin]

/-- Extraction keeps the canonical form. -/
theorem pqExtractMin_sorted {node : List Node} {q q' : List NodeIdx} {k : NodeIdx} (hq : q.Pairwise (· < ·))
    (h : pqExtractMin node q = some (k, q')) : q'.Pairwise (· < ·) := by
  rw [(pqExtractMin_some h).2.1]
  exact hq.sublist List.erase_sublist

/-- One round of the loop of R130: the two members of least key leave PQ and their parent joins it. -/
theorem mergeRound_some {e e' : Engine} (h : mergeRound e = some e') :
    ∃ a b, a ∈ e.pq ∧ b ∈ e.pq.erase a ∧ (∀ y ∈ e.pq, y ≠ a → keyLt e.node a y = true) ∧
      (∀ y ∈ e.pq.erase a, y ≠ b → keyLt e.node b y = true) ∧
      e' = mergeNodes a b { e with pq := (e.pq.erase a).erase b } := by
  unfold mergeRound at h
  cases h1 : pqExtractMin e.node e.pq with
  | none => simp [h1] at h
  | some p =>
    obtain ⟨a, q1⟩ := p
    simp only [h1] at h
    obtain ⟨ha, rfl, hla⟩ := pqExtractMin_some h1
    cases h2 : pqExtractMin e.node (e.pq.erase a) with
    | none => simp [h2] at h
    | some p =>
      obtain ⟨b, q2⟩ := p
      simp only [h2, Option.some.injEq] at h
      obtain ⟨hb, rfl, hlb⟩ := pqExtractMin_some h2
      exact ⟨a, b, ha, hb, hla, hlb, h.symm⟩

theorem mergeRound_none {e : Engine} : mergeRound e = none ↔ e.pq.length < 2 := by
  unfold mergeRound
  match h : e.pq with
  | [] => simp [pqExtractMin]
  | [x] => simp [pqExtractMin, pqLeast]
  | x :: y :: q =>
    have h0 : pqExtractMin e.node (x :: y :: q) = some (pqLeast e.node x (y :: q),
      (x :: y :: q).erase (pqLeast e.node x (y :: q))) := rfl
    cases h2 : pqExtractMin e.node ((x :: y :: q).erase (pqLeast e.node x (y :: q))) with
    | none =>
      have := pqExtractMin_none.1 h2
      have hl := congrArg List.length this
      rw [List.length_erase_of_mem (pqLeast_mem e.node x (y :: q))] at hl
      simp at hl
    | some p => simp [h0, h2]

end Sys2Proof.Machine
end

