-- ==== Sys2Proof/Laws/Tree.lean ====
section
/-! SUPPORT. What TBUILD makes of a table: the forest that every round of its loop keeps, and the tree at its
end (42_tree_builder.md R130 to R136, 10_state.md R48). -/

namespace Sys2Proof.Machine

/-! The tree operations touch only the tree. -/

/-- The fields the rounds of TBUILD work on. -/
def SameForest (a b : Engine) : Prop := a.node = b.node ∧ a.nn = b.nn ∧ a.pq = b.pq

/-- Everything but the tree is as it was. -/
def OnlyForest (a b : Engine) : Prop := b = { a with node := b.node, nn := b.nn, pq := b.pq }

theorem onlyForest_refl (a : Engine) : OnlyForest a a := rfl

theorem onlyForest_trans {a b c : Engine} (h1 : OnlyForest a b) (h2 : OnlyForest b c) : OnlyForest a c := by
  unfold OnlyForest at *
  rw [h1] at h2
  exact h2

theorem addNode_only (x : Node) (e : Engine) : OnlyForest e (addNode x e) := rfl

theorem addLeaves_only (t : List FreqEntry) (e : Engine) : OnlyForest e (addLeaves t e) := by
  induction t generalizing e with
  | nil => rfl
  | cons r t ih => exact onlyForest_trans (addNode_only _ e) (ih _)

theorem mergeRound_only {e e' : Engine} (h : mergeRound e = some e') : OnlyForest e e' := by
  obtain ⟨a, b, -, -, -, -, rfl⟩ := mergeRound_some h
  rfl

theorem mergeAll_only (k : Nat) (e : Engine) : OnlyForest e (mergeAll k e) := by
  induction k generalizing e with
  | zero => rfl
  | succ k ih =>
    simp only [mergeAll]
    cases h : mergeRound e with
    | none => rfl
    | some e' => exact onlyForest_trans (mergeRound_only h) (ih e')

theorem addNode_same {x : Node} {a b : Engine} (h : SameForest a b) : SameForest (addNode x a) (addNode x b) := by
  obtain ⟨h1, h2, h3⟩ := h
  simp [SameForest, h1, h2, h3]

theorem addLeaves_same {t : List FreqEntry} {a b : Engine} (h : SameForest a b) :
    SameForest (addLeaves t a) (addLeaves t b) := by
  induction t generalizing a b with
  | nil => exact h
  | cons r t ih => exact ih (addNode_same h)

theorem mergeRound_same {a b : Engine} (h : SameForest a b) :
    (mergeRound a = none ∧ mergeRound b = none) ∨
      ∃ a' b', mergeRound a = some a' ∧ mergeRound b = some b' ∧ SameForest a' b' := by
  obtain ⟨h1, h2, h3⟩ := h
  unfold mergeRound
  rw [h1, h3]
  cases hx : pqExtractMin b.node b.pq with
  | none => simp
  | some p =>
    cases hy : pqExtractMin b.node p.2 with
    | none => simp [hy]
    | some q => simp [hy, SameForest, h2]

theorem mergeAll_same (k : Nat) {a b : Engine} (h : SameForest a b) : SameForest (mergeAll k a) (mergeAll k b) := by
  induction k generalizing a b with
  | zero => exact h
  | succ k ih =>
    simp only [mergeAll]
    rcases mergeRound_same h with ⟨h1, h2⟩ | ⟨a', b', h1, h2, h3⟩
    · simpa [h1, h2] using h
    · simpa [h1, h2] using ih h3

theorem setRoot_same {a b : Engine} (h : SameForest a b) : SameTree (setRoot a) (setRoot b) := by
  cases a
  cases b
  obtain ⟨rfl, rfl, rfl⟩ := h
  unfold setRoot
  dsimp only
  split <;> exact ⟨rfl, rfl, rfl, rfl, rfl⟩

/-- The tree TBUILD makes depends on the table alone (R137). -/
theorem buildTree_same (t : List FreqEntry) (a b : Engine) : SameTree (buildTree t a) (buildTree t b) :=
  setRoot_same (mergeAll_same t.length (addLeaves_same ⟨rfl, rfl, rfl⟩))

/-- TBUILD's frame: beyond the tree it sets TREEV and clears the code table (R130). -/
theorem buildTree_frame (t : List FreqEntry) (e : Engine) :
    buildTree t e = { e with
      node := (buildTree t e).node, nn := (buildTree t e).nn, root := (buildTree t e).root,
      rootv := (buildTree t e).rootv, pq := (buildTree t e).pq, treev := true, ct := [], ctv := false } := by
  have h := onlyForest_trans (addLeaves_only t (clearCodeTable (clearTree e)))
    (mergeAll_only t.length (addLeaves t (clearCodeTable (clearTree e))))
  unfold OnlyForest at h
  unfold buildTree
  rw [h]
  unfold setRoot
  split <;> rfl

/-! The leaves. -/

theorem addLeaves_eq (t : List FreqEntry) (e : Engine) (hn : e.nn.toNat = e.node.length)
    (hb : e.node.length + t.length < 131072) (hq : ∀ k ∈ e.pq, k.toNat < e.node.length) :
    (addLeaves t e).node = e.node ++ t.map leafOf ∧
    (addLeaves t e).nn.toNat = e.node.length + t.length ∧
    (addLeaves t e).pq.map BitVec.toNat = e.pq.map BitVec.toNat ++ List.range' e.node.length t.length ∧
    (e.pq.Pairwise (· < ·) → (addLeaves t e).pq.Pairwise (· < ·)) := by
  induction t generalizing e with
  | nil => simp [addLeaves, hn]
  | cons r t ih =>
    have hpq : pqInsert e.nn e.pq = e.pq ++ [e.nn] :=
      pqInsert_above (fun x hx => by have := hq x hx; rw [BitVec.lt_def]; omega)
    simp only [List.length_cons] at hb
    have h1 : (e.nn + 1).toNat = e.node.length + 1 := by
      rw [BitVec.toNat_add, hn]; simp; omega
    obtain ⟨g1, g2, g3, g4⟩ := ih (addNode (leafOf r) e)
      (by rw [addNode_nn, addNode_node, h1, List.length_append, List.length_singleton]) (by simp; omega)
      (by
        intro k hk
        rw [addNode_pq, hpq, List.mem_append] at hk
        rw [addNode_node, List.length_append, List.length_singleton]
        rcases hk with hk | hk
        · have := hq k hk; omega
        · rw [List.mem_singleton.1 hk]; omega)
    have hstep : addLeaves (r :: t) e = addLeaves t (addNode (leafOf r) e) := rfl
    rw [hstep]
    refine ⟨by simp [g1], by simp [g2]; omega, ?_, fun hs => g4 (by
      rw [addNode_pq]; exact pqInsert_sorted hs)⟩
    rw [g3, addNode_pq, hpq]
    simp [hn, List.range'_succ]

/-! The forest. -/

/-- Node `k` of the arena is the root of this tree. -/
inductive Rep (node : List Node) : Nat → HTree → Prop where
  | leaf {k : Nat} {x : Sym} {w : Weight} : node[k]? = some (.leaf x w) → Rep node k (.leaf k)
  | fork {k : Nat} {w : Weight} {l r : NodeIdx} {a b : HTree} : node[k]? = some (.internal w l r) →
      Rep node l.toNat a → Rep node r.toNat b → Rep node k (.fork a b)

theorem getElem?_append_some {α : Type} {l m : List α} {k : Nat} {x : α} (h : l[k]? = some x) :
    (l ++ m)[k]? = some x := by
  rw [List.getElem?_append_left]
  · exact h
  · exact (List.getElem?_eq_some_iff.1 h).1

theorem Rep.append {node : List Node} (m : List Node) {k : Nat} {t : HTree} (h : Rep node k t) :
    Rep (node ++ m) k t := by
  induction h with
  | leaf h => exact .leaf (getElem?_append_some h)
  | fork h _ _ ih1 ih2 => exact .fork (getElem?_append_some h) ih1 ih2

theorem weightAt_append {node : List Node} (m : List Node) {k : NodeIdx} (h : k.toNat < node.length) :
    weightAt (node ++ m) k = weightAt node k := by
  unfold weightAt
  rw [List.getElem?_append_left h]

/-- What every round of TBUILD's loop keeps, for the table `t`. -/
structure Forest (t : List FreqEntry) (e : Engine) : Prop where
  nn : e.nn.toNat = e.node.length
  size : e.node.length + e.pq.length = 2 * t.length
  low : t.length ≤ e.node.length
  sorted : e.pq.Pairwise (· < ·)
  inRange : ∀ k ∈ e.pq, k.toNat < e.node.length
  leaves : ∀ (i : Nat) (r : FreqEntry), t[i]? = some r → e.node[i]? = some (leafOf r)
  trees : ∃ f : NodeIdx → HTree, (∀ k ∈ e.pq, Rep e.node k.toNat (f k)) ∧
    (e.pq.flatMap (fun k => (f k).leaves)).Perm (List.range t.length)
  weights : (e.pq.map (fun k => (weightAt e.node k).toNat)).sum = (t.map (fun r => r.count.toNat)).sum
  inner : ∀ (k : Nat) (w : Weight) (l r : NodeIdx), e.node[k]? = some (.internal w l r) →
    t.length ≤ k ∧ l.toNat < k ∧ r.toNat < k ∧ l ≠ r ∧
      w.toNat = (weightAt e.node l).toNat + (weightAt e.node r).toNat ∧ keyLt e.node l r = true
  top : ∀ k ∈ e.pq, ∀ p, ¬ isParentOf e.node p k.toNat
  below : ∀ j, j < e.node.length → (∀ k ∈ e.pq, k.toNat ≠ j) → ∃ p, isParentOf e.node p j ∧
    ∀ p', isParentOf e.node p' j → p' = p
  least : ∀ (k : Nat) (w : Weight) (l r : NodeIdx), e.node[k]? = some (.internal w l r) →
    ∀ j : NodeIdx, j.toNat < k → j ≠ l → j ≠ r → (∀ p, isParentOf e.node p j.toNat → k ≤ p) → keyLt e.node r j = true
  upper : ∀ k, t.length ≤ k → k < e.node.length → ∃ w l r, e.node[k]? = some (.internal w l r)

theorem sum_counts_lt (t : List FreqEntry) (h : t.length ≤ 65535) :
    (t.map (fun r => r.count.toNat)).sum < 281474976710656 := by
  have : ∀ t : List FreqEntry, (t.map (fun r => r.count.toNat)).sum ≤ t.length * 4294967295 := by
    intro t
    induction t with
    | nil => simp
    | cons r t ih =>
      have := r.count.isLt
      simp only [List.map_cons, List.sum_cons, List.length_cons]
      omega
  have := this t
  have : t.length * 4294967295 ≤ 65535 * 4294967295 := Nat.mul_le_mul_right _ h
  omega

theorem range_map_sum (t : List FreqEntry) (q : List NodeIdx)
    (hq : q.map BitVec.toNat = List.range t.length) :
    (q.map (fun k => (weightAt (t.map leafOf) k).toNat)).sum = (t.map (fun r => r.count.toNat)).sum := by
  have h : q.map (fun k => (weightAt (t.map leafOf) k).toNat) = t.map (fun r => r.count.toNat) := by
    have hlen : q.length = t.length := by simpa using congrArg List.length hq
    apply List.ext_getElem (by simpa using hlen)
    intro i h1 h2
    simp only [List.length_map] at h1 h2
    have hi : (q[i]).toNat = i := by
      have := congrArg (fun l => l[i]?) hq
      simp [h1, h2] at this
      exact this
    have hc := t[i].count.isLt
    simp only [List.getElem_map, weightAt, hi, List.getElem?_map, List.getElem?_eq_getElem h2, Option.map_some,
      leafOf, Node.weight]
    simp; omega
  rw [h]

/-- The leaves alone are a forest (R130). -/
theorem forest_leaves (t : List FreqEntry) (e : Engine) (ht : t.length ≤ 65535) :
    Forest t (addLeaves t (clearCodeTable (clearTree e))) := by
  obtain ⟨h1, h2, h3, h4⟩ := addLeaves_eq t (clearCodeTable (clearTree e)) rfl (by simp; omega) (by simp)
  simp only [clearCodeTable_node, clearTree_node, List.nil_append, List.length_nil, Nat.zero_add,
    clearCodeTable_pq, clearTree_pq, List.map_nil, ← List.range_eq_range'] at h1 h2 h3 h4
  generalize addLeaves t (clearCodeTable (clearTree e)) = x at *
  have hlen : x.pq.length = t.length := by simpa using congrArg List.length h3
  have hin : ∀ k ∈ x.pq, k.toNat < t.length := by
    intro k hk
    have : k.toNat ∈ x.pq.map BitVec.toNat := List.mem_map_of_mem hk
    rw [h3] at this; simpa using this
  have hnode : ∀ (i : Nat) (n : Node), x.node[i]? = some n → ∃ r, n = leafOf r := by
    intro i n hn
    rw [h1, List.getElem?_map] at hn
    cases hr : t[i]? with
    | none => simp [hr] at hn
    | some r => simp [hr] at hn; exact ⟨r, hn.symm⟩
  have hno : ∀ p j, ¬ isParentOf x.node p j := by
    rintro p j ⟨w, l, r, h, -⟩
    obtain ⟨r', h'⟩ := hnode _ _ h
    cases h'
  refine ⟨by simp [h1, h2], by simp [h1, hlen]; omega, by simp [h1], h4 (by simp), ?_, ?_, ?_, ?_, ?_, ?_, ?_, ?_, ?_⟩
  · intro k hk; rw [h1, List.length_map]; exact hin k hk
  · intro i r hr; rw [h1, List.getElem?_map, hr]; rfl
  · refine ⟨fun k => .leaf k.toNat, fun k hk => ?_, ?_⟩
    · have := hin k hk
      refine .leaf (x := t[k.toNat].sym) (w := t[k.toNat].count.setWidth 48) ?_
      rw [h1, List.getElem?_map, List.getElem?_eq_getElem this]; rfl
    · have : x.pq.flatMap (fun k => (HTree.leaf k.toNat).leaves) = x.pq.map BitVec.toNat := by
        simp [HTree.leaves, List.map_eq_flatMap]
      rw [this, h3]
  · rw [h1]; exact range_map_sum t x.pq h3
  · intro k w l r h
    obtain ⟨r', h'⟩ := hnode _ _ h
    cases h'
  · intro k _ p; exact hno p _
  · intro j hj hq
    exfalso
    have : j ∈ x.pq.map BitVec.toNat := by rw [h3]; simpa [h1] using hj
    obtain ⟨k, hk, rfl⟩ := List.mem_map.1 this
    exact hq k hk rfl
  · intro k w l r h
    obtain ⟨r', h'⟩ := hnode _ _ h
    cases h'
  · intro k h5 h6
    rw [h1, List.length_map] at h6
    omega

/-- Every round keeps the forest (R133, R134). -/
theorem forest_round {t : List FreqEntry} {e e' : Engine} (ht : t.length ≤ 65535) (hf : Forest t e)
    (h : mergeRound e = some e') : Forest t e' := by
  obtain ⟨a, b, ha, hb, hla, hlb, rfl⟩ := mergeRound_some h
  have hnodup : e.pq.Nodup := hf.sorted.imp (fun h => by rw [BitVec.lt_def] at h; exact fun he => by simp [he] at h)
  have hperm1 : e.pq.Perm (a :: e.pq.erase a) := List.perm_cons_erase ha
  have hperm2 : (e.pq.erase a).Perm (b :: (e.pq.erase a).erase b) := List.perm_cons_erase hb
  have hperm : e.pq.Perm (a :: b :: (e.pq.erase a).erase b) := hperm1.trans (hperm2.cons a)
  have hba : b ∈ e.pq := List.mem_of_mem_erase hb
  have hne : a ≠ b := by
    rintro rfl
    have := hperm.nodup_iff.1 hnodup
    simp at this
  have hsub : ∀ k ∈ (e.pq.erase a).erase b, k ∈ e.pq := fun k hk => List.mem_of_mem_erase (List.mem_of_mem_erase hk)
  have hnotab : ∀ k ∈ (e.pq.erase a).erase b, k ≠ a ∧ k ≠ b := by
    intro k hk
    have := hperm.nodup_iff.1 hnodup
    simp only [List.nodup_cons, List.mem_cons, not_or] at this
    exact ⟨fun h => this.1.2 (h ▸ hk), fun h => this.2.1 (h ▸ hk)⟩
  generalize hq : (e.pq.erase a).erase b = q at *
  have hlenq : e.pq.length = q.length + 2 := by rw [hperm.length_eq]; rfl
  have hsize := hf.size
  have hbound : e.node.length < 131072 := by omega
  have hqs : q.Pairwise (· < ·) := by
    rw [← hq]; exact hf.sorted.sublist (List.erase_sublist.trans List.erase_sublist)
  have hins : pqInsert e.nn q = q ++ [e.nn] := pqInsert_above (fun x hx => by
    have := hf.inRange x (hsub x hx); have := hf.nn; rw [BitVec.lt_def]; omega)
  have hnn : (e.nn + 1).toNat = e.node.length + 1 := by
    rw [BitVec.toNat_add, hf.nn]; simp; omega
  have hra := hf.inRange a ha
  have hrb := hf.inRange b hba
  -- the weights do not wrap (R140)
  have hsum := hf.weights
  rw [(hperm.map _).sum_eq] at hsum
  simp only [List.map_cons, List.sum_cons] at hsum
  have hlt := sum_counts_lt t ht
  have hw : (weightAt e.node a + weightAt e.node b).toNat =
      (weightAt e.node a).toNat + (weightAt e.node b).toNat := by
    rw [BitVec.toNat_add]
    apply Nat.mod_eq_of_lt
    omega
  let new : Node := .internal (weightAt e.node a + weightAt e.node b) a b
  have hget : ∀ k, k < e.node.length → (e.node ++ [new])[k]? = e.node[k]? :=
    fun k hk => List.getElem?_append_left hk
  have hlast : (e.node ++ [new])[e.node.length]? = some new := by simp
  have hinv : ∀ k n, (e.node ++ [new])[k]? = some n →
      e.node[k]? = some n ∨ (k = e.node.length ∧ n = new) := by
    intro k n hk
    by_cases hlt : k < e.node.length
    · rw [hget k hlt] at hk; exact .inl hk
    · have : k < (e.node ++ [new]).length := (List.getElem?_eq_some_iff.1 hk).1
      simp only [List.length_append, List.length_singleton] at this
      have hk' : k = e.node.length := by omega
      subst hk'
      rw [hlast] at hk
      exact .inr ⟨rfl, (Option.some.inj hk).symm⟩
  have hparent : ∀ p j, isParentOf (e.node ++ [new]) p j ↔
      isParentOf e.node p j ∨ (p = e.node.length ∧ (a.toNat = j ∨ b.toNat = j)) := by
    intro p j
    constructor
    · rintro ⟨w, l, r, h, hj⟩
      rcases hinv _ _ h with h | ⟨rfl, hn⟩
      · exact .inl ⟨w, l, r, h, hj⟩
      · obtain ⟨-, rfl, rfl⟩ := Node.internal.inj hn; exact .inr ⟨rfl, hj⟩
    · rintro (⟨w, l, r, h, hj⟩ | ⟨rfl, hj⟩)
      · exact ⟨w, l, r, getElem?_append_some h, hj⟩
      · exact ⟨_, a, b, hlast, hj⟩
  have hkeys : ∀ x y : NodeIdx, x.toNat < e.node.length → y.toNat < e.node.length →
      keyLt (e.node ++ [new]) x y = keyLt e.node x y := by
    intro x y hx hy
    simp only [keyLt, weightAt_append [new] hx, weightAt_append [new] hy]
  refine ⟨?_, ?_, ?_, ?_, ?_, ?_, ?_, ?_, ?_, ?_, ?_, ?_, ?_⟩
  · simp only [mergeNodes_nn, mergeNodes_node, List.length_append, List.length_singleton]; exact hnn
  · simp only [mergeNodes_node, mergeNodes_pq, hins, List.length_append, List.length_singleton]; omega
  · have := hf.low
    simp only [mergeNodes_node, List.length_append, List.length_singleton]; omega
  · simp only [mergeNodes_pq]; exact pqInsert_sorted hqs
  · simp only [mergeNodes_node, mergeNodes_pq, hins, List.mem_append, List.mem_singleton, List.length_append,
      List.length_singleton]
    rintro k (hk | rfl)
    · have := hf.inRange k (hsub k hk); omega
    · have := hf.nn; omega
  · intro i r hr
    exact getElem?_append_some (hf.leaves i r hr)
  · obtain ⟨f, hrep, hleaves⟩ := hf.trees
    refine ⟨fun k => if k = e.nn then .fork (f a) (f b) else f k, ?_, ?_⟩
    · simp only [mergeNodes_node, mergeNodes_pq, hins, List.mem_append, List.mem_singleton]
      rintro k (hk | rfl)
      · have hlt := hf.inRange k (hsub k hk)
        have hkn : k ≠ e.nn := fun h => by have := hf.nn; rw [h] at hlt; omega
        simp only [hkn, if_false]
        exact (hrep k (hsub k hk)).append _
      · simp only [if_true, hf.nn]
        exact .fork hlast ((hrep a ha).append _) ((hrep b hba).append _)
    · simp only [mergeNodes_pq, hins, List.flatMap_append, List.flatMap_singleton, if_true, HTree.leaves]
      have hq' : q.flatMap (fun k => (if k = e.nn then HTree.fork (f a) (f b) else f k).leaves) =
          q.flatMap (fun k => (f k).leaves) := by
        apply List.flatMap_congr
        intro k hk
        have hlt := hf.inRange k (hsub k hk)
        have hkn : k ≠ e.nn := fun h => by have := hf.nn; rw [h] at hlt; omega
        simp [hkn]
      rw [hq']
      refine List.Perm.trans ?_ hleaves
      refine List.Perm.trans ?_ (hperm.flatMap_right _).symm
      simp only [List.flatMap_cons]
      rw [← List.append_assoc (f a).leaves]
      exact List.perm_append_comm
  · simp only [mergeNodes_node, mergeNodes_pq, hins, List.map_append, List.map_cons, List.map_nil, List.sum_append,
      List.sum_cons, List.sum_nil]
    have hq' : q.map (fun k => (weightAt (e.node ++ [new]) k).toNat) = q.map (fun k => (weightAt e.node k).toNat) := by
      apply List.map_congr_left
      intro k hk
      rw [weightAt_append [new] (hf.inRange k (hsub k hk))]
    have hnew : weightAt (e.node ++ [new]) e.nn = weightAt e.node a + weightAt e.node b := by
      unfold weightAt
      rw [hf.nn, hlast]; rfl
    rw [hq', hnew, hw, ← hsum]; omega
  · intro k w l r hk
    simp only [mergeNodes_node] at hk ⊢
    rcases hinv k _ hk with hk | ⟨rfl, hn⟩
    · obtain ⟨h1, h2, h3, h4, h5, h6⟩ := hf.inner k w l r hk
      have hkl : k < e.node.length := (List.getElem?_eq_some_iff.1 hk).1
      refine ⟨h1, h2, h3, h4, ?_, ?_⟩
      · rw [weightAt_append [new] (by omega), weightAt_append [new] (by omega)]; exact h5
      · rw [hkeys l r (by omega) (by omega)]; exact h6
    · obtain ⟨rfl, rfl, rfl⟩ := Node.internal.inj hn
      refine ⟨hf.low, hra, hrb, hne, ?_, ?_⟩
      · rw [weightAt_append [new] hra, weightAt_append [new] hrb]; exact hw
      · rw [hkeys _ _ hra hrb]; exact hla _ hba (Ne.symm hne)
  · simp only [mergeNodes_node, mergeNodes_pq, hins, List.mem_append, List.mem_singleton]
    rintro k hk p hp
    rw [hparent] at hp
    rcases hk with hk | rfl
    · rcases hp with hp | ⟨-, hp⟩
      · exact hf.top k (hsub k hk) p hp
      · obtain ⟨hna, hnb⟩ := hnotab k hk
        rcases hp with hp | hp
        · exact hna (BitVec.eq_of_toNat_eq hp.symm)
        · exact hnb (BitVec.eq_of_toNat_eq hp.symm)
    · rcases hp with ⟨w, l, r, h, hj⟩ | ⟨-, hp⟩
      · have := hf.inner p w l r h
        have hkl : p < e.node.length := (List.getElem?_eq_some_iff.1 h).1
        have := hf.nn
        omega
      · have := hf.nn; omega
  · simp only [mergeNodes_node, mergeNodes_pq, hins, List.length_append, List.length_singleton, List.mem_append,
      List.mem_singleton]
    intro j hj hk
    have hjn : j ≠ e.node.length := fun h => hk e.nn (.inr rfl) (by rw [hf.nn, h])
    have hjl : j < e.node.length := by omega
    by_cases hab : a.toNat = j ∨ b.toNat = j
    · refine ⟨e.node.length, (hparent _ _).2 (.inr ⟨rfl, hab⟩), fun p' hp' => ?_⟩
      rcases (hparent _ _).1 hp' with hp' | ⟨hp', -⟩
      · exfalso
        rcases hab with rfl | rfl
        · exact hf.top a ha p' hp'
        · exact hf.top b hba p' hp'
      · exact hp'
    · have : ∀ k ∈ e.pq, k.toNat ≠ j := by
        intro k hkm hkj
        rcases List.mem_cons.1 (hperm.mem_iff.1 hkm) with rfl | hkm'
        · exact hab (.inl hkj)
        · rcases List.mem_cons.1 hkm' with rfl | hkm''
          · exact hab (.inr hkj)
          · exact hk k (.inl hkm'') hkj
      obtain ⟨p, hp, hu⟩ := hf.below j hjl this
      refine ⟨p, (hparent _ _).2 (.inl hp), fun p' hp' => ?_⟩
      rcases (hparent _ _).1 hp' with hp' | ⟨-, hp'⟩
      · exact hu p' hp'
      · exact absurd hp' hab
  · intro k w l r hk j hj hjl hjr hpar
    simp only [mergeNodes_node] at hk hpar ⊢
    rcases hinv k _ hk with hk | ⟨rfl, hn⟩
    · have hkl : k < e.node.length := (List.getElem?_eq_some_iff.1 hk).1
      have hi := hf.inner k w l r hk
      rw [hkeys r j (by omega) (by omega)]
      exact hf.least k w l r hk j hj hjl hjr (fun p hp => hpar p ((hparent _ _).2 (.inl hp)))
    · obtain ⟨-, rfl, rfl⟩ := Node.internal.inj hn
      rw [hkeys _ j hrb hj]
      have hjq : j ∈ e.pq := by
        by_contra hjq
        obtain ⟨p, hp, -⟩ := hf.below j.toNat hj (fun k hk hkj => hjq (BitVec.eq_of_toNat_eq hkj ▸ hk))
        have := hpar p ((hparent _ _).2 (.inl hp))
        obtain ⟨w', l', r', h', -⟩ := hp
        have := (List.getElem?_eq_some_iff.1 h').1
        omega
      exact hlb j ((List.mem_erase_of_ne hjl).2 hjq) hjr
  · intro k hk1 hk2
    simp only [mergeNodes_node, List.length_append, List.length_singleton] at hk2
    by_cases hlt : k < e.node.length
    · obtain ⟨w, l, r, h⟩ := hf.upper k hk1 hlt
      exact ⟨w, l, r, getElem?_append_some h⟩
    · obtain rfl : k = e.node.length := by omega
      exact ⟨_, a, b, hlast⟩

/-- The whole loop keeps the forest and ends with fewer than two members (R134). -/
theorem forest_all {t : List FreqEntry} (ht : t.length ≤ 65535) (k : Nat) {e : Engine} (hf : Forest t e)
    (hk : e.pq.length ≤ k + 1) : Forest t (mergeAll k e) ∧ (mergeAll k e).pq.length < 2 := by
  induction k generalizing e with
  | zero => exact ⟨hf, by simp only [mergeAll]; omega⟩
  | succ k ih =>
    simp only [mergeAll]
    cases h : mergeRound e with
    | none => exact ⟨hf, mergeRound_none.1 h⟩
    | some e' =>
      have hf' := forest_round ht hf h
      have h1 := hf.size
      have h2 := hf'.size
      obtain ⟨a, b, -, -, -, -, rfl⟩ := mergeRound_some h
      simp only [mergeNodes_node, List.length_append, List.length_singleton] at h2
      exact ih hf' (by omega)

theorem mergeAll_pq_ne_nil {t : List FreqEntry} {e : Engine} (hf : Forest t e) (k : Nat) (h : e.pq ≠ []) :
    (mergeAll k e).pq ≠ [] := by
  induction k generalizing e with
  | zero => exact h
  | succ k ih =>
    simp only [mergeAll]
    cases hm : mergeRound e with
    | none => exact h
    | some e' =>
      obtain ⟨a, b, -, -, -, -, rfl⟩ := mergeRound_some hm
      have hne : pqInsert e.nn ((e.pq.erase a).erase b) ≠ [] := fun hn => by
        have : e.nn ∈ pqInsert e.nn ((e.pq.erase a).erase b) := mem_pqInsert.2 (.inl rfl)
        simp [hn] at this
      clear ih
      have : ∀ k (x : Engine), x.pq ≠ [] → (mergeAll k x).pq ≠ [] := by
        intro k
        induction k with
        | zero => exact fun x hx => hx
        | succ k ih =>
          intro x hx
          simp only [mergeAll]
          cases hm : mergeRound x with
          | none => exact hx
          | some x' =>
            obtain ⟨a, b, -, -, -, -, rfl⟩ := mergeRound_some hm
            exact ih _ (fun hn => by
              have : x.nn ∈ pqInsert x.nn ((x.pq.erase a).erase b) := mem_pqInsert.2 (.inl rfl)
              simp only [mergeNodes_pq] at hn
              simp [hn] at this)
      exact this k _ hne

/-- The tree of a table with at least one entry: the forest of one tree, whose root is ROOT (R134). -/
theorem buildTree_spec (t : List FreqEntry) (e : Engine) (ht : t.length ≤ 65535) (hne : t ≠ []) :
    Forest t (buildTree t e) ∧ (buildTree t e).pq = [(buildTree t e).root] ∧ (buildTree t e).rootv = true := by
  have hf0 := forest_leaves t e ht
  have hlen : (addLeaves t (clearCodeTable (clearTree e))).pq.length = t.length := by
    obtain ⟨-, -, h3, -⟩ := addLeaves_eq t (clearCodeTable (clearTree e)) rfl (by simp; omega) (by simp)
    simpa using congrArg List.length h3
  obtain ⟨hf, h2⟩ := forest_all ht t.length hf0 (by omega)
  have h1 := mergeAll_pq_ne_nil hf0 t.length (fun h => by
    rw [h] at hlen; exact hne (List.eq_nil_of_length_eq_zero hlen.symm))
  unfold buildTree
  generalize mergeAll t.length (addLeaves t (clearCodeTable (clearTree e))) = x at *
  match hp : x.pq, h1, h2 with
  | [k], _, _ =>
    have hs : setRoot x = { x with root := k, rootv := true, treev := true } := by simp [setRoot, hp]
    rw [hs]
    exact ⟨⟨hf.nn, hf.size, hf.low, hf.sorted, hf.inRange, hf.leaves, hf.trees, hf.weights, hf.inner, hf.top, hf.below,
      hf.least, hf.upper⟩,
      hp, rfl⟩

/-- The tree of the empty table: none (R136). -/
theorem buildTree_nil (e : Engine) :
    buildTree [] e = { e with
      node := [], nn := 0, root := 0, rootv := false, pq := [], treev := true, ct := [], ctv := false } := rfl

/-- The forest of any table at the end of TBUILD, the empty one too. -/
theorem buildTree_forest (t : List FreqEntry) (e : Engine) (ht : t.length ≤ 65535) : Forest t (buildTree t e) := by
  cases t with
  | nil =>
    rw [buildTree_nil]
    exact ⟨rfl, rfl, by simp, by simp, by simp, by simp, ⟨fun _ => .leaf 0, by simp, by simp⟩, rfl, by simp, by simp,
      by simp, by simp, by simp⟩
  | cons r t => exact (buildTree_spec (r :: t) e ht (by simp)).1

/-- The root is the last node made (10_state.md R24). -/
theorem buildTree_root (t : List FreqEntry) (e : Engine) (ht : t.length ≤ 65535) (hne : t ≠ []) :
    (buildTree t e).root.toNat = 2 * t.length - 2 ∧ (buildTree t e).node.length = 2 * t.length - 1 := by
  obtain ⟨hf, hq, -⟩ := buildTree_spec t e ht hne
  have hsize := hf.size
  have hpos : 0 < t.length := List.length_pos_iff.2 hne
  rw [hq, List.length_singleton] at hsize
  refine ⟨?_, by omega⟩
  by_contra hroot
  obtain ⟨p, ⟨w, l, r, h, hlr⟩, -⟩ := hf.below (2 * t.length - 2) (by omega) (by rw [hq]; simpa using hroot)
  have := hf.inner p w l r h
  have := (List.getElem?_eq_some_iff.1 h).1
  omega

end Sys2Proof.Machine
end

