-- ==== Sys2Proof/Laws/Codes.lean ====
section
/-! SUPPORT. What CWALK makes of a tree: the paths of the leaves (43_code_table.md R150, R151). -/

namespace Sys2Proof.Machine

/-- The leaves of a tree with their paths, left on 0 and right on 1 (R151). -/
def HTree.paths : HTree → List (Nat × Bits)
  | .leaf i => [(i, [])]
  | .fork l r => l.paths.map (fun p => (p.1, false :: p.2)) ++ r.paths.map (fun p => (p.1, true :: p.2))

theorem HTree.paths_fst (t : HTree) : t.paths.map Prod.fst = t.leaves := by
  induction t with
  | leaf i => rfl
  | fork l r ihl ihr => simp [HTree.paths, HTree.leaves, ← ihl, ← ihr, Function.comp_def]

theorem HTree.leaves_pos (t : HTree) : 0 < t.leaves.length := by
  induction t with
  | leaf i => simp [HTree.leaves]
  | fork l r ihl ihr => simp [HTree.leaves]; omega

/-- A path is shorter than the tree has leaves (R155). -/
theorem HTree.path_length {t : HTree} {p : Nat × Bits} (h : p ∈ t.paths) : p.2.length + 1 ≤ t.leaves.length := by
  induction t generalizing p with
  | leaf i => simp [HTree.paths] at h; simp [h, HTree.leaves]
  | fork l r ihl ihr =>
    have hl := l.leaves_pos
    have hr := r.leaves_pos
    simp only [HTree.paths, List.mem_append, List.mem_map] at h
    simp only [HTree.leaves, List.length_append]
    rcases h with ⟨q, hq, rfl⟩ | ⟨q, hq, rfl⟩
    · have := ihl hq; simp only [List.length_cons]; omega
    · have := ihr hq; simp only [List.length_cons]; omega

/-- No path is a prefix of another leaf's (R154). -/
theorem HTree.paths_prefix {t : HTree} {p q : Nat × Bits} (hp : p ∈ t.paths) (hq : q ∈ t.paths)
    (h : p.2 <+: q.2) : p = q := by
  induction t generalizing p q with
  | leaf i => simp [HTree.paths] at hp hq; rw [hp, hq]
  | fork l r ihl ihr =>
    simp only [HTree.paths, List.mem_append, List.mem_map] at hp hq
    rcases hp with ⟨p', hp, rfl⟩ | ⟨p', hp, rfl⟩ <;> rcases hq with ⟨q', hq, rfl⟩ | ⟨q', hq, rfl⟩ <;>
      simp only [List.cons_prefix_cons, Bool.false_eq_true, Bool.true_eq_false, false_and, true_and] at h
    · rw [ihl hp hq h]
    · rw [ihr hp hq h]

/-- With two leaves or more no path is empty (R154). -/
theorem HTree.path_ne_nil {t : HTree} {p : Nat × Bits} (h : p ∈ t.paths) (h2 : 2 ≤ t.leaves.length) : p.2 ≠ [] := by
  cases t with
  | leaf i => simp [HTree.leaves] at h2
  | fork l r =>
    simp only [HTree.paths, List.mem_append, List.mem_map] at h
    rcases h with ⟨q, -, rfl⟩ | ⟨q, -, rfl⟩ <;> simp

/-- A leaf's path leads to the leaf (R151). -/
theorem Rep.follow {node : List Node} {k : NodeIdx} {t : HTree} (h : Rep node k.toNat t) {p : Nat × Bits}
    (hp : p ∈ t.paths) : ∃ j, followPath node k p.2 = some j ∧ j.toNat = p.1 := by
  generalize hk : k.toNat = n at h
  induction h generalizing k p with
  | leaf h => simp [HTree.paths] at hp; subst hp; exact ⟨k, rfl, hk⟩
  | fork h _ _ ihl ihr =>
    simp only [HTree.paths, List.mem_append, List.mem_map] at hp
    rcases hp with ⟨q, hq, rfl⟩ | ⟨q, hq, rfl⟩
    · obtain ⟨j, h1, h2⟩ := ihl hq rfl
      exact ⟨j, by simpa [followPath, hk, h] using h1, h2⟩
    · obtain ⟨j, h1, h2⟩ := ihr hq rfl
      exact ⟨j, by simpa [followPath, hk, h] using h1, h2⟩

/-- Everything the walk of a tree does: it ends, and binds each leaf's slot to its path (R150). -/
theorem walk_spec {node : List Node} {k : NodeIdx} {t : HTree} (h : Rep node k.toNat t) {d : Nat} {path : Bits}
    {cs : List (Option CodeEntry)} (hd : t.leaves.length ≤ d) (hc : ∀ i ∈ t.leaves, i < cs.length)
    (hn : t.leaves.Nodup) :
    ∃ c', walk node d k path cs = some c' ∧ c'.length = cs.length ∧ (∀ i, i ∉ t.leaves → c'[i]? = cs[i]?) ∧
      ∀ p ∈ t.paths, ∀ x w, node[p.1]? = some (.leaf x w) → c'[p.1]? = some (some ⟨x, path ++ p.2⟩) := by
  generalize hk : k.toNat = n at h
  induction h generalizing k d path cs with
  | leaf h =>
    rename_i k' x w
    subst hk
    simp only [HTree.leaves, List.length_singleton, List.mem_singleton, forall_eq] at hd hc
    obtain ⟨d, rfl⟩ : ∃ d', d = d' + 1 := ⟨d - 1, by omega⟩
    refine ⟨cs.set k.toNat (some ⟨x, path⟩), by simp [walk, h, hc], by simp, ?_, ?_⟩
    · intro i hi
      simp only [HTree.leaves, List.mem_singleton] at hi
      simp [Ne.symm hi]
    · simp only [HTree.paths, List.mem_singleton, forall_eq, List.append_nil]
      intro x' w' h'
      rw [h] at h'; cases h'
      simp [hc]
  | fork h h1 h2 ihl ihr =>
    rename_i k' w l r a b
    subst hk
    have ha := a.leaves_pos
    have hb := b.leaves_pos
    simp only [HTree.leaves, List.length_append, List.mem_append] at hd hc
    simp only [HTree.leaves, List.nodup_append] at hn
    obtain ⟨d, rfl⟩ : ∃ d', d = d' + 1 := ⟨d - 1, by omega⟩
    obtain ⟨c1, e1, l1, o1, p1⟩ := ihl (k := l) (path := path ++ [false]) (d := d) (cs := cs) (by omega)
      (fun i hi => hc i (.inl hi)) hn.1 rfl
    obtain ⟨c2, e2, l2, o2, p2⟩ := ihr (k := r) (path := path ++ [true]) (d := d) (cs := c1) (by omega)
      (fun i hi => l1 ▸ hc i (.inr hi)) hn.2.1 rfl
    refine ⟨c2, by simp [walk, h, e1, e2], by rw [l2, l1], ?_, ?_⟩
    · intro i hi
      simp only [HTree.leaves, List.mem_append, not_or] at hi
      rw [o2 i hi.2, o1 i hi.1]
    · intro p hp x w' hx
      simp only [HTree.paths, List.mem_append, List.mem_map] at hp
      rcases hp with ⟨q, hq, rfl⟩ | ⟨q, hq, rfl⟩
      · have hqa : q.1 ∈ a.leaves := by rw [← a.paths_fst]; exact List.mem_map_of_mem hq
        have : q.1 ∉ b.leaves := fun hqb => hn.2.2 _ hqa _ hqb rfl
        rw [o2 _ this]
        simpa using p1 q hq x w' hx
      · simpa using p2 q hq x w' hx

theorem filledSlots_some {cs : List (Option CodeEntry)} {c' : List CodeEntry} :
    filledSlots cs = some c' ↔ cs = c'.map some := by
  induction cs generalizing c' with
  | nil => cases c' <;> simp [filledSlots]
  | cons x cs ih =>
    cases x with
    | none => cases c' <;> simp [filledSlots]
    | some x =>
      simp only [filledSlots, Option.map_eq_some_iff, ih]
      cases c' with
      | nil => simp
      | cons y c' => simp [and_comm, eq_comm]

theorem filledSlots_complete {cs : List (Option CodeEntry)} (h : ∀ i, i < cs.length → ∃ x, cs[i]? = some (some x)) :
    ∃ c', filledSlots cs = some c' := by
  induction cs with
  | nil => exact ⟨[], rfl⟩
  | cons x cs ih =>
    obtain ⟨y, hy⟩ := h 0 (by simp)
    simp only [List.getElem?_cons_zero, Option.some.injEq] at hy
    subst hy
    obtain ⟨c', hc'⟩ := ih (fun i hi => by simpa using h (i + 1) (by simp; omega))
    exact ⟨y :: c', by simp [filledSlots, hc']⟩

/-- The code table of the tree of a table (R150): entry `i` has the symbol of entry `i` of the table and the path
of leaf `i`. -/
theorem codesOfTree_forest {t : List FreqEntry} {e : Engine} (hf : Forest t e) (hq : e.pq = [e.root])
    (hv : e.rootv = true) (hn : e.n.toNat = t.length) :
    ∃ (cs : List CodeEntry) (tree : HTree), codesOfTree e = some cs ∧ cs.length = t.length ∧
      Rep e.node e.root.toNat tree ∧ tree.leaves.Perm (List.range t.length) ∧
      ∀ p ∈ tree.paths, ∃ r, t[p.1]? = some r ∧ cs[p.1]? = some ⟨r.sym, p.2⟩ := by
  obtain ⟨f, hrep, hperm⟩ := hf.trees
  rw [hq] at hrep hperm
  simp only [List.flatMap_cons, List.flatMap_nil, List.append_nil] at hperm
  have hr := hrep e.root (by simp)
  have hnd : (f e.root).leaves.Nodup := hperm.nodup_iff.2 List.nodup_range
  have hmem : ∀ i, i ∈ (f e.root).leaves ↔ i < t.length := fun i => by rw [hperm.mem_iff]; simp
  have hlen : (f e.root).leaves.length = t.length := by rw [hperm.length_eq]; simp
  obtain ⟨cs, hw, hcl, -, hcp⟩ := walk_spec hr (d := e.node.length) (path := [])
    (cs := List.replicate e.n.toNat none) (by rw [hlen]; exact hf.low)
    (fun i hi => by rw [List.length_replicate, hn]; exact (hmem i).1 hi) hnd
  rw [List.length_replicate, hn] at hcl
  have hslot : ∀ p ∈ (f e.root).paths, ∃ r, t[p.1]? = some r ∧ cs[p.1]? = some (some ⟨r.sym, p.2⟩) := by
    intro p hp
    have hi : p.1 ∈ (f e.root).leaves := by rw [← HTree.paths_fst]; exact List.mem_map_of_mem hp
    have hit := (hmem _).1 hi
    refine ⟨t[p.1], List.getElem?_eq_getElem hit, ?_⟩
    have hl := hf.leaves p.1 t[p.1] (List.getElem?_eq_getElem hit)
    simpa [leafOf] using hcp p hp _ _ hl
  obtain ⟨c', hc'⟩ := filledSlots_complete (cs := cs) (fun i hi => by
    have hi' : i ∈ (f e.root).leaves := (hmem i).2 (by omega)
    rw [← HTree.paths_fst, List.mem_map] at hi'
    obtain ⟨p, hp, rfl⟩ := hi'
    obtain ⟨r, -, hr⟩ := hslot p hp
    exact ⟨_, hr⟩)
  have hcc := filledSlots_some.1 hc'
  refine ⟨c', f e.root, by simp [codesOfTree, hv, hw, hc'], ?_, hr, hperm, ?_⟩
  · rw [← hcl, hcc]; simp
  · intro p hp
    obtain ⟨r, h1, h2⟩ := hslot p hp
    refine ⟨r, h1, ?_⟩
    rw [hcc, List.getElem?_map] at h2
    cases hx : c'[p.1]? with
    | none => simp [hx] at h2
    | some x => simp [hx] at h2; rw [h2]

theorem codesOfTree_empty {e : Engine} (hv : e.rootv = false) (hn : e.n = 0) : codesOfTree e = some [] := by
  simp [codesOfTree, hv, hn, filledSlots]

/-- A code table's symbols are symbols of the arena's leaves. -/
theorem walk_syms {node : List Node} {d : Nat} {k : NodeIdx} {path : Bits} {cs c' : List (Option CodeEntry)}
    (h : walk node d k path cs = some c') (x : CodeEntry) (hx : some x ∈ c') :
    some x ∈ cs ∨ ∃ w, Node.leaf x.sym w ∈ node := by
  induction d generalizing k path cs c' with
  | zero => cases h
  | succ d ih =>
    simp only [walk] at h
    split at h
    · cases h
    · rename_i s w hn
      split at h
      · cases h
        rcases List.mem_or_eq_of_mem_set hx with hx | hx
        · exact .inl hx
        · cases hx; exact .inr ⟨w, List.mem_of_getElem? hn⟩
      · cases h
    · rename_i w l r hn
      cases h1 : walk node d l (path ++ [false]) cs with
      | none => simp [h1] at h
      | some c1 =>
        simp only [h1] at h
        rcases ih h hx with hx | hx
        · exact ih h1 hx
        · exact .inr hx

end Sys2Proof.Machine
end

