-- ==== Sys2Proof/Laws/Data.lean ====
section
/-! SUPPORT. Bits, bytes and integers: byte_bits and bits_byte are inverse (20_memory.md R62), a bitstring of
whole bytes is its bytes, be16 and be32 are read back by from_be (R63); the shape of the payload section. -/

namespace Sys2Proof.Machine

theorem byteBits_bitsByte (s0 s1 s2 s3 s4 s5 s6 s7 : Bool) :
    byteBits (bitsByte s0 s1 s2 s3 s4 s5 s6 s7) = [s0, s1, s2, s3, s4, s5, s6, s7] := by
  revert s0 s1 s2 s3 s4 s5 s6 s7; decide

@[simp] theorem byteBits_length (b : Byte) : (byteBits b).length = 8 := rfl

theorem bytesOfBits_byteBits_append (b : Byte) (rest : Bits) :
    bytesOfBits (byteBits b ++ rest) = b :: bytesOfBits rest := by
  have h : bitsByte (b.getLsbD 7) (b.getLsbD 6) (b.getLsbD 5) (b.getLsbD 4) (b.getLsbD 3) (b.getLsbD 2)
      (b.getLsbD 1) (b.getLsbD 0) = b := by revert b; decide
  simp only [byteBits, List.cons_append, List.nil_append, bytesOfBits, h]

@[simp] theorem bitsOfBytes_nil : bitsOfBytes [] = [] := rfl

@[simp] theorem bitsOfBytes_cons (b : Byte) (y : List Byte) :
    bitsOfBytes (b :: y) = byteBits b ++ bitsOfBytes y := rfl

@[simp] theorem bitsOfBytes_append (x y : List Byte) :
    bitsOfBytes (x ++ y) = bitsOfBytes x ++ bitsOfBytes y := by simp [bitsOfBytes]

@[simp] theorem bitsOfBytes_length (y : List Byte) : (bitsOfBytes y).length = 8 * y.length := by
  induction y with
  | nil => rfl
  | cons b y ih => simp [ih]; omega

@[simp] theorem bytesOfBits_bitsOfBytes (y : List Byte) : bytesOfBits (bitsOfBytes y) = y := by
  induction y with
  | nil => rfl
  | cons b y ih => simp [bytesOfBits_byteBits_append, ih]

theorem bitsOfBytes_bytesOfBits (s : Bits) (h : s.length % 8 = 0) : bitsOfBytes (bytesOfBits s) = s := by
  induction s using bytesOfBits.induct with
  | case1 s0 s1 s2 s3 s4 s5 s6 s7 rest ih =>
    have hr : rest.length % 8 = 0 := by simp only [List.length_cons] at h; omega
    simp [bytesOfBits, byteBits_bitsByte, ih hr]
  | case2 s hs =>
    have : s = [] := by
      match s, hs, h with
      | [], _, _ => rfl
      | [_], _, h | [_, _], _, h | [_, _, _], _, h | [_, _, _, _], _, h | [_, _, _, _, _], _, h
      | [_, _, _, _, _, _], _, h | [_, _, _, _, _, _, _], _, h => simp at h
      | s0 :: s1 :: s2 :: s3 :: s4 :: s5 :: s6 :: s7 :: r, hs, _ => exact absurd rfl (hs s0 s1 s2 s3 s4 s5 s6 s7 r)
    subst this; rfl

/-- A concatenation of bit vectors as a number (R63's sum, one step of it). -/
theorem append_toNat {m n : Nat} (x : BitVec m) (y : BitVec n) : (x ++ y).toNat = x.toNat * 2 ^ n + y.toNat := by
  rw [BitVec.toNat_append, ← Nat.shiftLeft_add_eq_or_of_lt y.isLt, Nat.shiftLeft_eq]

/-- A field of a bit vector as a number. -/
theorem extract_toNat {w : Nat} (x : BitVec w) (s l : Nat) : (x.extractLsb' s l).toNat = x.toNat / 2 ^ s % 2 ^ l := by
  rw [BitVec.extractLsb'_toNat, Nat.shiftRight_eq_div_pow]

theorem fromBe16_toNat (a b : Byte) : (fromBe16 a b).toNat = a.toNat * 256 + b.toNat :=
  append_toNat a b

theorem fromBe32_toNat (a b c d : Byte) :
    (fromBe32 a b c d).toNat = a.toNat * 16777216 + b.toNat * 65536 + c.toNat * 256 + d.toNat := by
  have h : (fromBe32 a b c d).toNat = ((a ++ b ++ c ++ d : BitVec (8 + 8 + 8 + 8))).toNat := rfl
  rw [h, append_toNat, append_toNat, append_toNat]; omega

theorem fromBe16_be16 (v : BitVec 16) : fromBe16 (v.extractLsb' 8 8) (v.extractLsb' 0 8) = v := by
  apply BitVec.eq_of_toNat_eq
  rw [fromBe16_toNat, extract_toNat, extract_toNat]
  have := v.isLt; omega

theorem fromBe32_be32 (v : BitVec 32) :
    fromBe32 (v.extractLsb' 24 8) (v.extractLsb' 16 8) (v.extractLsb' 8 8) (v.extractLsb' 0 8) = v := by
  apply BitVec.eq_of_toNat_eq
  simp only [fromBe32_toNat, extract_toNat]
  have := v.isLt; omega

theorem be16_fromBe16 (a b : Byte) : be16 (fromBe16 a b) = [a, b] := by
  have ha := a.isLt
  have hb := b.isLt
  simp only [be16, List.cons.injEq, and_true]
  constructor <;> apply BitVec.eq_of_toNat_eq <;> simp only [extract_toNat, fromBe16_toNat] <;> omega

theorem be32_fromBe32 (a b c d : Byte) : be32 (fromBe32 a b c d) = [a, b, c, d] := by
  have ha := a.isLt
  have hb := b.isLt
  have hc := c.isLt
  have hd := d.isLt
  simp only [be32, List.cons.injEq, and_true]
  refine ⟨?_, ?_, ?_, ?_⟩ <;> apply BitVec.eq_of_toNat_eq <;> simp only [extract_toNat, fromBe32_toNat] <;> omega

theorem paddingOf_bounds (n : Nat) : 1 ≤ paddingOf n ∧ paddingOf n ≤ 8 := by
  unfold paddingOf; omega

theorem paddingOf_completes (n : Nat) : (n + paddingOf n) % 8 = 0 := by
  unfold paddingOf; omega

/-- The payload section is the count byte and, in whole bytes, the bits and their filler (R68). -/
theorem packBits_eq (b : Bits) :
    packBits b = BitVec.ofNat 8 (paddingOf b.length) ::
      bytesOfBits (b ++ List.replicate (paddingOf b.length) false) := by
  unfold packBits
  rw [List.append_assoc, bytesOfBits_byteBits_append]

theorem bitsOfBytes_payload (b : Bits) :
    bitsOfBytes (bytesOfBits (b ++ List.replicate (paddingOf b.length) false)) =
      b ++ List.replicate (paddingOf b.length) false :=
  bitsOfBytes_bytesOfBits _ (by simpa using paddingOf_completes b.length)

theorem packBits_length (b : Bits) : (packBits b).length = 2 + b.length / 8 := by
  have h := congrArg List.length (bitsOfBytes_payload b)
  simp only [bitsOfBytes_length, List.length_append, List.length_replicate] at h
  rw [packBits_eq, List.length_cons]
  unfold paddingOf at *
  omega

end Sys2Proof.Machine
end

