-- ==== Sys2Proof/Laws/Codec.lean ====
section
/-! SUPPORT. The two lookups (43_code_table.md R153), the encoder's and the decoder's loops
(46_codec_sequencer.md R185, R186). -/

namespace Sys2Proof.Machine

theorem enc_some {ct : List CodeEntry} {x : Sym} {b : Bits} (h : enc ct x = some b) :
    ∃ c ∈ ct, c.sym = x ∧ c.code = b := by
  unfold enc at h
  cases hf : ct.find? (fun c => c.sym == x) with
  | none => simp [hf] at h
  | some c =>
    simp only [hf, Option.map_some, Option.some.injEq] at h
    exact ⟨c, List.mem_of_find?_eq_some hf, by simpa using List.find?_some hf, h⟩

theorem enc_none {ct : List CodeEntry} {x : Sym} : enc ct x = none ↔ ∀ c ∈ ct, c.sym ≠ x := by
  simp [enc]

theorem dec_some {ct : List CodeEntry} {x : Sym} {b : Bits} (h : dec ct b = some x) :
    ∃ c ∈ ct, c.code = b ∧ c.sym = x := by
  unfold dec at h
  cases hf : ct.find? (fun c => c.code == b) with
  | none => simp [hf] at h
  | some c =>
    simp only [hf, Option.map_some, Option.some.injEq] at h
    exact ⟨c, List.mem_of_find?_eq_some hf, by simpa using List.find?_some hf, h⟩

theorem dec_none {ct : List CodeEntry} {b : Bits} : dec ct b = none ↔ ∀ c ∈ ct, c.code ≠ b := by
  simp [dec]

/-- With distinct symbols `enc` finds the entry (R153). -/
theorem enc_mem {ct : List CodeEntry} (hn : (ct.map CodeEntry.sym).Nodup) {c : CodeEntry} (h : c ∈ ct) :
    enc ct c.sym = some c.code := by
  cases he : enc ct c.sym with
  | none => exact absurd rfl (enc_none.1 he c h)
  | some b =>
    obtain ⟨c', hc', hs, rfl⟩ := enc_some he
    rw [List.inj_on_of_nodup_map hn hc' h hs]

/-- With distinct codes `dec` finds the entry (R153). -/
theorem dec_mem {ct : List CodeEntry} (hn : ∀ a ∈ ct, ∀ b ∈ ct, a.code = b.code → a = b) {c : CodeEntry}
    (h : c ∈ ct) : dec ct c.code = some c.sym := by
  cases hd : dec ct c.code with
  | none => exact absurd rfl (dec_none.1 hd c h)
  | some x =>
    obtain ⟨c', hc', hs, rfl⟩ := dec_some hd
    rw [hn c' hc' c h hs]

theorem encodeSymbols_cons {ct : List CodeEntry} {x : Sym} {xs : List Sym} {b : Bits} :
    encodeSymbols ct (x :: xs) = some b ↔
      ∃ c b', enc ct x = some c ∧ encodeSymbols ct xs = some b' ∧ b = c ++ b' := by
  simp only [encodeSymbols]
  cases h1 : enc ct x <;> cases h2 : encodeSymbols ct xs <;> simp [eq_comm]

/-- ENCODE's loop ends without a code exactly at a symbol that has none (R185). -/
theorem encodeSymbols_none {ct : List CodeEntry} {xs : List Sym} :
    encodeSymbols ct xs = none ↔ ∃ x ∈ xs, enc ct x = none := by
  induction xs with
  | nil => simp [encodeSymbols]
  | cons x xs ih =>
    simp only [encodeSymbols, List.mem_cons, exists_eq_or_imp, ← ih]
    cases h1 : enc ct x <;> cases h2 : encodeSymbols ct xs <;> simp

/-- A code's last bits complete it in the accumulator, if no shorter part of it is a code (R194). -/
theorem decodeBits_completes {ct : List CodeEntry} {x : Sym} (acc more rest : Bits) (hne : more ≠ [])
    (hd : dec ct (acc ++ more) = some x)
    (hno : ∀ p, p ≠ [] → p <+: more → p ≠ more → dec ct (acc ++ p) = none) :
    decodeBits ct acc (more ++ rest) = (x :: (decodeBits ct [] rest).1, (decodeBits ct [] rest).2) := by
  induction more generalizing acc with
  | nil => exact absurd rfl hne
  | cons b more ih =>
    simp only [List.cons_append, decodeBits]
    by_cases hm : more = []
    · subst hm; simp [hd]
    · have h1 := hno [b] (by simp) (by simp) (by simpa using Ne.symm hm)
      rw [h1]
      refine ih (acc ++ [b]) hm (by simpa using hd) (fun p hp hpre hpm => ?_)
      have := hno (b :: p) (by simp) (by simpa using hpre) (by simpa using hpm)
      simpa using this

/-- No code completed: all bits stay in the accumulator (R189). -/
theorem decodeBits_leftover {ct : List CodeEntry} (acc more : Bits)
    (hno : ∀ p, p ≠ [] → p <+: more → dec ct (acc ++ p) = none) : decodeBits ct acc more = ([], acc ++ more) := by
  induction more generalizing acc with
  | nil => simp [decodeBits]
  | cons b more ih =>
    have h1 := hno [b] (by simp) (by simp)
    simp only [decodeBits, h1]
    rw [ih (acc ++ [b]) (fun p hp hpre => by simpa using hno (b :: p) (by simp) (by simpa using hpre))]
    simp

end Sys2Proof.Machine
end

