-- ==== Sys2Proof/Laws/Header.lean ====
section
/-! SUPPORT. UTF-8 and the header: what `utf8` gives, and that HREAD's parser reads back exactly what HWRITE's
serializer writes (20_memory.md R64, R67; 45_header_codec.md R170, R171). -/

namespace Sys2Proof.Machine

theorem utf8_scalar {x : Sym} {u : List Byte} (h : utf8 x = some u) : isScalar x = true := by
  unfold utf8 at h
  split at h
  · assumption
  · cases h

theorem utf8_complete {x : Sym} (h : isScalar x = true) : ∃ u, utf8 x = some u := by
  unfold utf8
  rw [if_pos h]
  split <;> [skip; split <;> [skip; split]] <;> exact ⟨_, rfl⟩

theorem utf8_length {x : Sym} {u : List Byte} (h : utf8 x = some u) : 1 ≤ u.length ∧ u.length ≤ 4 := by
  unfold utf8 at h
  split at h
  · split at h <;> [skip; split at h <;> [skip; split at h]] <;> cases h <;> simp
  · cases h

/-- The payload of a symbol's encoding is the symbol (R64). -/
theorem utf8Payload_utf8 {x : Sym} {u : List Byte} (h : utf8 x = some u) : utf8Payload u = some x := by
  have hx := x.isLt
  have hcont : ∀ y : BitVec 6, (utf8Cont y).toNat = 128 + y.toNat := fun y => by
    have : (utf8Cont y).toNat = ((0b10#2 ++ y : BitVec (2 + 6))).toNat := rfl
    rw [this, append_toNat]; simp
  unfold utf8 at h
  split at h
  · split at h
    · rename_i h1
      cases h
      rw [BitVec.le_def] at h1
      simp only [utf8Payload, Option.some.injEq]
      apply BitVec.eq_of_toNat_eq
      simp only [BitVec.toNat_setWidth, extract_toNat]
      simp at h1; omega
    · split at h
      · rename_i h1
        cases h
        rw [BitVec.le_def] at h1
        simp only [utf8Payload, Option.some.injEq]
        apply BitVec.eq_of_toNat_eq
        have e : ∀ (p : BitVec 10) (q : BitVec 5) (r : BitVec 6),
            (p ++ q ++ r : BitVec 21).toNat = (p.toNat * 32 + q.toNat) * 64 + r.toNat := fun p q r => by
          have : (p ++ q ++ r : BitVec 21).toNat = (p ++ q ++ r : BitVec (10 + 5 + 6)).toNat := rfl
          rw [this, append_toNat, append_toNat]; omega
        have l : ∀ q : BitVec 5, (0b110#3 ++ q : Byte).toNat = 192 + q.toNat := fun q => by
          have : (0b110#3 ++ q : Byte).toNat = (0b110#3 ++ q : BitVec (3 + 5)).toNat := rfl
          rw [this, append_toNat]; simp
        rw [e]
        simp only [extract_toNat, l, hcont]
        simp at h1 ⊢; omega
      · split at h
        · rename_i h1
          cases h
          rw [BitVec.le_def] at h1
          simp only [utf8Payload, Option.some.injEq]
          apply BitVec.eq_of_toNat_eq
          have e : ∀ (p : BitVec 5) (q : BitVec 4) (r s : BitVec 6),
              (p ++ q ++ r ++ s : BitVec 21).toNat = ((p.toNat * 16 + q.toNat) * 64 + r.toNat) * 64 + s.toNat :=
            fun p q r s => by
              have : (p ++ q ++ r ++ s : BitVec 21).toNat = (p ++ q ++ r ++ s : BitVec (5 + 4 + 6 + 6)).toNat := rfl
              rw [this, append_toNat, append_toNat, append_toNat]; omega
          have l : ∀ q : BitVec 4, (0b1110#4 ++ q : Byte).toNat = 224 + q.toNat := fun q => by
            have : (0b1110#4 ++ q : Byte).toNat = (0b1110#4 ++ q : BitVec (4 + 4)).toNat := rfl
            rw [this, append_toNat]; simp
          rw [e]
          simp only [extract_toNat, l, hcont]
          simp at h1 ⊢; omega
        · cases h
          simp only [utf8Payload, Option.some.injEq]
          apply BitVec.eq_of_toNat_eq
          have e : ∀ (p : BitVec 3) (q r s : BitVec 6),
              (p ++ q ++ r ++ s : BitVec 21).toNat = ((p.toNat * 64 + q.toNat) * 64 + r.toNat) * 64 + s.toNat :=
            fun p q r s => by
              have : (p ++ q ++ r ++ s : BitVec 21).toNat = (p ++ q ++ r ++ s : BitVec (3 + 6 + 6 + 6)).toNat := rfl
              rw [this, append_toNat, append_toNat, append_toNat]; omega
          have l : ∀ q : BitVec 3, (0b11110#5 ++ q : Byte).toNat = 240 + q.toNat := fun q => by
            have : (0b11110#5 ++ q : Byte).toNat = (0b11110#5 ++ q : BitVec (5 + 3)).toNat := rfl
            rw [this, append_toNat]; simp
          rw [e]
          simp only [extract_toNat, l, hcont]
          omega
  · cases h

theorem utf8One_of_utf8 {x : Sym} {u : List Byte} (h : utf8 x = some u) : utf8One u = some x := by
  simp [utf8One, utf8Payload_utf8 h, h]

theorem utf8_of_utf8One {x : Sym} {u : List Byte} (h : utf8One u = some x) : utf8 x = some u := by
  unfold utf8One at h
  split at h
  · split at h
    · cases h; assumption
    · cases h
  · cases h

theorem headerEntry_some {r : FreqEntry} {h : List Byte} : headerEntry r = some h ↔
    ∃ u, utf8 r.sym = some u ∧ h = BitVec.ofNat 8 u.length :: (u ++ be32 r.count) := by
  unfold headerEntry
  cases hu : utf8 r.sym <;> simp [eq_comm]

theorem headerEntries_cons {r : FreqEntry} {t : List FreqEntry} {h : List Byte} :
    headerEntries (r :: t) = some h ↔ ∃ h1 h2, headerEntry r = some h1 ∧ headerEntries t = some h2 ∧ h = h1 ++ h2 := by
  simp only [headerEntries]
  cases h1 : headerEntry r <;> cases h2 : headerEntries t <;> simp [eq_comm]

/-- The header of a table exists when its symbols are scalar values. -/
theorem headerEntries_complete {t : List FreqEntry} (h : ∀ r ∈ t, isScalar r.sym = true) :
    ∃ hs, headerEntries t = some hs := by
  induction t with
  | nil => exact ⟨[], rfl⟩
  | cons r t ih =>
    obtain ⟨h2, e2⟩ := ih (fun r' hr => h r' (by simp [hr]))
    obtain ⟨u, hu⟩ := utf8_complete (h r (by simp))
    exact ⟨_, headerEntries_cons.2 ⟨_, h2, headerEntry_some.2 ⟨u, hu, rfl⟩, e2, rfl⟩⟩

/-- One entry as HWRITE writes it is parsed back (R171). -/
theorem parseEntry_headerEntry {t0 : List FreqEntry} {r : FreqEntry} {h rest : List Byte}
    (hh : headerEntry r = some h) (hnew : t0.any (fun r' => r'.sym == r.sym) = false) (hc : r.count ≠ 0) :
    parseEntry t0 (h ++ rest) = .table (t0 ++ [r]) rest := by
  obtain ⟨u, hu, rfl⟩ := headerEntry_some.1 hh
  obtain ⟨h1, h2⟩ := utf8_length hu
  have hl : (BitVec.ofNat 8 u.length).toNat = u.length := by simp; omega
  have hb : fromBe32 (r.count.extractLsb' 24 8) (r.count.extractLsb' 16 8) (r.count.extractLsb' 8 8)
      (r.count.extractLsb' 0 8) = r.count := fromBe32_be32 r.count
  simp only [List.cons_append, List.append_assoc, parseEntry, hl, List.length_append, List.take_left,
    List.drop_left, utf8One_of_utf8 hu, hnew, be32, List.nil_append, hb, hc]
  rw [if_neg (by omega)]
  rfl

/-- A parsed entry is one HWRITE would write (R171, R174). -/
theorem parseEntry_table {t0 t' : List FreqEntry} {y rest : List Byte} (h : parseEntry t0 y = .table t' rest) :
    ∃ r hb, t' = t0 ++ [r] ∧ headerEntry r = some hb ∧ y = hb ++ rest ∧ r.count ≠ 0 ∧
      t0.any (fun r' => r'.sym == r.sym) = false := by
  unfold parseEntry at h
  split at h
  · cases h
  · rename_i len y1
    split at h
    · cases h
    · rename_i hlen
      split at h
      · cases h
      · rename_i x hx
        split at h
        · cases h
        · rename_i hany
          split at h
          · rename_i k0 k1 k2 k3 y2 hd
            split at h
            · cases h
            · rename_i hk
              cases h
              have hu := utf8_of_utf8One hx
              have hul : (y1.take len.toNat).length = len.toNat := by rw [List.length_take]; omega
              refine ⟨⟨x, fromBe32 k0 k1 k2 k3⟩, _, rfl, headerEntry_some.2 ⟨_, hu, rfl⟩, ?_, hk, by simpa using hany⟩
              have hsplit : y1 = y1.take len.toNat ++ (k0 :: k1 :: k2 :: k3 :: rest) := by
                rw [← hd, List.take_append_drop]
              rw [be32_fromBe32, hul, BitVec.ofNat_toNat, BitVec.setWidth_eq]
              conv_lhs => rw [hsplit]
              simp
          · cases h

theorem headerEntries_append {t1 t2 : List FreqEntry} {h1 h2 : List Byte} (e1 : headerEntries t1 = some h1)
    (e2 : headerEntries t2 = some h2) : headerEntries (t1 ++ t2) = some (h1 ++ h2) := by
  induction t1 generalizing h1 with
  | nil => cases e1; simpa using e2
  | cons r t ih =>
    obtain ⟨ha, hb, ea, eb, rfl⟩ := headerEntries_cons.1 e1
    exact headerEntries_cons.2 ⟨ha, hb ++ h2, ea, ih eb, by simp⟩

/-- A header as HWRITE writes it is parsed back, entry for entry and in order (R172). -/
theorem parseEntries_header {t0 t : List FreqEntry} {h rest : List Byte} (hh : headerEntries t = some h)
    (hn : ((t0 ++ t).map FreqEntry.sym).Nodup) (hc : ∀ r ∈ t, r.count ≠ 0) :
    parseEntries t.length t0 (h ++ rest) = .table (t0 ++ t) rest := by
  induction t generalizing t0 h with
  | nil => cases hh; simp [parseEntries]
  | cons r t ih =>
    obtain ⟨h1, h2, e1, e2, rfl⟩ := headerEntries_cons.1 hh
    have hnew : t0.any (fun r' => r'.sym == r.sym) = false := by
      rw [List.any_eq_false]
      intro r' hr' he
      simp only [beq_iff_eq] at he
      simp only [List.map_append, List.map_cons, List.nodup_append] at hn
      exact hn.2.2 _ (List.mem_map_of_mem hr') _ (by simp) he
    simp only [List.length_cons, parseEntries, List.append_assoc,
      parseEntry_headerEntry e1 hnew (hc r (by simp))]
    have := ih (t0 := t0 ++ [r]) e2 (by simpa using hn) (fun r' hr => hc r' (by simp [hr]))
    simpa using this

/-- What the parser accepts is a header as HWRITE writes it (R171, R174). -/
theorem parseEntries_table {n : Nat} {t0 t' : List FreqEntry} {y rest : List Byte}
    (h : parseEntries n t0 y = .table t' rest) (h0 : (t0.map FreqEntry.sym).Nodup) :
    ∃ t hb, t' = t0 ++ t ∧ t.length = n ∧ headerEntries t = some hb ∧ y = hb ++ rest ∧
      (∀ r ∈ t, r.count ≠ 0) ∧ (t'.map FreqEntry.sym).Nodup := by
  induction n generalizing t0 y with
  | zero => cases h; exact ⟨[], [], by simp, rfl, rfl, rfl, by simp, h0⟩
  | succ n ih =>
    simp only [parseEntries] at h
    cases hp : parseEntry t0 y with
    | bad i => simp [hp] at h
    | table t1 y1 =>
      simp only [hp] at h
      obtain ⟨r, hb, rfl, e1, rfl, hc, hany⟩ := parseEntry_table hp
      have h1 : ((t0 ++ [r]).map FreqEntry.sym).Nodup := by
        simp only [List.map_append, List.map_cons, List.map_nil, List.nodup_append, h0, List.nodup_cons,
          List.not_mem_nil, not_false_eq_true, List.nodup_nil, and_self, List.mem_singleton, true_and]
        rintro a ha b rfl
        obtain ⟨r', hr', rfl⟩ := List.mem_map.1 ha
        rw [List.any_eq_false] at hany
        simpa using hany r' hr'
      obtain ⟨t, hb2, rfl, hl, e2, rfl, hcs, hnd⟩ := ih h h1
      exact ⟨r :: t, hb ++ hb2, by simp, by simp [hl], headerEntries_cons.2 ⟨hb, hb2, e1, e2, rfl⟩, by simp,
        by simpa using ⟨hc, hcs⟩, hnd⟩

theorem headerEntries_scalar {t : List FreqEntry} {h : List Byte} (hh : headerEntries t = some h) :
    ∀ r ∈ t, isScalar r.sym = true := by
  induction t generalizing h with
  | nil => simp
  | cons r t ih =>
    obtain ⟨h1, h2, e1, e2, rfl⟩ := headerEntries_cons.1 hh
    obtain ⟨u, hu, -⟩ := headerEntry_some.1 e1
    rintro r' hr'
    rcases List.mem_cons.1 hr' with rfl | hr'
    · exact utf8_scalar hu
    · exact ih e2 r' hr'

end Sys2Proof.Machine
end

