-- ==== Sys2Proof/Laws/Histogram.lean ====
section
/-! SUPPORT. What the scan of HCOUNT builds (41_frequency_counter.md R120, R121). -/

namespace Sys2Proof.Machine

theorem isHistogram_nil : isHistogram [] [] := ⟨rfl, by simp⟩

theorem nodup_eraseDups {α : Type} [BEq α] [LawfulBEq α] (l : List α) : l.eraseDups.Nodup := by
  generalize hn : l.length = n
  induction n using Nat.strongRecOn generalizing l with
  | ind n ih =>
    cases l with
    | nil => simp
    | cons a l =>
      rw [List.eraseDups_cons, List.nodup_cons]
      refine ⟨by simp [List.mem_eraseDups], ih _ ?_ _ rfl⟩
      have := List.length_filter_le (fun b => !b == a) l
      simp only [List.length_cons] at hn; omega

theorem eraseDups_snoc (text : List Sym) (x : Sym) :
    (text ++ [x]).eraseDups = if x ∈ text then text.eraseDups else text.eraseDups ++ [x] := by
  rw [List.eraseDups_append]
  split <;> rename_i h <;> simp [List.removeAll, h, List.eraseDups_cons]

theorem isHistogram_mem {text : List Sym} {t : List FreqEntry} (h : isHistogram text t) (x : Sym) :
    t.any (fun r => r.sym == x) = true ↔ x ∈ text := by
  rw [← List.mem_eraseDups, ← h.1]
  simp [List.any_eq_true]

theorem bumpEntry_map_sym {x : Sym} {t t' : List FreqEntry} (h : bumpEntry x t = some t') :
    t'.map FreqEntry.sym = t.map FreqEntry.sym := by
  induction t generalizing t' with
  | nil => cases h; rfl
  | cons r t ih =>
    simp only [bumpEntry] at h
    split at h
    · split at h
      · cases h
      · cases h; rfl
    · cases hb : bumpEntry x t with
      | none => simp [hb] at h
      | some u => simp only [hb, Option.map_some, Option.some.injEq] at h; subst h; simp [ih hb]

/-- `bumpEntry` fails exactly at a full count. -/
theorem bumpEntry_eq_none {x : Sym} {t : List FreqEntry} (hn : (t.map FreqEntry.sym).Nodup) :
    bumpEntry x t = none ↔ ∃ r ∈ t, r.sym = x ∧ r.count.toNat = countMax := by
  induction t with
  | nil => simp [bumpEntry]
  | cons r t ih =>
    simp only [List.map_cons, List.nodup_cons] at hn
    simp only [bumpEntry]
    split
    · rename_i hr
      have hno : ¬ ∃ r' ∈ t, r'.sym = x ∧ r'.count.toNat = countMax := by
        rintro ⟨r', hm, hs, -⟩
        exact hn.1 (List.mem_map.2 ⟨r', hm, hs.trans hr.symm⟩)
      split <;> simp_all
    · rename_i hr
      rw [Option.map_eq_none_iff, ih hn.2]
      simp [hr]

theorem bumpEntry_count {x : Sym} {t t' : List FreqEntry} (hn : (t.map FreqEntry.sym).Nodup)
    (h : bumpEntry x t = some t') (r' : FreqEntry) (hr : r' ∈ t') :
    ∃ r ∈ t, r.sym = r'.sym ∧ r'.count.toNat = r.count.toNat + (if r.sym = x then 1 else 0) := by
  induction t generalizing t' with
  | nil => cases h; simp at hr
  | cons r t ih =>
    simp only [List.map_cons, List.nodup_cons] at hn
    simp only [bumpEntry] at h
    split at h
    · rename_i hx
      split at h
      · cases h
      · rename_i hc
        cases h
        rcases List.mem_cons.1 hr with rfl | hm
        · refine ⟨r, by simp, rfl, ?_⟩
          have := r.count.isLt
          simp only [countMax] at hc
          simp only [hx, if_true, BitVec.toNat_add]
          simp; omega
        · refine ⟨r', by simp [hm], rfl, ?_⟩
          have : r'.sym ≠ x := fun hs => hn.1 (List.mem_map.2 ⟨r', hm, hs.trans hx.symm⟩)
          simp [this]
    · rename_i hx
      cases hb : bumpEntry x t with
      | none => simp [hb] at h
      | some u =>
        simp only [hb, Option.map_some, Option.some.injEq] at h; subst h
        rcases List.mem_cons.1 hr with rfl | hm
        · exact ⟨r', by simp, rfl, by simp [hx]⟩
        · obtain ⟨r, h1, h2, h3⟩ := ih hn.2 hb hm
          exact ⟨r, by simp [h1], h2, h3⟩

theorem isHistogram_nodup {text : List Sym} {t : List FreqEntry} (h : isHistogram text t) :
    (t.map FreqEntry.sym).Nodup := h.1 ▸ nodup_eraseDups text

/-- One symbol more, when the table takes it. -/
theorem countSymbol_table {text : List Sym} {t t' : List FreqEntry} {x : Sym} (h : isHistogram text t)
    (hc : countSymbol t x = .table t') : isHistogram (text ++ [x]) t' := by
  unfold countSymbol at hc
  split at hc
  · rename_i hm
    have hx := (isHistogram_mem h x).1 hm
    cases hb : bumpEntry x t with
    | none => simp [hb] at hc
    | some u =>
      simp only [hb, Counted.table.injEq] at hc; subst hc
      refine ⟨by rw [bumpEntry_map_sym hb, h.1, eraseDups_snoc, if_pos hx], fun r' hr => ?_⟩
      obtain ⟨r, h1, h2, h3⟩ := bumpEntry_count (isHistogram_nodup h) hb r' hr
      rw [h3, h.2 r h1, List.count_append, ← h2]
      by_cases hrx : r.sym = x
      · simp [hrx]
      · simp [hrx, Ne.symm hrx]
  · rename_i hm
    have hx : x ∉ text := fun hm' => hm ((isHistogram_mem h x).2 hm')
    split at hc
    · cases hc
    · simp only [Counted.table.injEq] at hc; subst hc
      refine ⟨by simp [h.1, eraseDups_snoc, hx], fun r' hr => ?_⟩
      rcases List.mem_append.1 hr with hr | hr
      · have hs : r'.sym ≠ x := fun hs => hm (List.any_eq_true.2 ⟨r', hr, by simp [hs]⟩)
        rw [h.2 r' hr]; simp [List.count_append, Ne.symm hs]
      · simp only [List.mem_singleton] at hr; subst hr
        simp [List.count_append, List.count_eq_zero_of_not_mem hx]

theorem isHistogram_count {text : List Sym} {t : List FreqEntry} (h : isHistogram text t) {x : Sym} (hx : x ∈ text) :
    ∃ r ∈ t, r.sym = x ∧ r.count.toNat = text.count x := by
  have : x ∈ t.map FreqEntry.sym := by rw [h.1]; exact List.mem_eraseDups.2 hx
  obtain ⟨r, hr, rfl⟩ := List.mem_map.1 this
  exact ⟨r, hr, rfl, h.2 r hr⟩

theorem isHistogram_unique {text : List Sym} {t : List FreqEntry} (h : isHistogram text t) (r r' : FreqEntry)
    (hr : r ∈ t) (hr' : r' ∈ t) (hs : r.sym = r'.sym) : r = r' :=
  List.inj_on_of_nodup_map (isHistogram_nodup h) hr hr' hs

/-- The scan stops at a symbol for exactly one of R120's two reasons. -/
theorem countSymbol_over {text : List Sym} {t : List FreqEntry} {x : Sym} (h : isHistogram text t) (info : BitVec 8) :
    countSymbol t x = .full info ↔
      (x ∉ text ∧ text.eraseDups.length = nMax ∧ info = 1) ∨ (text.count x = countMax ∧ info = 3) := by
  have hlen : t.length = text.eraseDups.length := by rw [← h.1]; simp
  unfold countSymbol
  split
  · rename_i hm
    have hx := (isHistogram_mem h x).1 hm
    obtain ⟨r, hr, hs, hc⟩ := isHistogram_count h hx
    cases hb : bumpEntry x t with
    | none =>
      obtain ⟨r', hr', hs', hc'⟩ := (bumpEntry_eq_none (isHistogram_nodup h)).1 hb
      have := isHistogram_unique h r r' hr hr' (hs.trans hs'.symm)
      subst this
      simp [hx, ← hc, hc', eq_comm]
    | some u =>
      have : ¬ text.count x = countMax := fun hcm => by
        have := (bumpEntry_eq_none (isHistogram_nodup h)).2 ⟨r, hr, hs, hc.trans hcm⟩
        simp [hb] at this
      simp [hx, this]
  · rename_i hm
    have hx : x ∉ text := fun hm' => hm ((isHistogram_mem h x).2 hm')
    have h0 : text.count x = 0 := List.count_eq_zero_of_not_mem hx
    have : ¬ (0 : Nat) = countMax := by decide
    rw [← hlen]
    split
    · rename_i hl; simp [hx, hl, h0, this, eq_comm]
    · rename_i hl; simp [hx, hl, h0, this]

/-- What the whole scan of a text builds is its histogram. -/
theorem countSymbols_table {text xs : List Sym} {t t' : List FreqEntry} (h : isHistogram text t)
    (hc : countSymbols t xs = .table t') : isHistogram (text ++ xs) t' := by
  induction xs generalizing text t with
  | nil => simp only [countSymbols, Counted.table.injEq] at hc; subst hc; simpa using h
  | cons x xs ih =>
    simp only [countSymbols] at hc
    cases h1 : countSymbol t x with
    | full i => simp [h1] at hc
    | table u =>
      simp only [h1] at hc
      have := ih (countSymbol_table h h1) hc
      simpa using this

theorem countable_of_append {p q : List Sym} (h : countable (p ++ q)) : countable p := by
  refine ⟨?_, fun x => ?_⟩
  · have := h.1
    rw [List.eraseDups_append, List.length_append] at this; omega
  · have := h.2 x
    rw [List.count_append] at this; omega

/-- Every text that can be counted is. -/
theorem countSymbols_complete {text xs : List Sym} {t : List FreqEntry} (h : isHistogram text t)
    (hc : countable (text ++ xs)) : ∃ t', countSymbols t xs = .table t' := by
  induction xs generalizing text t with
  | nil => exact ⟨t, rfl⟩
  | cons x xs ih =>
    cases h1 : countSymbol t x with
    | full i =>
      have hp : countable (text ++ [x]) := by
        have : text ++ x :: xs = (text ++ [x]) ++ xs := by simp
        exact countable_of_append (this ▸ hc)
      exfalso
      rcases (countSymbol_over h i).1 h1 with ⟨hx, hl, -⟩ | ⟨hm, -⟩
      · have := hp.1
        rw [eraseDups_snoc, if_neg hx] at this
        simp only [List.length_append, hl, nMax, List.length_singleton] at this; omega
      · have := hp.2 x
        rw [List.count_append, hm] at this
        simp [countMax] at this
    | table u =>
      have := ih (countSymbol_table h h1) (by simpa using hc)
      simpa only [countSymbols, h1] using this

/-- Two parts of a text are scanned one after the other. -/
theorem countSymbols_append (t : List FreqEntry) (xs ys : List Sym) :
    countSymbols t (xs ++ ys) =
      match countSymbols t xs with
      | .table t' => countSymbols t' ys
      | .full info => .full info := by
  induction xs generalizing t with
  | nil => rfl
  | cons x xs ih =>
    simp only [List.cons_append, countSymbols]
    cases countSymbol t x <;> simp [ih]

/-- After a text that could be counted the scan stops at the next symbol for R120's reasons. -/
theorem countSymbols_over {text : List Sym} {x : Sym} (rest : List Sym) (hc : countable text) {info : BitVec 8}
    (h : (x ∉ text ∧ text.eraseDups.length = nMax ∧ info = 1) ∨ (text.count x = countMax ∧ info = 3)) :
    countSymbols [] (text ++ x :: rest) = .full info := by
  obtain ⟨t, ht⟩ := countSymbols_complete (xs := text) isHistogram_nil hc
  have hh := countSymbols_table isHistogram_nil ht
  rw [countSymbols_append, ht]
  simp only [countSymbols, (countSymbol_over hh info).2 h]

/-- A table the scan leaves has at most 65 535 entries and no count of zero. -/
theorem countSymbols_bounds {xs : List Sym} {t t' : List FreqEntry} (hl : t.length ≤ nMax)
    (hc : countSymbols t xs = .table t') : t'.length ≤ nMax := by
  induction xs generalizing t with
  | nil => simp only [countSymbols, Counted.table.injEq] at hc; exact hc ▸ hl
  | cons x xs ih =>
    simp only [countSymbols] at hc
    cases h1 : countSymbol t x with
    | full i => simp [h1] at hc
    | table u =>
      simp only [h1] at hc
      refine ih ?_ hc
      unfold countSymbol at h1
      split at h1
      · cases hb : bumpEntry x t with
        | none => simp [hb] at h1
        | some v =>
          simp only [hb, Counted.table.injEq] at h1; subst h1
          have := congrArg List.length (bumpEntry_map_sym hb)
          simp only [List.length_map] at this; omega
      · split at h1
        · cases h1
        · simp only [Counted.table.injEq] at h1; subst h1
          simp only [List.length_append, List.length_singleton, nMax] at *; omega

end Sys2Proof.Machine
end

