-- ==== Sys2Proof/Laws/Memory.lean ====
section
/-! SUPPORT. The canonical form of PQ (`Memory.wf`): reset has it and every operation on PQ keeps it. -/

namespace Sys2Proof.Machine

theorem memory_wf_reset : Memory.wf State.reset.eng := List.Pairwise.nil

theorem memory_wf_clearTree (e : Engine) : Memory.wf (clearTree e) := List.Pairwise.nil

theorem memory_wf_addNode {x : Node} {e : Engine} (h : Memory.wf e) : Memory.wf (addNode x e) :=
  pqInsert_sorted h

theorem memory_wf_mergeRound {e e' : Engine} (h : Memory.wf e) (hr : mergeRound e = some e') : Memory.wf e' := by
  obtain ⟨a, b, -, -, -, -, rfl⟩ := mergeRound_some hr
  exact memory_wf_addNode (e := { e with pq := (e.pq.erase a).erase b })
    (List.Pairwise.sublist (List.erase_sublist.trans List.erase_sublist) h)

theorem memory_wf_mergeAll (k : Nat) {e : Engine} (h : Memory.wf e) : Memory.wf (mergeAll k e) := by
  induction k generalizing e with
  | zero => exact h
  | succ k ih =>
    simp only [mergeAll]
    cases hr : mergeRound e with
    | none => exact h
    | some e' => exact ih (memory_wf_mergeRound h hr)

theorem memory_wf_addLeaves (t : List FreqEntry) {e : Engine} (h : Memory.wf e) : Memory.wf (addLeaves t e) := by
  induction t generalizing e with
  | nil => exact h
  | cons r t ih => exact ih (memory_wf_addNode h)

theorem memory_wf_setRoot {e : Engine} (h : Memory.wf e) : Memory.wf (setRoot e) := by
  unfold setRoot
  split <;> exact h

theorem memory_wf_buildTree (t : List FreqEntry) (e : Engine) : Memory.wf (buildTree t e) :=
  memory_wf_setRoot (memory_wf_mergeAll _ (memory_wf_addLeaves t (memory_wf_clearTree e)))

end Sys2Proof.Machine
end

