-- ==== Sys2Proof/Laws/Optimal.lean ====
section
/-! SUPPORT. Why TBUILD's tree is a cheapest one (42_tree_builder.md R138): the exchange argument on depths, and the
forest of the loop, which every tree over the leaves costs at least as much as. -/

namespace Sys2Proof.Machine

/-! Depths that meet Kraft's equation. -/

section
variable {α : Type} [DecidableEq α]

/-- `d` gives the members of `s` the depths of a full binary tree's leaves, none below `D`. -/
def FullDepths (s : Finset α) (d : α → Nat) (D : Nat) : Prop :=
  (∀ k ∈ s, d k ≤ D) ∧ ∑ k ∈ s, 2 ^ (D - d k) = 2 ^ D

omit [DecidableEq α] in
theorem FullDepths.exists_deepest {s : Finset α} {d : α → Nat} {D : Nat} (h : FullDepths s d D) (hs : s.Nonempty) :
    ∃ D', FullDepths s d D' ∧ ∃ k ∈ s, d k = D' := by
  induction D with
  | zero =>
    obtain ⟨k, hk⟩ := hs
    exact ⟨0, h, k, hk, Nat.le_zero.mp (h.1 k hk)⟩
  | succ D ih =>
    by_cases hx : ∃ k ∈ s, d k = D + 1
    · exact ⟨D + 1, h, hx⟩
    · push Not at hx
      refine ih ⟨fun k hk => by have := h.1 k hk; have := hx k hk; omega, ?_⟩
      have h2 : ∑ k ∈ s, 2 ^ (D + 1 - d k) = 2 * ∑ k ∈ s, 2 ^ (D - d k) := by
        rw [Finset.mul_sum]
        refine Finset.sum_congr rfl fun k hk => ?_
        have := h.1 k hk
        have := hx k hk
        rw [← pow_succ', show D + 1 - d k = D - d k + 1 by omega]
      have h3 := h.2
      rw [h2, pow_succ'] at h3
      omega

theorem FullDepths.exists_twin {s : Finset α} {d : α → Nat} {D : Nat} (h : FullDepths s d D) {a b : α} (ha : a ∈ s)
    (hb : b ∈ s) (hab : a ≠ b) (hd : d a = D) : ∃ y ∈ s, y ≠ a ∧ d y = D := by
  by_contra hno
  push Not at hno
  have hrest : ∀ k ∈ s.erase a, 2 ∣ 2 ^ (D - d k) := by
    intro k hk
    rw [Finset.mem_erase] at hk
    have := h.1 k hk.2
    have := hno k hk.2 hk.1
    exact dvd_pow_self 2 (by omega)
  have hsum := h.2
  rw [← Finset.add_sum_erase s _ ha, hd, Nat.sub_self, pow_zero] at hsum
  have hdvd := Finset.dvd_sum hrest
  have hpos : 0 < D := by
    have := h.1 b hb
    have := hno b hb (Ne.symm hab)
    omega
  have : 2 ∣ 2 ^ D := dvd_pow_self 2 (by omega)
  omega

theorem FullDepths.swap {s : Finset α} {d : α → Nat} {D : Nat} (h : FullDepths s d D) {a x : α} (ha : a ∈ s)
    (hx : x ∈ s) : FullDepths s (fun k => d (Equiv.swap a x k)) D := by
  have hsub : ({k | Equiv.swap a x k ≠ k} : Set α) ⊆ s := by
    intro k hk
    by_contra hks
    exact hk (Equiv.swap_apply_of_ne_of_ne (fun h => hks (h ▸ ha)) (fun h => hks (h ▸ hx)))
  refine ⟨fun k hk => ?_, ?_⟩
  · by_cases h1 : k = a
    · subst h1; simpa using h.1 x hx
    · by_cases h2 : k = x
      · subst h2; simpa using h.1 a ha
      · show d (Equiv.swap a x k) ≤ D
        rw [Equiv.swap_apply_of_ne_of_ne h1 h2]; exact h.1 k hk
  · rw [Equiv.Perm.sum_comp (Equiv.swap a x) s (fun k => 2 ^ (D - d k)) hsub]; exact h.2

/-- Moving the lighter of two members to the greater depth costs no more. -/
theorem sum_swap_le (s : Finset α) (w d : α → Nat) {a x : α} (ha : a ∈ s) (hx : x ∈ s) (hw : w a ≤ w x)
    (hd : d a ≤ d x) : ∑ k ∈ s, w k * d (Equiv.swap a x k) ≤ ∑ k ∈ s, w k * d k := by
  by_cases hax : a = x
  · subst hax; simp
  · have hx' : x ∈ s.erase a := Finset.mem_erase.mpr ⟨Ne.symm hax, hx⟩
    rw [← Finset.add_sum_erase s _ ha, ← Finset.add_sum_erase s (fun k => w k * d k) ha,
      ← Finset.add_sum_erase (s.erase a) _ hx', ← Finset.add_sum_erase (s.erase a) (fun k => w k * d k) hx']
    have : ∑ k ∈ (s.erase a).erase x, w k * d (Equiv.swap a x k) = ∑ k ∈ (s.erase a).erase x, w k * d k := by
      refine Finset.sum_congr rfl fun k hk => ?_
      simp only [Finset.mem_erase] at hk
      rw [Equiv.swap_apply_of_ne_of_ne hk.2.1 hk.1]
    rw [this, Equiv.swap_apply_left, Equiv.swap_apply_right]
    nlinarith [Nat.mul_le_mul hw hd]

/-- The exchange step of Huffman's argument: the two lightest members may be taken for the deepest. -/
theorem FullDepths.exchange {s : Finset α} {w d : α → Nat} {D : Nat} (h : FullDepths s d D) {a b : α} (ha : a ∈ s)
    (hb : b ∈ s) (hab : a ≠ b) (hwa : ∀ k ∈ s, w a ≤ w k) (hwb : ∀ k ∈ s, k ≠ a → w b ≤ w k) :
    ∃ d' D', FullDepths s d' D' ∧ d' a = D' ∧ d' b = D' ∧ 0 < D' ∧ ∑ k ∈ s, w k * d' k ≤ ∑ k ∈ s, w k * d k := by
  obtain ⟨D', h', x, hx, hxd⟩ := h.exists_deepest ⟨a, ha⟩
  have h1 := h'.swap ha hx
  have h1a : d (Equiv.swap a x a) = D' := by simpa using hxd
  obtain ⟨y, hy, hya, hyd⟩ := h1.exists_twin ha hb hab h1a
  have h2 := h1.swap hb hy
  have h2a : Equiv.swap b y a = a := Equiv.swap_apply_of_ne_of_ne hab (Ne.symm hya)
  refine ⟨_, D', h2, by simpa [h2a] using h1a, by simpa using hyd, ?_, ?_⟩
  · by_contra h0
    have h0 : D' = 0 := by omega
    subst h0
    have hc := h'.2
    simp only [Nat.zero_sub, pow_zero, Finset.sum_const, smul_eq_mul, mul_one] at hc
    exact hab (Finset.card_le_one.mp (by omega) a ha b hb)
  · refine le_trans (sum_swap_le s w (fun k => d (Equiv.swap a x k)) hb hy (hwb y hy hya) ?_) (sum_swap_le s w d ha hx (hwa x hx) ?_)
    · simp only [hyd]; exact h1.1 b hb
    · rw [hxd]; exact h'.1 a ha

end

/-! Trees, their depths and their cost. -/

/-- The sum of the counts of a tree's leaves. -/
def HTree.weight (t : List FreqEntry) (tree : HTree) : Nat := (tree.leaves.map (countAt t)).sum

theorem HTree.depths_fst (tree : HTree) : tree.depths.map Prod.fst = tree.leaves := by
  induction tree with
  | leaf i => rfl
  | fork l r ihl ihr => simp [HTree.depths, HTree.leaves, ← ihl, ← ihr, Function.comp_def]

/-- A leaf's depth is the length of its path (43_code_table.md R151). -/
theorem HTree.depths_eq_paths (tree : HTree) : tree.depths = tree.paths.map (fun p => (p.1, p.2.length)) := by
  induction tree with
  | leaf i => rfl
  | fork l r ihl ihr => simp [HTree.depths, HTree.paths, ihl, ihr, Function.comp_def]

theorem HTree.cost_fork (t : List FreqEntry) (l r : HTree) :
    (HTree.fork l r).cost t = l.cost t + r.cost t + l.weight t + r.weight t := by
  have h : ∀ ds : List (Nat × Nat), (ds.map (fun p => countAt t p.1 * (p.2 + 1))).sum =
      (ds.map (fun p => countAt t p.1 * p.2)).sum + ((ds.map Prod.fst).map (countAt t)).sum := by
    intro ds
    induction ds with
    | nil => rfl
    | cons p ds ih => simp only [List.map_cons, List.sum_cons, ih]; ring
  simp only [HTree.cost, HTree.weight, HTree.depths, List.map_append, List.map_map, List.sum_append,
    Function.comp_def, h, ← HTree.depths_fst]
  ring

theorem HTree.weight_fork (t : List FreqEntry) (l r : HTree) :
    (HTree.fork l r).weight t = l.weight t + r.weight t := by simp [HTree.weight, HTree.leaves]

theorem HTree.kraft (tree : HTree) (D : Nat) (h : ∀ p ∈ tree.depths, p.2 ≤ D) :
    (tree.depths.map (fun p => 2 ^ (D - p.2))).sum = 2 ^ D := by
  induction tree generalizing D with
  | leaf i => simp [HTree.depths]
  | fork l r ihl ihr =>
    simp only [HTree.depths, List.mem_map, List.mem_append] at h
    have hD : 0 < D := by
      cases hl : l.depths with
      | nil =>
        have := l.leaves_pos
        rw [← HTree.depths_fst, hl] at this
        simp at this
      | cons p ds => have := h _ ⟨p, .inl (by simp [hl]), rfl⟩; simp only at this; omega
    obtain ⟨D, rfl⟩ : ∃ D', D = D' + 1 := ⟨D - 1, by omega⟩
    have hl := ihl D (fun p hp => by have := h _ ⟨p, .inl hp, rfl⟩; simp only at this; omega)
    have hr := ihr D (fun p hp => by have := h _ ⟨p, .inr hp, rfl⟩; simp only at this; omega)
    simp only [HTree.depths, List.map_append, List.map_map, List.sum_append, Function.comp_def,
      Nat.add_sub_add_right, hl, hr]
    rw [pow_succ]; ring

/-- Where leaves are named once, the depth is a function of the leaf. -/
theorem HTree.depths_function (tree : HTree) (h : tree.leaves.Nodup) :
    ∃ d : Nat → Nat, tree.depths = tree.leaves.map (fun i => (i, d i)) := by
  induction tree with
  | leaf i => exact ⟨fun _ => 0, rfl⟩
  | fork l r ihl ihr =>
    simp only [HTree.leaves, List.nodup_append] at h
    obtain ⟨dl, hl⟩ := ihl h.1
    obtain ⟨dr, hr⟩ := ihr h.2.1
    refine ⟨fun i => if i ∈ l.leaves then dl i + 1 else dr i + 1, ?_⟩
    simp only [HTree.depths, HTree.leaves, hl, hr, List.map_append, List.map_map]
    congr 1
    · exact List.map_congr_left fun i hi => by simp [hi]
    · refine List.map_congr_left fun i hi => ?_
      have : i ∉ l.leaves := fun hil => h.2.2 _ hil _ hi rfl
      simp [this]

/-- The tree under a node is unique. -/
theorem Rep.unique {node : List Node} {k : Nat} {a b : HTree} (ha : Rep node k a) (hb : Rep node k b) : a = b := by
  induction ha generalizing b with
  | leaf h =>
    cases hb with
    | leaf h' => rfl
    | fork h' => rw [h] at h'; cases h'
  | fork h _ _ ihl ihr =>
    cases hb with
    | leaf h' => rw [h] at h'; cases h'
    | fork h' h1 h2 =>
      rw [h] at h'
      obtain ⟨-, rfl, rfl⟩ := Node.internal.inj (Option.some.inj h')
      rw [ihl h1, ihr h2]

/-! The forest of TBUILD's loop. -/

/-- Every tree over all leaves costs at least what the forest's trees cost and its roots at some full depths. -/
def Cheapest (t : List FreqEntry) (e : Engine) : Prop :=
  ∃ f : NodeIdx → HTree, (∀ k ∈ e.pq, Rep e.node k.toNat (f k)) ∧
    (∀ k ∈ e.pq, (weightAt e.node k).toNat = (f k).weight t) ∧
    ∀ o : HTree, o.leaves.Perm (List.range t.length) → ∃ d D, FullDepths e.pq.toFinset d D ∧
      ∑ k ∈ e.pq.toFinset, (f k).weight t * d k + ∑ k ∈ e.pq.toFinset, (f k).cost t ≤ o.cost t

theorem pq_nodup {e : Engine} (h : e.pq.Pairwise (· < ·)) : e.pq.Nodup :=
  h.imp (fun h => by rw [BitVec.lt_def] at h; exact fun he => by simp [he] at h)

theorem cheapest_leaves (t : List FreqEntry) (e : Engine) (ht : t.length ≤ 65535) :
    Cheapest t (addLeaves t (clearCodeTable (clearTree e))) := by
  obtain ⟨h1, -, h3, h4⟩ := addLeaves_eq t (clearCodeTable (clearTree e)) rfl (by simp; omega) (by simp)
  simp only [clearCodeTable_node, clearTree_node, List.nil_append, List.length_nil,
    clearCodeTable_pq, clearTree_pq, List.map_nil, ← List.range_eq_range'] at h1 h3 h4
  generalize addLeaves t (clearCodeTable (clearTree e)) = x at *
  have hnd := pq_nodup (h4 (by simp))
  have hin : ∀ k ∈ x.pq, k.toNat < t.length := by
    intro k hk
    have : k.toNat ∈ x.pq.map BitVec.toNat := List.mem_map_of_mem hk
    rw [h3] at this; simpa using this
  have hnode : ∀ k ∈ x.pq, ∃ (r : FreqEntry), t[k.toNat]? = some r ∧ x.node[k.toNat]? = some (leafOf r) := by
    intro k hk
    have := hin k hk
    exact ⟨t[k.toNat], List.getElem?_eq_getElem this, by
      rw [h1, List.getElem?_map, List.getElem?_eq_getElem this]; rfl⟩
  have hsum : ∀ g : Nat → Nat, ∑ k ∈ x.pq.toFinset, g k.toNat = ((List.range t.length).map g).sum := by
    intro g
    rw [List.sum_toFinset _ hnd, ← h3, List.map_map]; rfl
  refine ⟨fun k => .leaf k.toNat, fun k hk => ?_, fun k hk => ?_, fun o ho => ?_⟩
  · obtain ⟨r, -, hn⟩ := hnode k hk
    exact .leaf hn
  · obtain ⟨r, hr, hn⟩ := hnode k hk
    have := r.count.isLt
    simp only [weightAt, hn, leafOf, Node.weight, HTree.weight, HTree.leaves, countAt, hr, List.map_cons, List.map_nil,
      List.sum_cons, List.sum_nil, BitVec.toNat_setWidth]
    omega
  · obtain ⟨d, hd⟩ := o.depths_function (ho.nodup_iff.2 List.nodup_range)
    refine ⟨fun k => d k.toNat, (o.depths.map Prod.snd).sum, ⟨fun k hk => ?_, ?_⟩, ?_⟩
    · refine List.single_le_sum (by simp) _ (List.mem_map.2 ⟨(k.toNat, d k.toNat), ?_, rfl⟩)
      rw [hd]
      exact List.mem_map_of_mem (ho.mem_iff.2 (List.mem_range.2 (hin k (List.mem_toFinset.1 hk))))
    · rw [hsum (fun i => 2 ^ ((o.depths.map Prod.snd).sum - d i)), ← (ho.map _).sum_eq]
      rw [← o.kraft _ (fun p hp => List.single_le_sum (by simp) _ (List.mem_map_of_mem hp))]
      conv_rhs => rw [hd]
      simp [List.map_map, Function.comp_def, hd]
    · have hc : o.cost t = ((List.range t.length).map (fun i => countAt t i * d i)).sum := by
        rw [HTree.cost, hd, List.map_map, ← (ho.map _).sum_eq]; rfl
      rw [hc, ← hsum (fun i => countAt t i * d i)]
      simp [HTree.weight, HTree.leaves, HTree.cost, HTree.depths]

theorem cheapest_round {t : List FreqEntry} {e e' : Engine} (ht : t.length ≤ 65535) (hf : Forest t e)
    (hc : Cheapest t e) (h : mergeRound e = some e') : Cheapest t e' := by
  have hf' := forest_round ht hf h
  obtain ⟨a, b, ha, hb', hla, hlb, rfl⟩ := mergeRound_some h
  obtain ⟨f, hrep, hwt, hch⟩ := hc
  have hnd := pq_nodup hf.sorted
  have hb : b ∈ e.pq := List.mem_of_mem_erase hb'
  have hab : a ≠ b := fun h => by subst h; exact (List.Nodup.not_mem_erase hnd) hb'
  have hsub : ∀ k ∈ (e.pq.erase a).erase b, k ∈ e.pq := fun k hk => List.mem_of_mem_erase (List.mem_of_mem_erase hk)
  have hne : ∀ k ∈ (e.pq.erase a).erase b, k ≠ a ∧ k ≠ b := fun k hk =>
    ⟨((List.Nodup.mem_erase_iff hnd).1 (List.mem_of_mem_erase hk)).1,
      ((List.Nodup.mem_erase_iff (hnd.erase a)).1 hk).1⟩
  have hnew : ∀ k ∈ e.pq, k ≠ e.nn := fun k hk hkn => by
    have := hf.inRange k hk
    have := hf.nn
    rw [hkn] at *
    omega
  -- the new node's weight is the sum: `inner` of the forest after the round
  let new : Node := .internal (weightAt e.node a + weightAt e.node b) a b
  have hlast : (e.node ++ [new])[e.node.length]? = some new := by simp
  have hwnew : (weightAt (e.node ++ [new]) e.nn).toNat = (f a).weight t + (f b).weight t := by
    obtain ⟨-, -, -, -, hw, -⟩ := hf'.inner e.node.length _ a b hlast
    have : weightAt (e.node ++ [new]) e.nn = weightAt e.node a + weightAt e.node b := by
      unfold weightAt; rw [hf.nn, hlast]; rfl
    rw [this, hw]
    simp only [mergeNodes_node]
    rw [weightAt_append _ (hf.inRange a ha), weightAt_append _ (hf.inRange b hb), hwt a ha, hwt b hb]
  have hmem : ∀ k, k ∈ pqInsert e.nn ((e.pq.erase a).erase b) ↔ k = e.nn ∨ k ∈ (e.pq.erase a).erase b :=
    fun k => mem_pqInsert
  refine ⟨fun k => if k = e.nn then .fork (f a) (f b) else f k, ?_, ?_, ?_⟩
  · simp only [mergeNodes_node, mergeNodes_pq]
    intro k hk
    rcases (hmem k).1 hk with rfl | hk
    · simp only [if_true, hf.nn]
      exact .fork hlast ((hrep a ha).append _) ((hrep b hb).append _)
    · rw [if_neg (hnew k (hsub k hk))]
      exact (hrep k (hsub k hk)).append _
  · simp only [mergeNodes_node, mergeNodes_pq]
    intro k hk
    rcases (hmem k).1 hk with rfl | hk
    · simp only [if_true, HTree.weight_fork]; exact hwnew
    · rw [if_neg (hnew k (hsub k hk)), weightAt_append _ (hf.inRange k (hsub k hk))]
      exact hwt k (hsub k hk)
  · intro o ho
    obtain ⟨d, D, hd, hcost⟩ := hch o ho
    have hkey : ∀ x y, keyLt e.node x y = true → (weightAt e.node x).toNat ≤ (weightAt e.node y).toNat := by
      intro x y hxy
      rcases keyLt_iff.1 hxy with h | h <;> omega
    obtain ⟨d', D', hd', hda, hdb, hpos, hle⟩ := hd.exchange (w := fun k => (f k).weight t)
      (List.mem_toFinset.2 ha) (List.mem_toFinset.2 hb) hab
      (fun k hk => by
        rw [List.mem_toFinset] at hk
        simp only [← hwt a ha, ← hwt k hk]
        by_cases hka : k = a
        · rw [hka]
        · exact hkey _ _ (hla k hk hka))
      (fun k hk hka => by
        rw [List.mem_toFinset] at hk
        simp only [← hwt b hb, ← hwt k hk]
        by_cases hkb : k = b
        · rw [hkb]
        · exact hkey _ _ (hlb k ((List.mem_erase_of_ne hka).2 hk) hkb))
    have hset : (mergeNodes a b { e with pq := (e.pq.erase a).erase b }).pq.toFinset =
        insert e.nn ((e.pq.toFinset.erase a).erase b) := by
      ext k
      simp only [mergeNodes_pq, List.mem_toFinset, hmem, Finset.mem_insert, Finset.mem_erase,
        List.Nodup.mem_erase_iff (hnd.erase a), List.Nodup.mem_erase_iff hnd]
    have hnotin : e.nn ∉ (e.pq.toFinset.erase a).erase b := fun hk => by
      simp only [Finset.mem_erase, List.mem_toFinset] at hk
      exact hnew _ hk.2.2 rfl
    have hb2 : b ∈ e.pq.toFinset.erase a := Finset.mem_erase.2 ⟨Ne.symm hab, List.mem_toFinset.2 hb⟩
    have hsplit : ∀ g : NodeIdx → Nat, ∑ k ∈ e.pq.toFinset, g k =
        g a + (g b + ∑ k ∈ (e.pq.toFinset.erase a).erase b, g k) := fun g => by
      rw [Finset.add_sum_erase _ _ hb2, Finset.add_sum_erase _ _ (List.mem_toFinset.2 ha)]
    have hrest : ∀ k ∈ (e.pq.toFinset.erase a).erase b, k ≠ e.nn := fun k hk hkn => hnotin (hkn ▸ hk)
    have hcongr : ∀ g g' : NodeIdx → Nat, (∀ k, k ≠ e.nn → g k = g' k) →
        ∑ k ∈ (e.pq.toFinset.erase a).erase b, g k = ∑ k ∈ (e.pq.toFinset.erase a).erase b, g' k :=
      fun g g' hg => Finset.sum_congr rfl fun k hk => hg k (hrest k hk)
    refine ⟨fun k => if k = e.nn then D' - 1 else d' k, D', ⟨?_, ?_⟩, ?_⟩
    · rw [hset]
      intro k hk
      rcases Finset.mem_insert.1 hk with rfl | hk
      · simp
      · simp only [if_neg (hrest k hk)]
        exact hd'.1 k (Finset.mem_of_mem_erase (Finset.mem_of_mem_erase hk))
    · have hk := hd'.2
      rw [hsplit, hda, hdb, Nat.sub_self, pow_zero] at hk
      rw [hset, Finset.sum_insert hnotin, hcongr _ (fun k => 2 ^ (D' - d' k)) (fun k hk => by simp [hk])]
      simp only [if_true]
      rw [show D' - (D' - 1) = 1 by omega, pow_one]
      omega
    · have hk := hsplit (fun k => (f k).weight t * d' k)
      have hk2 := hsplit (fun k => (f k).cost t)
      have e1 := hcongr (fun k => (if k = e.nn then HTree.fork (f a) (f b) else f k).weight t *
        if k = e.nn then D' - 1 else d' k) (fun k => (f k).weight t * d' k) (fun k hk => by simp [hk])
      have e2 := hcongr (fun k => (if k = e.nn then HTree.fork (f a) (f b) else f k).cost t)
        (fun k => (f k).cost t) (fun k hk => by simp [hk])
      rw [hset, Finset.sum_insert hnotin, Finset.sum_insert hnotin, e1, e2]
      simp only [if_true, HTree.weight_fork, HTree.cost_fork]
      simp only [hda, hdb] at hk
      have hmul : ((f a).weight t + (f b).weight t) * (D' - 1) + ((f a).weight t + (f b).weight t) =
          (f a).weight t * D' + (f b).weight t * D' := by
        obtain ⟨m, rfl⟩ : ∃ m, D' = m + 1 := ⟨D' - 1, by omega⟩
        simp only [Nat.add_sub_cancel]; ring
      omega

theorem cheapest_all {t : List FreqEntry} (ht : t.length ≤ 65535) (k : Nat) {e : Engine} (hf : Forest t e)
    (hc : Cheapest t e) : Cheapest t (mergeAll k e) := by
  induction k generalizing e with
  | zero => exact hc
  | succ k ih =>
    simp only [mergeAll]
    cases h : mergeRound e with
    | none => exact hc
    | some e' => exact ih (forest_round ht hf h) (cheapest_round ht hf hc h)

/-- Of all trees over the table's leaves, the one under ROOT is a cheapest (R138). -/
theorem buildTree_cheapest (t : List FreqEntry) (e : Engine) (ht : t.length ≤ 65535) (hne : t ≠ []) :
    ∃ tree, Rep (buildTree t e).node (buildTree t e).root.toNat tree ∧
      ∀ o : HTree, o.leaves.Perm (List.range t.length) → tree.cost t ≤ o.cost t := by
  obtain ⟨-, hq, -⟩ := buildTree_spec t e ht hne
  have hc := cheapest_all ht t.length (forest_leaves t e ht) (cheapest_leaves t e ht)
  have hc' : Cheapest t (buildTree t e) := by
    unfold buildTree setRoot
    split <;> exact hc
  obtain ⟨f, hrep, -, hch⟩ := hc'
  refine ⟨f (buildTree t e).root, hrep _ (by simp [hq]), fun o ho => ?_⟩
  obtain ⟨d, D, -, hcost⟩ := hch o ho
  rw [hq] at hcost
  simp only [List.toFinset_cons, List.toFinset_nil, insert_empty_eq, Finset.sum_singleton] at hcost
  omega

end Sys2Proof.Machine
end

