-- ==== Sys2Proof/Laws/PerInstr.lean ====
section
/-! SUPPORT. One lemma per command: its encoding is a well-formed word (30_encoding.md R91 to R93, R96). -/

namespace Sys2Proof.Laws.Encoding

/-- The word of a command has an assigned opcode and a zero `zero` field. -/
abbrev Statement (i : Instr) : Prop := wellFormedWord (Sys2Proof.encode i) = true

theorem nop : Statement .nop := by decide
theorem reset : Statement .reset := by decide
theorem clrerr : Statement .clrerr := by decide

theorem pushs (sym : Sym) : Statement (.pushs sym) := by
  have h1 : (Sys2Proof.encode (.pushs sym)).extractLsb' 24 8 = 0x10#8 := by
    show (0x10#8 ++ 0#3 ++ sym : BitVec (8 + 3 + 21)).extractLsb' 24 8 = 0x10#8
    rw [BitVec.extractLsb'_append_eq_of_le (by omega), BitVec.extractLsb'_append_eq_of_le (by omega)]
    decide
  have h2 : (Sys2Proof.encode (.pushs sym)).extractLsb' 21 3 = 0#3 := by
    show (0x10#8 ++ 0#3 ++ sym : BitVec (8 + 3 + 21)).extractLsb' 21 3 = 0#3
    rw [BitVec.extractLsb'_append_eq_of_le (by omega)]
    decide
  unfold Statement
  simp [wellFormedWord, h1, formatOfOpcode, zeroFieldOk, h2]

theorem pushb (byte : Byte) : Statement (.pushb byte) := by
  have h1 : (Sys2Proof.encode (.pushb byte)).extractLsb' 24 8 = 0x11#8 := by
    show (0x11#8 ++ 0#16 ++ byte : BitVec (8 + 16 + 8)).extractLsb' 24 8 = 0x11#8
    rw [BitVec.extractLsb'_append_eq_of_le (by omega), BitVec.extractLsb'_append_eq_of_le (by omega)]
    decide
  have h2 : (Sys2Proof.encode (.pushb byte)).extractLsb' 8 16 = 0#16 := by
    show (0x11#8 ++ 0#16 ++ byte : BitVec (8 + 16 + 8)).extractLsb' 8 16 = 0#16
    rw [BitVec.extractLsb'_append_eq_of_le (by omega)]
    decide
  unfold Statement
  simp [wellFormedWord, h1, formatOfOpcode, zeroFieldOk, h2]

theorem popb : Statement .popb := by decide
theorem pops : Statement .pops := by decide
theorem hcount : Statement .hcount := by decide
theorem tbuild : Statement .tbuild := by decide
theorem cwalk : Statement .cwalk := by decide
theorem encode : Statement .encode := by decide
theorem pack : Statement .pack := by decide
theorem unpack : Statement .unpack := by decide
theorem decode : Statement .decode := by decide
theorem hwrite : Statement .hwrite := by decide
theorem hread : Statement .hread := by decide
theorem compress : Statement .compress := by decide
theorem decompress : Statement .decompress := by decide

end Sys2Proof.Laws.Encoding
end

