-- ==== Sys2Proof/Laws/Terms.lean ====
section
/-! SUPPORT. The terms of the statements (Safety.lean) and the functions of the model: the one in terms of the other. -/

namespace Sys2Proof.Machine

theorem roomFor_iff {cap : Capacity} {len : Nat} : roomFor cap len ↔ fits cap len = true := by
  cases cap <;> simp [roomFor, fits]

theorem not_roomFor_iff {cap : Capacity} {len : Nat} : ¬ roomFor cap len ↔ fits cap len = false := by
  rw [roomFor_iff, Bool.not_eq_true]

theorem isScalar_iff {x : Sym} : isScalar x = true ↔ scalarValue x := by
  simp [isScalar, scalarValue, BitVec.le_def]

theorem keyLess_iff {node : List Node} {a b : NodeIdx} : keyLess node a b ↔ keyLt node a b = true := keyLt_iff.symm

/-- Bytes of the same bits are the same. -/
theorem bitsOfBytes_inj {x y : List Byte} (h : bitsOfBytes x = bitsOfBytes y) : x = y := by
  rw [← bytesOfBits_bitsOfBytes x, h, bytesOfBits_bitsOfBytes]

/-- The payload section is what `pack` computes (44_bit_packer.md R160). -/
theorem isPayloadSection_iff {b : Bits} {y : List Byte} : isPayloadSection b y ↔ y = packBits b := by
  have h : bitsOfBytes (packBits b) = byteBits (BitVec.ofNat 8 (paddingOf b.length)) ++ b ++
      List.replicate (paddingOf b.length) false := by
    rw [packBits_eq, bitsOfBytes_cons, bitsOfBytes_payload, List.append_assoc]
  unfold isPayloadSection
  rw [show (8 - b.length % 8) = paddingOf b.length from rfl, ← h]
  exact ⟨bitsOfBytes_inj, fun h => h ▸ rfl⟩

/-- The entries of the header are what HWRITE computes (45_header_codec.md R170). -/
theorem isEntries_iff {t : List FreqEntry} {h : List Byte} : isEntries t h ↔ headerEntries t = some h := by
  induction t generalizing h with
  | nil =>
    constructor
    · rintro ⟨us, h1, rfl⟩
      have : us = [] := by simpa using h1.symm
      subst this; rfl
    · intro h1; cases h1; exact ⟨[], rfl, rfl⟩
  | cons r t ih =>
    constructor
    · rintro ⟨us, h1, rfl⟩
      cases us with
      | nil => simp at h1
      | cons u us =>
        simp only [List.map_cons, List.cons.injEq] at h1
        exact headerEntries_cons.2 ⟨_, _, headerEntry_some.2 ⟨u, h1.1, rfl⟩, ih.1 ⟨us, h1.2, rfl⟩, by simp⟩
    · intro h1
      obtain ⟨h2, h3, e2, e3, rfl⟩ := headerEntries_cons.1 h1
      obtain ⟨u, hu, rfl⟩ := headerEntry_some.1 e2
      obtain ⟨us, hus, rfl⟩ := ih.2 e3
      exact ⟨u :: us, by simp [hu, hus], by simp⟩

theorem isHeader_iff {t : List FreqEntry} {h : List Byte} :
    isHeader t h ↔ headerOf (BitVec.ofNat 16 t.length) t = some h := by
  unfold isHeader headerOf
  cases he : headerEntries t with
  | none => simp [isEntries_iff, he]
  | some e => simp [isEntries_iff, he, eq_comm]

/-- The codes one after another are what ENCODE computes (46_codec_sequencer.md R185). -/
theorem encodeSymbols_iff {ct : List CodeEntry} {text : List Sym} {b : Bits} : encodeSymbols ct text = some b ↔
    ∃ codes : List Bits, text.map (enc ct) = codes.map some ∧ b = codes.flatten := by
  induction text generalizing b with
  | nil =>
    constructor
    · intro h; cases h; exact ⟨[], rfl, rfl⟩
    · rintro ⟨codes, h1, rfl⟩
      have : codes = [] := by simpa using h1.symm
      subst this; rfl
  | cons x text ih =>
    rw [encodeSymbols_cons]
    constructor
    · rintro ⟨c, b', h1, h2, rfl⟩
      obtain ⟨codes, h3, rfl⟩ := ih.1 h2
      exact ⟨c :: codes, by simp [h1, h3], by simp⟩
    · rintro ⟨codes, h1, rfl⟩
      cases codes with
      | nil => simp at h1
      | cons c codes =>
        simp only [List.map_cons, List.cons.injEq] at h1
        exact ⟨c, codes.flatten, h1.1, ih.2 ⟨codes, h1.2, rfl⟩, by simp⟩

/-- What DECODE's loop answers is greedy matching (46_codec_sequencer.md R186), here from any accumulator in which no
code has been met. -/
theorem decodeBits_greedy {ct : List CodeEntry} (acc bits : Bits)
    (hacc : ∀ q, q <+: acc → q ≠ [] → dec ct q = none) :
    ∃ pieces : List Bits, acc ++ bits = pieces.flatten ++ (decodeBits ct acc bits).2 ∧
      pieces.map (dec ct) = (decodeBits ct acc bits).1.map some ∧
      (∀ p ∈ pieces, p ≠ [] ∧ ∀ q, q <+: p → q ≠ [] → q ≠ p → dec ct q = none) ∧
      ∀ q, q <+: (decodeBits ct acc bits).2 → q ≠ [] → dec ct q = none := by
  induction bits generalizing acc with
  | nil => exact ⟨[], by simp [decodeBits], by simp [decodeBits], by simp, by simpa [decodeBits] using hacc⟩
  | cons b bits ih =>
    simp only [decodeBits]
    cases hd : dec ct (acc ++ [b]) with
    | some x =>
      obtain ⟨pieces, h1, h2, h3, h4⟩ := ih [] (fun q hq hne => absurd (List.prefix_nil.1 hq) hne)
      refine ⟨(acc ++ [b]) :: pieces, ?_, by simp [hd, h2], ?_, h4⟩
      · simp only [List.nil_append] at h1
        rw [List.flatten_cons, List.append_assoc, ← h1]; simp
      · intro p hp
        rcases List.mem_cons.1 hp with rfl | hp
        · refine ⟨by simp, fun q hq hne hqp => hacc q ?_ hne⟩
          rcases List.prefix_concat_iff.1 hq with h | h
          · exact absurd h hqp
          · exact h
        · exact h3 p hp
    | none =>
      obtain ⟨pieces, h1, h2, h3, h4⟩ := ih (acc ++ [b]) (fun q hq hne => by
        rcases List.prefix_concat_iff.1 hq with h | h
        · rw [h]; exact hd
        · exact hacc q h hne)
      exact ⟨pieces, by simpa using h1, h2, h3, h4⟩

theorem greedySplit_decodeBits (ct : List CodeEntry) (bits : Bits) :
    greedySplit ct bits (decodeBits ct [] bits).1 (decodeBits ct [] bits).2 := by
  obtain ⟨pieces, h1, h2, h3, h4⟩ := decodeBits_greedy (ct := ct) [] bits
    (fun q hq hne => absurd (List.prefix_nil.1 hq) hne)
  exact ⟨pieces, by simpa using h1, h2, h3, h4⟩

/-- A DECODE that completes sets RES exactly when bits are left over (46_codec_sequencer.md R189). -/
theorem decodeBody_res {cfg : Capacities} {e e' : Engine} (h : decodeBody cfg e = .done e') :
    ∃ left, bitsLeft e' left ∧ (e'.res = true ↔ left ≠ []) := by
  obtain ⟨-, -, out, acc, hd, -, rfl⟩ := decodeBody_done.1 h
  refine ⟨acc, ⟨fun h1 => ?_, fun h1 => ?_⟩, by simp⟩
  · cases hf : e.ft <;> simp_all [decodePayload]
  · rw [decodePayload, if_neg h1] at hd
    have hd' : decodeBits e.ct [] e.bits = (out, acc) := Option.some.inj hd
    exact ⟨out, by simpa [hd'] using greedySplit_decodeBits e.ct e.bits⟩

/-- The values of 10_state.md R49 are those of `Engine.reset`. -/
theorem atReset_iff {e : Engine} : atReset e ↔ e = Engine.reset := by
  cases e
  simp [atReset, Engine.reset]

end Sys2Proof.Machine
end

