-- ==== Sys2Proof/Laws/Sound.lean ====
section
/-! SUPPORT. What a sound engine with a valid tree or a valid code table holds. -/

namespace Sys2Proof.Machine

theorem forest_of_sameTree {t : List FreqEntry} {a b : Engine} (h : SameTree a b) (hf : Forest t b) : Forest t a := by
  cases a
  cases b
  obtain ⟨rfl, rfl, rfl, rfl, rfl⟩ := h
  exact ⟨hf.nn, hf.size, hf.low, hf.sorted, hf.inRange, hf.leaves, hf.trees, hf.weights, hf.inner, hf.top, hf.below,
    hf.least, hf.upper⟩

/-- With TREEV the arena is the forest of FT, a single tree under ROOT where FT is not empty. -/
theorem sound_tree {e : Engine} (h : EngineSound e) (ht : e.treev = true) :
    e.ft.length ≤ 65535 ∧ Forest e.ft e ∧ (e.ft ≠ [] → e.pq = [e.root] ∧ e.rootv = true) ∧
      (e.ft = [] → e.n = 0 ∧ e.rootv = false) := by
  obtain ⟨-, -, ⟨hn, -⟩, ⟨hs, -⟩, -⟩ := h
  have hs := hs ht
  have hl : e.ft.length ≤ 65535 := by have := e.n.isLt; omega
  refine ⟨hl, forest_of_sameTree hs (buildTree_forest _ _ hl), fun hne => ?_, fun h0 => ?_⟩
  · obtain ⟨-, hq, hv⟩ := buildTree_spec e.ft Engine.reset hl hne
    obtain ⟨-, -, h3, h4, h5⟩ := hs
    exact ⟨by rw [h5, h3, hq], by rw [h4, hv]⟩
  · rw [h0, buildTree_nil] at hs
    rw [h0] at hn
    exact ⟨BitVec.eq_of_toNat_eq (by simpa using hn), hs.2.2.2.1⟩

/-- With TREEV the walk binds every entry of FT to its path (43_code_table.md R150). -/
theorem sound_walk {e : Engine} (h : EngineSound e) (ht : e.treev = true) (hne : e.ft ≠ []) :
    ∃ (cs : List CodeEntry) (tree : HTree), codesOfTree e = some cs ∧ cs.length = e.ft.length ∧
      Rep e.node e.root.toNat tree ∧ tree.leaves.Perm (List.range e.ft.length) ∧
      ∀ p ∈ tree.paths, ∃ r, e.ft[p.1]? = some r ∧ cs[p.1]? = some ⟨r.sym, p.2⟩ := by
  obtain ⟨-, hf, hq, -⟩ := sound_tree h ht
  exact codesOfTree_forest hf (hq hne).1 (hq hne).2 h.2.2.1.1

/-- With CTV, CT holds the paths of the tree: entry `i` the symbol of entry `i` of FT and the path of leaf `i`. -/
theorem sound_codes {e : Engine} (h : EngineSound e) (hc : e.ctv = true) :
    (e.ft = [] → e.ct = []) ∧
    (e.ft ≠ [] → ∃ tree : HTree, e.ct.length = e.ft.length ∧ Rep e.node e.root.toNat tree ∧
      tree.leaves.Perm (List.range e.ft.length) ∧
      (∀ p ∈ tree.paths, ∃ r, e.ft[p.1]? = some r ∧ e.ct[p.1]? = some ⟨r.sym, p.2⟩) ∧
      ∀ (i : Nat) (c : CodeEntry), e.ct[i]? = some c → (i, c.code) ∈ tree.paths ∧
        ∃ r, e.ft[i]? = some r ∧ c.sym = r.sym) := by
  have ht : e.treev = true := h.2.2.2.2.2.1.1 hc
  have hct := h.2.2.2.2.1.1 hc
  refine ⟨fun h0 => ?_, fun hne => ?_⟩
  · obtain ⟨hn, hv⟩ := (sound_tree h ht).2.2.2 h0
    rw [codesOfTree_empty hv hn] at hct
    exact (Option.some.inj hct).symm
  · obtain ⟨cs, tree, hcs, hl, hr, hp, hb⟩ := sound_walk h ht hne
    rw [hct] at hcs
    cases hcs
    refine ⟨tree, hl, hr, hp, hb, fun i c hi => ?_⟩
    have hil : i < e.ft.length := by rw [← hl]; exact (List.getElem?_eq_some_iff.1 hi).1
    have hmem : i ∈ tree.paths.map Prod.fst := by
      rw [HTree.paths_fst, hp.mem_iff]; exact List.mem_range.2 hil
    obtain ⟨p, hpm, rfl⟩ := List.mem_map.1 hmem
    obtain ⟨r, h1, h2⟩ := hb p hpm
    rw [hi] at h2
    cases h2
    exact ⟨hpm, r, h1, rfl⟩

/-- With CTV the lookups find every entry of CT (43_code_table.md R153). -/
theorem sound_lookups {e : Engine} (h : EngineSound e) (hc : e.ctv = true) :
    ∀ c ∈ e.ct, enc e.ct c.sym = some c.code ∧ dec e.ct c.code = some c.sym := by
  obtain ⟨h0, h1⟩ := sound_codes h hc
  by_cases hne : e.ft = []
  · rw [h0 hne]; simp
  · obtain ⟨tree, hl, -, hp, -, hb⟩ := h1 hne
    have hsyms : e.ct.map CodeEntry.sym = e.ft.map FreqEntry.sym := by
      apply List.ext_getElem (by simpa using hl)
      intro i hi1 hi2
      simp only [List.length_map] at hi1 hi2
      obtain ⟨-, r, hr, hs⟩ := hb i e.ct[i] (List.getElem?_eq_getElem hi1)
      rw [List.getElem?_eq_getElem hi2] at hr
      simp only [List.getElem_map, hs, Option.some.inj hr]
    intro c hcm
    refine ⟨enc_mem (by rw [hsyms]; exact h.2.2.1.2.2.1) hcm, dec_mem (fun a ha b hb' hab => ?_) hcm⟩
    obtain ⟨i, hi⟩ := List.mem_iff_getElem?.1 ha
    obtain ⟨j, hj⟩ := List.mem_iff_getElem?.1 hb'
    have := HTree.paths_prefix (hb i a hi).1 (hb j b hj).1 (by simp [hab])
    have hij : i = j := congrArg Prod.fst this
    subst hij
    rw [hi] at hj
    exact Option.some.inj hj

/-- Every bit sequence begins with the path of a leaf (43_code_table.md R158). -/
theorem HTree.path_of_bits (tree : HTree) (bit : Nat → Bool) :
    ∃ p ∈ tree.paths, ∀ i, i < p.2.length → p.2[i]? = some (bit i) := by
  induction tree generalizing bit with
  | leaf i => exact ⟨(i, []), by simp [HTree.paths], by simp⟩
  | fork l r ihl ihr =>
    have hstep : ∀ (b : Bool) (q : Bits), bit 0 = b → (∀ i, i < q.length → q[i]? = some (bit (i + 1))) →
        ∀ i, i < (b :: q).length → (b :: q)[i]? = some (bit i) := by
      intro b q hb hq i hi
      cases i with
      | zero => simp [hb]
      | succ i => simpa using hq i (by simpa using hi)
    cases hb : bit 0 with
    | false =>
      obtain ⟨p, hp, h⟩ := ihl (fun i => bit (i + 1))
      exact ⟨(p.1, false :: p.2), by simp only [HTree.paths, List.mem_append, List.mem_map]; exact .inl ⟨p, hp, rfl⟩,
        hstep false p.2 hb h⟩
    | true =>
      obtain ⟨p, hp, h⟩ := ihr (fun i => bit (i + 1))
      exact ⟨(p.1, true :: p.2), by simp only [HTree.paths, List.mem_append, List.mem_map]; exact .inr ⟨p, hp, rfl⟩,
        hstep true p.2 hb h⟩

end Sys2Proof.Machine
end

