-- ==== Sys2Proof/Tests/Slice0.lean ====
section
/-! SUPPORT. The model's own tests: the word checks, decoding, one step per command on the spec's worked examples, and
for every statement with hypotheses a witness that meets them. -/

namespace Sys2Proof.Tests
open Sys2Proof Sys2Proof.Machine

/-! Word checks: an ill-formed word for each check, refused (30_encoding.md R96). -/

theorem test_wf_unassigned_opcode : wellFormedWord 0x03000000 = false := by decide
theorem test_wf_z_low_bits : wellFormedWord 0x20000001 = false := by decide
theorem test_wf_pushs_bits_23_21 : wellFormedWord 0x10200000 = false := by decide
theorem test_wf_pushb_bits_23_8 : wellFormedWord 0x11000100 = false := by decide
theorem test_wf_pushs_surrogate_is_legal : wellFormedWord 0x1000D800 = true := by decide

/-! Decoding: one word per command, written from the fields of 30_encoding.md R91 to R95. -/

theorem test_decode_nop : decode 0b00000000000000000000000000000000 = .command .nop := by decide
theorem test_decode_reset : decode 0b00000001000000000000000000000000 = .command .reset := by decide
theorem test_decode_clrerr : decode 0b00000010000000000000000000000000 = .command .clrerr := by decide
theorem test_decode_pushs : decode 0b00010000000100001111111111111111 = .command (.pushs 0x10FFFF) := by decide
theorem test_decode_pushb : decode 0b00010001000000000000000010000001 = .command (.pushb 0x81) := by decide
theorem test_decode_popb : decode 0b00010010000000000000000000000000 = .command .popb := by decide
theorem test_decode_pops : decode 0b00010011000000000000000000000000 = .command .pops := by decide
theorem test_decode_hcount : decode 0b00100000000000000000000000000000 = .command .hcount := by decide
theorem test_decode_tbuild : decode 0b00100001000000000000000000000000 = .command .tbuild := by decide
theorem test_decode_cwalk : decode 0b00100010000000000000000000000000 = .command .cwalk := by decide
theorem test_decode_encode : decode 0b00100011000000000000000000000000 = .command .encode := by decide
theorem test_decode_pack : decode 0b00100100000000000000000000000000 = .command .pack := by decide
theorem test_decode_unpack : decode 0b00100101000000000000000000000000 = .command .unpack := by decide
theorem test_decode_decode : decode 0b00100110000000000000000000000000 = .command .decode := by decide
theorem test_decode_hwrite : decode 0b00100111000000000000000000000000 = .command .hwrite := by decide
theorem test_decode_hread : decode 0b00101000000000000000000000000000 = .command .hread := by decide
theorem test_decode_compress : decode 0b00110000000000000000000000000000 = .command .compress := by decide
theorem test_decode_decompress : decode 0b00110001000000000000000000000000 = .command .decompress := by decide
theorem test_decode_unassigned : decode 0x29000000 = .illegal .unassignedOpcode := by decide
theorem test_decode_reserved : decode 0x11000100 = .illegal .reservedBits := by decide

/-! One step per command. -/

/-- A machine over this engine with unbounded capacities and nothing pending. -/
def machine (e : Engine) : State := { State.reset with eng := e }

/-- The next state's engine passes the check. -/
def after (i : Instr) (e : Engine) (check : Engine → Bool) : Bool :=
  match exec i (machine e) with
  | .next t => check t.eng
  | _ => false

/-- The engine a body completes with. -/
def completed (r : Ending) : Engine :=
  match r with
  | .done e => e
  | _ => Engine.reset

/-- The fault record reads so. -/
def record (e : Engine) (code info : BitVec 8) (w : Word) : Bool :=
  e.err && e.errcode == code && e.errinfo == info && e.errcmd == w

/-- "aaabbc" (95_test_vectors.md S1). -/
def abcText : List Sym := [0x61, 0x61, 0x61, 0x62, 0x62, 0x63]

/-- `[(a, 3), (b, 2), (c, 1)]` (S1). -/
def abcTable : List FreqEntry := [⟨0x61, 3⟩, ⟨0x62, 2⟩, ⟨0x63, 1⟩]

/-- The header of `abcTable` (45_header_codec.md R170). -/
def abcHeader : List Byte :=
  [0x00, 0x03, 0x01, 0x61, 0x00, 0x00, 0x00, 0x03, 0x01, 0x62, 0x00, 0x00, 0x00, 0x02, 0x01, 0x63, 0x00, 0x00, 0x00,
    0x01]

/-- '000111110' (S1). -/
def abcBits : Bits := [false, false, false, true, true, true, true, true, false]

/-- `[(a, '0'), (b, '11'), (c, '10')]` (S1). -/
def abcCodes : List CodeEntry := [⟨0x61, [false]⟩, ⟨0x62, [true, true]⟩, ⟨0x63, [true, false]⟩]

/-- With "aaabbc" counted. -/
def counted : Engine := { Engine.reset with symIn := abcText, ft := abcTable, n := 3, ftv := true }

/-- And its tree built. -/
def built : Engine := completed (tbuildBody counted)

/-- And its codes walked. -/
def walked : Engine := completed (cwalkBody built)

/-- And the text encoded. -/
def encoded : Engine := { walked with bits := abcBits, bitsv := true }

/-- With "zzzz" read from a header and no payload bit (S2). -/
def zzzz : Engine :=
  { completed (cwalkBody (completed (tbuildBody { Engine.reset with ft := [⟨0x7A, 4⟩], n := 1, ftv := true }))) with
    bitsv := true }

/-- A fault held over the encoded text. -/
def held : Engine := { encoded with err := true, errcode := 5, errinfo := 0, errcmd := 0x1000D800 }

-- 40_host_data.md R110
theorem test_nop_held : after .nop held (fun e => e == held) = true := by decide
-- 47_system.md R200
theorem test_reset : after .reset held (fun e => e == Engine.reset) = true := by decide
-- 47_system.md R201
theorem test_clrerr : after .clrerr held (fun e => e == encoded) = true := by decide
-- 40_host_data.md R111, both examples
theorem test_pushs : after (.pushs 0x61) Engine.reset (fun e => e.symIn == [0x61] && !e.err) = true := by decide
theorem test_pushs_surrogate :
    after (.pushs 0xD800) Engine.reset (fun e => record e 5 0 0x1000D800 && e.symIn == []) = true := by decide
-- R112
theorem test_pushb : after (.pushb 0x08) Engine.reset (fun e => e.byteIn == [0x08]) = true := by decide
-- R113
theorem test_popb : after .popb { Engine.reset with byteOut := [0x07, 0x1F, 0x00] }
    (fun e => e.rdata == 0x00000007 && e.byteOut == [0x1F, 0x00]) = true := by decide
theorem test_popb_empty : after .popb Engine.reset (fun e => record e 7 0 0x12000000) = true := by decide
-- R114
theorem test_pops : after .pops { Engine.reset with symOut := [0x7A, 0x7A] }
    (fun e => e.rdata == 0x0000007A && e.symOut == [0x7A]) = true := by decide
-- 41_frequency_counter.md R120
theorem test_hcount : after .hcount { Engine.reset with symIn := abcText }
    (fun e => e.ft == abcTable && e.n == 3 && statusWord e == 0x02) = true := by decide
-- 42_tree_builder.md R130
theorem test_tbuild : after .tbuild counted (fun e => e.node == [.leaf 0x61 3, .leaf 0x62 2, .leaf 0x63 1,
    .internal 3 2 1, .internal 6 0 3] && e.nn == 5 && e.root == 4 && e.rootv && e.pq == [4]) = true := by decide
-- R141: counts 1, 1, 2, 2 merge the two later leaves with each other
theorem test_tbuild_tie : after .tbuild
    { Engine.reset with ft := [⟨0x61, 1⟩, ⟨0x62, 1⟩, ⟨0x63, 2⟩, ⟨0x64, 2⟩], n := 4, ftv := true }
    (fun e => e.node.drop 4 == [.internal 2 0 1, .internal 4 2 3, .internal 6 4 5]) = true := by decide
-- 43_code_table.md R150
theorem test_cwalk : after .cwalk built (fun e => e.ct == abcCodes && e.ctv) = true := by decide
-- 46_codec_sequencer.md R185
theorem test_encode : after .encode walked (fun e => e.bits == abcBits && e.bitsv) = true := by decide
theorem test_encode_nocode : after .encode { walked with symIn := abcText ++ [0x64] }
    (fun e => record e 6 0 0x23000000 && !e.bitsv) = true := by decide
-- 44_bit_packer.md R160, the example and the empty bitstring
theorem test_pack : after .pack encoded (fun e => e.byteOut == [0x07, 0x1F, 0x00] && e.pad == 7) = true := by decide
theorem test_pack_empty : after .pack { Engine.reset with bitsv := true }
    (fun e => e.byteOut == [0x08, 0x00] && e.pad == 8) = true := by decide
-- R161, the example and `09 00 00`
theorem test_unpack : after .unpack { Engine.reset with byteIn := [0x07, 0x1F, 0x00] }
    (fun e => e.bits == abcBits && e.pad == 7 && e.byteIn == []) = true := by decide
theorem test_unpack_count : after .unpack { Engine.reset with byteIn := [0x09, 0x00, 0x00] }
    (fun e => record e 1 7 0x25000000 && e.byteIn == [0x09, 0x00, 0x00]) = true := by decide
-- 46_codec_sequencer.md R186, R187
theorem test_decode_step : after .decode encoded (fun e => e.symOut == abcText && !e.res) = true := by decide
theorem test_decode_one : after .decode zzzz (fun e => e.symOut == [0x7A, 0x7A, 0x7A, 0x7A] && !e.res) = true := by
  decide
-- 45_header_codec.md R170, both examples
theorem test_hwrite : after .hwrite counted (fun e => e.byteOut == abcHeader) = true := by decide
theorem test_hwrite_euro : after .hwrite { Engine.reset with ft := [⟨0x20AC, 2⟩], n := 1, ftv := true }
    (fun e => e.byteOut == [0x00, 0x01, 0x03, 0xE2, 0x82, 0xAC, 0x00, 0x00, 0x00, 0x02]) = true := by decide
-- R171, both examples
theorem test_hread : after .hread
    { Engine.reset with byteIn := [0x00, 0x01, 0x01, 0x7A, 0x00, 0x00, 0x00, 0x04, 0x08, 0x00] }
    (fun e => e.ft == [⟨0x7A, 4⟩] && e.n == 1 && e.byteIn == [0x08, 0x00] && statusWord e == 0x02) = true := by decide
theorem test_hread_short : after .hread
    { Engine.reset with byteIn := [0x00, 0x02, 0x01, 0x61, 0x00, 0x00, 0x00, 0x01] }
    (fun e => record e 1 2 0x28000000 && e.ft == []) = true := by decide
-- 46_codec_sequencer.md R190
theorem test_compress : after .compress { Engine.reset with symIn := abcText }
    (fun e => e.byteOut == abcHeader ++ [0x07, 0x1F, 0x00] && statusWord e == 0x1E && e.pad == 7) = true := by decide
theorem test_compress_empty : after .compress Engine.reset
    (fun e => e.byteOut == [0x00, 0x00, 0x08, 0x00]) = true := by decide
-- R191
theorem test_decompress : after .decompress
    { Engine.reset with byteIn := [0x00, 0x01, 0x01, 0x7A, 0x00, 0x00, 0x00, 0x04, 0x08, 0x00] }
    (fun e => e.symOut == [0x7A, 0x7A, 0x7A, 0x7A] && statusWord e == 0x1E && e.pad == 8 && e.byteIn == []) = true := by
  decide
theorem test_decompress_no_payload : after .decompress { Engine.reset with byteIn := [0x00, 0x00] }
    (fun e => record e 1 6 0x31000000 && e.byteIn == [0x00, 0x00] && !e.ftv) = true := by decide
-- 46_codec_sequencer.md R190: NSYM, NNODE, ROOTR, BLEN after COMPRESS of "aaabbc"
theorem test_register_reads : [0x6, 0x7, 0x8, 0xE].map (fun idx => regRead idx encoded) = [3, 5, 0x20004, 9] := by
  decide
-- 60_exceptions.md R223: a command is ignored while a fault is held
theorem test_step_held : (match step ((machine held).withFetchWord 32 0x12000000) with
    | .next t => t.eng == held && t.pending.isEmpty | _ => false) = true := by decide

/-! Witnesses: for every statement with hypotheses, concrete states and operands that meet them, at the boundary values
of its clauses. `none` is an unbounded capacity and `some 0` one that holds nothing. -/

theorem roomFor_unbounded (len : Nat) : roomFor none len := by simp [roomFor]

theorem not_roomFor_zero (len : Nat) : ¬ roomFor (some 0) (len + 1) := by simp [roomFor]

theorem length_eraseDups_le (text : List Sym) : text.eraseDups.length ≤ text.length :=
  List.Subperm.length_le (List.subperm_of_subset (nodup_eraseDups text) fun _ h => List.mem_eraseDups.mp h)

theorem countable_of_length {text : List Sym} (h : text.length ≤ 65535) : countable text :=
  ⟨by have := length_eraseDups_le text; omega, fun x => by have := List.count_le_length (a := x) (l := text); omega⟩

/-- The symbols 0 to n − 1. -/
def firstSymbols (n : Nat) : List Sym := (List.range n).map (BitVec.ofNat 21)

theorem firstSymbols_spec (n : Nat) (h : n ≤ 65535) :
    countable (firstSymbols n) ∧ (firstSymbols n).eraseDups.length = n ∧ 0x1F600#21 ∉ firstSymbols n := by
  have hinj : ∀ a b : Nat, a < 2 ^ 21 → b < 2 ^ 21 → BitVec.ofNat 21 a = BitVec.ofNat 21 b → a = b := by
    intro a b ha hb hab
    have h' := congrArg BitVec.toNat hab
    simp only [BitVec.toNat_ofNat] at h'
    omega
  have hnd : (firstSymbols n).Nodup := by
    refine List.Nodup.map_on (fun a ha b hb hab => ?_) List.nodup_range
    rw [List.mem_range] at ha hb
    exact hinj a b (by omega) (by omega) hab
  have hl : (firstSymbols n).length = n := by simp [firstSymbols]
  refine ⟨countable_of_length (by omega), ?_, fun hm => ?_⟩
  · have h1 := List.Subperm.length_le (List.subperm_of_subset hnd fun _ h => List.mem_eraseDups.mpr h)
    have h2 := length_eraseDups_le (firstSymbols n)
    omega
  · obtain ⟨a, ha, hab⟩ := List.mem_map.mp hm
    rw [List.mem_range] at ha
    exact absurd (hinj a 0x1F600 (by omega) (by omega) hab) (by omega)

theorem repeated_spec (n : Nat) (h : n ≤ 4294967295) (x : Sym) :
    countable (List.replicate n x) ∧ (List.replicate n x).count x = n := by
  refine ⟨⟨?_, fun y => ?_⟩, List.count_replicate_self⟩
  · have hs : (List.replicate n x).eraseDups ⊆ [x] := fun y hy =>
      List.mem_singleton.mpr (List.eq_of_mem_replicate (List.mem_eraseDups.mp hy))
    have := List.Subperm.length_le (List.subperm_of_subset (nodup_eraseDups _) hs)
    simp only [List.length_singleton] at this
    omega
  · have := List.count_le_length (a := y) (l := List.replicate n x)
    rw [List.length_replicate] at this
    omega

/-- The access list holds this one access. -/
def facing (a : HostAccess) (e : Engine) : State := { machine e with pending := [a] }

/-- `decide` on a bounded quantifier over symbols would try all 2^21 of them; on `List.all` it runs the list. -/
theorem symbolsScalar_of_all {e : Engine} (h : (e.symIn.all isScalar && e.symOut.all isScalar &&
    e.ft.all (fun t => isScalar t.sym) && e.ct.all (fun c => isScalar c.sym)) = true) : SymbolsScalar e := by
  simpa only [Bool.and_eq_true, List.all_eq_true, and_assoc] using h

theorem counted_sound : EngineSound counted :=
  ⟨by decide, symbolsScalar_of_all (by decide), by decide, by decide, by decide, by decide, by decide, by decide⟩

theorem built_sound : EngineSound built :=
  ⟨by decide, symbolsScalar_of_all (by decide), by decide, by decide, by decide, by decide, by decide, by decide⟩

theorem walked_sound : EngineSound walked :=
  ⟨by decide, symbolsScalar_of_all (by decide), by decide, by decide, by decide, by decide, by decide, by decide⟩

theorem encoded_sound : EngineSound encoded :=
  ⟨by decide, symbolsScalar_of_all (by decide), by decide, by decide, by decide, by decide, by decide, by decide⟩

theorem zzzz_sound : EngineSound zzzz :=
  ⟨by decide, symbolsScalar_of_all (by decide), by decide, by decide, by decide, by decide, by decide, by decide⟩

theorem witness_StepRunsTheDecodedCommand :
    (facing (.regWrite 0 0x12000000) Engine.reset).pending = .regWrite 0 0x12000000 :: [] ∧
      decode 0x12000000 = .command .popb := by decide

theorem witness_IllegalWordFaults :
    (facing (.regWrite 0 0x11000100) Engine.reset).pending = .regWrite 0 0x11000100 :: [] ∧
      (facing (.regWrite 0 0x11000100) Engine.reset).eng.err = false ∧
      (∀ r ∈ opcodeRows, (0x11000100 : Word) &&& r.2 ≠ r.1) ∧ ∀ r ∈ opcodeRows, (0x03000000 : Word) &&& r.2 ≠ r.1 :=
  ⟨rfl, rfl, by simp [opcodeRows], by simp [opcodeRows]⟩

theorem witness_HeldFaultIgnoresCommands :
    held.err = true ∧ (facing (.regWrite 0 0x02000001) held).pending = .regWrite 0 0x02000001 :: [] ∧
      (0x02000001 : Word) ≠ 0x00000000 ∧ (0x02000001 : Word) ≠ 0x01000000 ∧ (0x02000001 : Word) ≠ 0x02000000 ∧
      (facing (.regWrite 0 0x02000000) held).pending = .regWrite 0 0x02000000 :: [] ∧
      (facing (.regWrite 0 0x01000000) held).pending = .regWrite 0 0x01000000 :: [] ∧
      (facing (.regWrite 0 0x00000000) held).pending = .regWrite 0 0x00000000 :: [] ∧
      (facing (.regRead 0x4) held).pending = .regRead 0x4 :: [] := by decide

theorem witness_RegisterReadsFollowTheMap :
    (facing (.regRead 0xE) encoded).pending = .regRead 0xE :: [] ∧ encoded.symIn.length < 2 ^ 64 ∧
      encoded.byteIn.length < 2 ^ 64 ∧ encoded.byteOut.length < 2 ^ 64 ∧ encoded.symOut.length < 2 ^ 64 ∧
      encoded.bits.length < 2 ^ 64 := by decide

theorem witness_AccessesOffTheMapDoNothing :
    (facing (.regWrite 1 5) held).pending = .regWrite 1 5 :: [] ∧ (1 : BitVec 4) ≠ 0 ∧
      (facing (.regRead 0xF) held).pending = .regRead 0xF :: [] ∧
      (facing (.regRead 0) held).pending = .regRead 0 :: [] := by decide

theorem witness_IdleStepChangesNothing : (machine encoded).pending = [] := rfl

theorem witness_ResetGivesResetValues :
    (facing .hardReset encoded).pending = .hardReset :: [] ∧ atReset Engine.reset := by
  simp [facing, atReset, Engine.reset]

theorem witness_AfterResetCommandsRun :
    atReset State.reset.eng ∧ roomFor State.reset.cfg.byteOut 4 ∧
      atReset (State.mk ⟨some 0, some 0, some 4, some 0, some 0⟩ Engine.reset [] []).eng ∧ roomFor (some 4) 4 ∧
      ¬ roomFor (some 3) 4 := by
  simp [atReset, State.reset, Engine.reset, Capacities.unbounded, roomFor]

theorem witness_PushsAppendsOrFaults :
    Engine.reset.err = false ∧ scalarValue 0xD7FF ∧ ¬ scalarValue 0xD800 ∧ ¬ scalarValue 0xDFFF ∧
      scalarValue 0xE000 ∧ scalarValue 0x10FFFF ∧ ¬ scalarValue 0x110000 ∧ roomFor none (0 + 1) ∧
      ¬ roomFor (some 0) (0 + 1) :=
  ⟨rfl, by simp [scalarValue], by simp [scalarValue], by simp [scalarValue], by simp [scalarValue],
    by simp [scalarValue], by simp [scalarValue], roomFor_unbounded _, not_roomFor_zero _⟩

theorem witness_PushbAppendsOrFaults :
    Engine.reset.err = false ∧ roomFor none (0 + 1) ∧ ¬ roomFor (some 0) (0 + 1) :=
  ⟨rfl, roomFor_unbounded _, not_roomFor_zero _⟩

theorem witness_PopbDeliversTheOldestByte :
    ({ Engine.reset with byteOut := [0x07] } : Engine).err = false ∧
      ({ Engine.reset with byteOut := [0x07] } : Engine).byteOut = 0x07 :: [] ∧ Engine.reset.byteOut = [] := by decide

theorem witness_PopsDeliversTheOldestSymbol :
    ({ Engine.reset with symOut := [0x7A] } : Engine).err = false ∧
      ({ Engine.reset with symOut := [0x7A] } : Engine).symOut = 0x7A :: [] ∧ Engine.reset.symOut = [] := by decide

theorem witness_HcountMakesTheHistogram : counted.err = false ∧ countable counted.symIn :=
  ⟨rfl, countable_of_length (by decide)⟩

theorem witness_HcountFaultsAtTheLimits_symbols :
    ∃ text : List Sym, countable text ∧ 0x1F600#21 ∉ text ∧ text.eraseDups.length = 65535 ∧
      ∃ s : State, s.eng.err = false ∧ s.eng.symIn = text ++ 0x1F600#21 :: [] := by
  obtain ⟨text, hc, hl, hm⟩ : ∃ text : List Sym, countable text ∧ text.eraseDups.length = 65535 ∧ 0x1F600#21 ∉ text :=
    ⟨_, firstSymbols_spec 65535 (Nat.le_refl 65535)⟩
  exact ⟨text, hc, hm, hl, machine { Engine.reset with symIn := text ++ [0x1F600#21] }, rfl, rfl⟩

theorem witness_HcountFaultsAtTheLimits_count :
    ∃ text : List Sym, countable text ∧ text.count 0x7A = 4294967295 ∧
      ∃ s : State, s.eng.err = false ∧ s.eng.symIn = text ++ 0x7A#21 :: [] := by
  obtain ⟨text, hc, hl⟩ : ∃ text : List Sym, countable text ∧ text.count 0x7A = 4294967295 :=
    ⟨_, repeated_spec 4294967295 (Nat.le_refl 4294967295) 0x7A#21⟩
  exact ⟨text, hc, hl, machine { Engine.reset with symIn := text ++ [0x7A#21] }, rfl, rfl⟩

theorem witness_PriorityQueueOperations :
    ([1, 4] : List NodeIdx).Pairwise (fun a b => a < b) ∧ ([1, 4] : List NodeIdx) ≠ [] := by decide

theorem witness_TbuildBuildsTheTree :
    counted.err = false ∧ counted.ftv = true ∧ counted.n.toNat = counted.ft.length ∧ counted.ft ≠ [] ∧
      zzzz.err = false ∧ zzzz.ftv = true ∧ zzzz.n.toNat = zzzz.ft.length ∧ zzzz.ft = [⟨0x7A, 4⟩] ∧
      ({ Engine.reset with ftv := true } : Engine).n.toNat = ({ Engine.reset with ftv := true } : Engine).ft.length ∧
      ({ Engine.reset with ftv := true } : Engine).ft = [] := by decide

theorem witness_TbuildMergesTheLeastKeys :
    exec .tbuild (machine counted) = .next (machine built) ∧ built.node[3]? = some (.internal 3 2 1) ∧
      (0#17).toNat < 3 ∧ 0#17 ≠ 2#17 ∧ 0#17 ≠ 1#17 ∧ ∀ p, isParentOf built.node p (0#17).toNat → 3 ≤ p := by
  refine ⟨rfl, by decide, by decide, by decide, by decide, ?_⟩
  rintro p ⟨w, l, r, h, -⟩
  match p with
  | 0 | 1 | 2 => exact absurd h (by simp [show built.node[0]? = some (.leaf 0x61 3) by decide,
      show built.node[1]? = some (.leaf 0x62 2) by decide, show built.node[2]? = some (.leaf 0x63 1) by decide])
  | p + 3 => omega

theorem witness_InternalWeightsNeverFall :
    counted.err = false ∧ counted.ftv = true ∧ counted.n.toNat = counted.ft.length ∧
      exec .tbuild (machine counted) = .next (machine built) ∧ 3 < 4 ∧
      built.node[3]? = some (.internal 3 2 1) ∧ built.node[4]? = some (.internal 6 0 3) :=
  ⟨rfl, rfl, rfl, rfl, by decide, by decide, by decide⟩

theorem witness_TreeDependsOnTheTableAlone :
    counted.err = false ∧ held.ftv = true ∧ ({ held with err := false } : Engine).err = false ∧
      held.n.toNat = held.ft.length ∧ counted.n.toNat = counted.ft.length ∧
      counted.ft.map FreqEntry.count = held.ft.map FreqEntry.count ∧ counted.ft = held.ft := by decide

theorem witness_CwalkBindsThePaths :
    EngineSound built ∧ built.err = false ∧ built.treev = true ∧ built.ft[2]? = some ⟨0x63, 1⟩ ∧
      EngineSound zzzz ∧ zzzz.treev = true ∧ zzzz.ft = [⟨0x7A, 4⟩] ∧ EngineSound counted ∧ counted.treev = false :=
  ⟨built_sound, by decide, by decide, by decide, zzzz_sound, by decide, by decide, counted_sound, by decide⟩

theorem witness_CodesArePrefixFree :
    EngineSound walked ∧ walked.ctv = true ∧ 2 ≤ walked.n.toNat ∧ walked.ct[1]? = some ⟨0x62, [true, true]⟩ ∧
      walked.ct[2]? = some ⟨0x63, [true, false]⟩ ∧ (1 : Nat) ≠ 2 :=
  ⟨walked_sound, by decide, by decide, by decide, by decide, by decide⟩

theorem witness_CodeLengthsAreBounded :
    EngineSound walked ∧ walked.ctv = true ∧ 2 ≤ walked.n.toNat ∧ ⟨0x62, [true, true]⟩ ∈ walked.ct :=
  ⟨walked_sound, by decide, by decide, by decide⟩

theorem witness_EveryBitSequenceBeginsWithOneCode :
    EngineSound walked ∧ walked.ctv = true ∧ 2 ≤ walked.n.toNat := ⟨walked_sound, by decide, by decide⟩

theorem witness_LookupsAreInverse :
    EngineSound walked ∧ walked.ctv = true ∧ ⟨0x63, [true, false]⟩ ∈ walked.ct ∧ (∀ c ∈ walked.ct, c.sym ≠ 0x64) ∧
      ∀ c ∈ walked.ct, c.code ≠ [true] := ⟨walked_sound, by decide, by decide, by decide, by decide⟩

theorem witness_TreeIsOptimal :
    EngineSound walked ∧ walked.ctv = true ∧
      (HTree.fork (.fork (.leaf 0) (.leaf 1)) (.leaf 2)).leaves.Perm (List.range walked.ft.length) :=
  ⟨walked_sound, by decide, by decide⟩

theorem witness_EncodeConcatenatesTheCodes :
    walked.err = false ∧ walked.ctv = true ∧ walked.symIn.map (enc walked.ct) = [[false], [false], [false],
      [true, true], [true, true], [true, false]].map some ∧ roomFor none 9 ∧ ¬ roomFor (some 0) 9 ∧
      enc walked.ct 0x64 = none ∧ built.ctv = false :=
  ⟨by decide, by decide, by decide, roomFor_unbounded _, not_roomFor_zero 8, by decide, by decide⟩

theorem witness_DecodeMatchesGreedily :
    encoded.err = false ∧ encoded.ctv = true ∧ encoded.bitsv = true ∧ encoded.n ≠ 1 ∧ roomFor none 6 ∧
      ¬ roomFor (some 0) 6 :=
  ⟨by decide, by decide, by decide, by decide, roomFor_unbounded _, not_roomFor_zero 5⟩

theorem witness_DecodeRepeatsTheOneSymbol :
    zzzz.err = false ∧ zzzz.ctv = true ∧ zzzz.bitsv = true ∧ zzzz.n = 1 ∧ zzzz.ft = [⟨0x7A, 4⟩] ∧ roomFor none 4 ∧
      ¬ roomFor (some 0) 4 :=
  ⟨by decide, by decide, by decide, by decide, by decide, roomFor_unbounded _, not_roomFor_zero 3⟩

/-- The empty text counted, built and walked, with one payload bit. -/
def empty : Engine :=
  { Engine.reset with ftv := true, treev := true, ctv := true, bitsv := true, bits := [true] }

theorem empty_sound : EngineSound empty :=
  ⟨by decide, symbolsScalar_of_all (by decide), by decide, by decide, by decide, by decide, by decide, by decide⟩

theorem witness_DecodeOfNoSymbolEmitsNothing :
    Sound (machine empty) ∧ empty.err = false ∧ empty.ctv = true ∧ empty.bitsv = true ∧ empty.n = 0 :=
  ⟨⟨empty_sound, by decide⟩, by decide, by decide, by decide, by decide⟩

theorem witness_DecodeInvertsTheCodes :
    EngineSound encoded ∧ encoded.err = false ∧ encoded.ctv = true ∧ encoded.bitsv = true ∧ 2 ≤ encoded.n.toNat ∧
      abcText.map (enc encoded.ct) = [[false], [false], [false], [true, true], [true, true], [true, false]].map some ∧
      encoded.bits = [[false], [false], [false], [true, true], [true, true], [true, false]].flatten ∧ roomFor none 6 :=
  ⟨encoded_sound, by decide, by decide, by decide, by decide, by decide, by decide, roomFor_unbounded _⟩

theorem witness_PackAppendsThePayloadSection :
    encoded.err = false ∧ encoded.bitsv = true ∧ walked.bitsv = false ∧ roomFor none 3 ∧ ¬ roomFor (some 0) 3 :=
  ⟨by decide, by decide, by decide, roomFor_unbounded _, not_roomFor_zero 2⟩

theorem witness_UnpackStripsThePadding :
    Engine.reset.err = false ∧ Engine.reset.byteIn = [] ∧
      ({ Engine.reset with byteIn := [0x08, 0xFF] } : Engine).byteIn = 0x08 :: [0xFF] ∧ (0x00 : Byte).toNat < 1 ∧
      8 < (0x09 : Byte).toNat ∧ 1 ≤ (0x01 : Byte).toNat ∧ (0x08 : Byte).toNat ≤ 8 ∧ ([0xFF] : List Byte) ≠ [] ∧
      roomFor none 0 ∧ ¬ roomFor (some 0) (8 * [0xFF].length - 7) :=
  ⟨rfl, rfl, rfl, by decide, by decide, by decide, by decide, by decide, roomFor_unbounded _, not_roomFor_zero 0⟩

/-- BYTE_IN holds the payload section of "aaabbc". -/
def payload : Engine := { Engine.reset with byteIn := [0x07, 0x1F, 0x00] }

theorem witness_UnpackInvertsPack_bits :
    (machine encoded).eng.err = false ∧
      exec .pack (machine encoded) = .next (machine { encoded with byteOut := [0x07, 0x1F, 0x00], pad := 7 }) ∧
      (machine payload).eng.err = false ∧ (machine payload).eng.byteIn = [0x07, 0x1F, 0x00] ∧
      roomFor (machine payload).cfg.bits encoded.bits.length :=
  ⟨by decide, rfl, rfl, rfl, roomFor_unbounded _⟩

theorem witness_UnpackInvertsPack_bytes :
    (machine payload).eng.byteIn = 0x07 :: [0x1F, 0x00] ∧ exec .unpack (machine payload) =
        .next (machine { payload with bits := abcBits, bitsv := true, pad := 7, byteIn := [] }) ∧
      encoded.err = false ∧ encoded.bitsv = true ∧ encoded.bits = abcBits ∧
      exec .pack (machine encoded) = .next (machine { encoded with byteOut := [0x07, 0x1F, 0x00], pad := 7 }) :=
  ⟨rfl, rfl, by decide, by decide, by decide, rfl⟩

theorem witness_UtfEightFollowsItsRows :
    (0x7F : Sym).toNat ≤ 0x7F ∧ 0x80 ≤ (0x80 : Sym).toNat ∧ (0x7FF : Sym).toNat ≤ 0x7FF ∧
      0x800 ≤ (0x800 : Sym).toNat ∧ (0xFFFF : Sym).toNat ≤ 0xFFFF ∧ scalarValue 0xFFFF ∧
      0x10000 ≤ (0x10000 : Sym).toNat ∧ (0x10FFFF : Sym).toNat ≤ 0x10FFFF ∧ ¬ scalarValue 0x110000 ∧
      ¬ scalarValue 0xDFFF := by
  simp [scalarValue]

theorem witness_HwriteAppendsTheHeader :
    counted.err = false ∧ counted.n.toNat = counted.ft.length ∧ (∀ r ∈ counted.ft, isScalar r.sym = true) ∧
      counted.ftv = true ∧ Engine.reset.ftv = false ∧ roomFor none 20 ∧ ¬ roomFor (some 0) 20 :=
  ⟨by decide, by decide, by decide, by decide, by decide, roomFor_unbounded _, not_roomFor_zero 19⟩

theorem abc_isHeader : isHeader abcTable abcHeader :=
  ⟨abcHeader.drop 2, ⟨[[0x61], [0x62], [0x63]], by decide, by decide⟩, by decide⟩

/-- BYTE_IN holds the artifact of "aaabbc". -/
def artifact : Engine := { Engine.reset with byteIn := abcHeader ++ [0x07, 0x1F, 0x00] }

theorem witness_HreadParsesTheHeader_table :
    artifact.err = false ∧ ValidTable abcTable ∧ isHeader abcTable abcHeader ∧
      artifact.byteIn = abcHeader ++ [0x07, 0x1F, 0x00] ∧ Engine.reset.byteIn.length < 2 :=
  ⟨by decide, by decide, abc_isHeader, rfl, by decide⟩

/-- The defects, after the one good entry U+0061 of two: none left; a span past the end; no scalar value; the same
symbol again; no complete count; a count of 0. -/
theorem witness_HreadParsesTheHeader_defects :
    ({ Engine.reset with byteIn := [0x00, 0x02, 0x01, 0x61, 0x00, 0x00, 0x00, 0x03, 0x02, 0x62] } : Engine).byteIn =
      be16 2 ++ [0x01, 0x61, 0x00, 0x00, 0x00, 0x03] ++ 0x02 :: [0x62] ∧
    ValidTable [⟨0x61, 3⟩] ∧ [(⟨0x61, 3⟩ : FreqEntry)].length < (2 : BitVec 16).toNat ∧
      isEntries [⟨0x61, 3⟩] [0x01, 0x61, 0x00, 0x00, 0x00, 0x03] ∧
      [(0x62 : Byte)].length < (0x02 : Byte).toNat ∧
      (0x00 : Byte).toNat ≤ ([] : List Byte).length ∧ utf8One (([] : List Byte).take (0x00 : Byte).toNat) = none ∧
      (0x01 : Byte).toNat ≤ [(0x61 : Byte)].length ∧ utf8One ([0x61].take (0x01 : Byte).toNat) = some 0x61 ∧
      (0x61 : Sym) ∈ [(⟨0x61, 3⟩ : FreqEntry)].map FreqEntry.sym ∧
      utf8One (([0x62, 0x00, 0x00, 0x00] : List Byte).take (0x01 : Byte).toNat) = some 0x62 ∧
      (0x62 : Sym) ∉ [(⟨0x61, 3⟩ : FreqEntry)].map FreqEntry.sym ∧
      [(0x62 : Byte), 0x00, 0x00, 0x00].length - (0x01 : Byte).toNat < 4 ∧
      (([0x62, 0x00, 0x00, 0x00, 0x00] : List Byte).drop (0x01 : Byte).toNat).take 4 = [0x00, 0x00, 0x00, 0x00] :=
  ⟨by decide, by decide, by decide, ⟨[[0x61]], by decide, by decide⟩, by decide, by decide, by decide, by decide, by decide,
    by decide, by decide, by decide, by decide, by decide⟩

theorem witness_HreadInvertsHwrite :
    Sound (machine counted) ∧ counted.err = false ∧ counted.ftv = true ∧ counted.byteIn = [] ∧
      exec .hwrite (machine counted) = .next (machine { counted with byteOut := abcHeader }) :=
  ⟨⟨counted_sound, by decide⟩, by decide, by decide, by decide, rfl⟩

theorem witness_HreadConsumesExactlyAHeader :
    artifact.err = false ∧ exec .hread (machine artifact) =
      .next (machine { Engine.reset with ft := abcTable, n := 3, ftv := true, byteIn := [0x07, 0x1F, 0x00] }) :=
  ⟨by decide, rfl⟩

theorem witness_CompressMakesTheArtifact :
    counted.err = false ∧ countable counted.symIn ∧ (∀ x ∈ counted.symIn, isScalar x = true) ∧ roomFor none 9 ∧
      roomFor none 23 ∧ ¬ roomFor (some 0) 9 :=
  ⟨by decide, countable_of_length (by decide), List.all_eq_true.mp (by decide), roomFor_unbounded _,
    roomFor_unbounded _, not_roomFor_zero 8⟩

/-- The premise of the clause on HCOUNT's faults, met by 65 536 distinct symbols. -/
theorem witness_CompressMakesTheArtifact_fault : ∃ e : Engine, e.err = false ∧
    exec .hcount (machine e) = .next (machine (faulted e 2 1 0x20000000)) := by
  obtain ⟨text, hc, hl, hm⟩ : ∃ text : List Sym, countable text ∧ text.eraseDups.length = 65535 ∧ 0x1F600#21 ∉ text :=
    ⟨_, firstSymbols_spec 65535 (Nat.le_refl 65535)⟩
  refine ⟨{ Engine.reset with symIn := text ++ [0x1F600#21] }, rfl, ?_⟩
  have hb : hcountBody { Engine.reset with symIn := text ++ [0x1F600#21] } = .raise .capacity 1 := by
    simp only [hcountBody, countSymbols_over [] hc (Or.inl ⟨hm, hl, rfl⟩)]
  exact runCommand_raise (i := .hcount) (body := hcountBody)
    (s := machine { Engine.reset with symIn := text ++ [0x1F600#21] }) rfl hb

/-- The premises of DECOMPRESS's clauses on a defective payload section, at the edges of the count byte's range. -/
theorem witness_DecompressRecoversTheText_defects :
    ({ artifact with byteIn := abcHeader } : Engine).byteIn = abcHeader ++ [] ∧
      ({ artifact with byteIn := abcHeader ++ [0x00, 0x1F] } : Engine).byteIn = abcHeader ++ 0x00 :: [0x1F] ∧
      (0x00 : Byte).toNat < 1 ∧
      ({ artifact with byteIn := abcHeader ++ [0x09, 0x1F] } : Engine).byteIn = abcHeader ++ 0x09 :: [0x1F] ∧
      8 < (0x09 : Byte).toNat ∧
      ({ artifact with byteIn := abcHeader ++ [0x08] } : Engine).byteIn = abcHeader ++ 0x08 :: [] ∧
      1 ≤ (0x08 : Byte).toNat ∧ (0x08 : Byte).toNat ≤ 8 ∧ 1 ≤ (0x01 : Byte).toNat ∧ (0x01 : Byte).toNat ≤ 8 := by
  decide

theorem witness_DecompressRecoversTheText :
    artifact.err = false ∧ ValidTable abcTable ∧ isHeader abcTable abcHeader ∧
      artifact.byteIn = abcHeader ++ 0x07 :: [0x1F, 0x00] ∧ 1 ≤ (0x07 : Byte).toNat ∧ (0x07 : Byte).toNat ≤ 8 ∧
      ([0x1F, 0x00] : List Byte) ≠ [] ∧ roomFor none 9 ∧ ¬ roomFor (some 0) 9 ∧
      exec .hread (machine Engine.reset) = .next (machine (faulted Engine.reset 1 1 0x28000000)) :=
  ⟨by decide, by decide, abc_isHeader, rfl, by decide, by decide, by decide, roomFor_unbounded _, not_roomFor_zero 8,
    rfl⟩

theorem witness_RoundTrip :
    (State.reset.cfg = .unbounded ∧ State.reset.eng.err = false ∧ State.reset.eng.symIn = [] ∧
      State.reset.eng.byteIn = [] ∧ State.reset.eng.byteOut = [] ∧ State.reset.eng.symOut = []) ∧
      (∀ x ∈ abcText, scalarValue x) ∧ countable abcText :=
  ⟨by decide, by simp [abcText, scalarValue], countable_of_length (by decide)⟩

/-- "aaabbc" compressed from a state that holds only the text. -/
def compressed : Engine := completed (compressBody .unbounded { Engine.reset with symIn := abcText })

/-- And from the state that leaves. -/
def compressedTwice : Engine := completed (compressBody .unbounded compressed)

theorem witness_CompressIsDeterministic :
    compressed.symIn = abcText ∧ compressed.err = false ∧ compressedTwice.err = false ∧
      exec .compress (machine { Engine.reset with symIn := abcText }) = .next (machine compressed) ∧
      exec .compress (machine compressed) = .next (machine compressedTwice) :=
  ⟨by decide, by decide, by decide, rfl, rfl⟩

/-- The artifact of "aaabbc" decompressed. -/
def decompressed : Engine := completed (decompressBody .unbounded artifact)

theorem witness_MacrosAreTheirUnitCommands :
    compressed.err = false ∧ decompressed.err = false ∧ artifact.err = false ∧
      runAll [.hcount, .hwrite, .tbuild, .cwalk, .encode, .pack] (machine { Engine.reset with symIn := abcText }) =
        .next (machine compressed) ∧
      runAll [.hcount, .tbuild, .cwalk, .encode, .hwrite, .pack] (machine { Engine.reset with symIn := abcText }) =
        .next (machine compressed) ∧
      runAll [.hread, .tbuild, .cwalk, .unpack, .decode] (machine artifact) = .next (machine decompressed) :=
  ⟨by decide, by decide, by decide, rfl, rfl, rfl⟩

theorem witness_MissingFlagsRaiseErrSeq :
    Engine.reset.err = false ∧ Engine.reset.ftv = false ∧ Engine.reset.treev = false ∧ Engine.reset.ctv = false ∧
      Engine.reset.bitsv = false ∧ walked.ctv = true ∧ walked.bitsv = false := by decide

theorem witness_FaultsAreAllOrNothing :
    Engine.reset.err = false ∧ (faulted Engine.reset 7 0 0x12000000).err = true ∧
      exec .popb (machine Engine.reset) = .next (machine (faulted Engine.reset 7 0 0x12000000)) :=
  ⟨rfl, rfl, rfl⟩

theorem witness_FaultCodesByCommand :
    Engine.reset.err = false ∧ (faulted Engine.reset 1 1 0x28000000).err = true ∧
      exec .hread (machine Engine.reset) = .next (machine (faulted Engine.reset 1 1 0x28000000)) :=
  ⟨rfl, rfl, rfl⟩

theorem witness_StepKeepsSound :
    Sound (facing (.regWrite 0 0x22000000) built) ∧
      step (facing (.regWrite 0 0x22000000) built) = .next (machine walked) :=
  ⟨⟨built_sound, by decide⟩, rfl⟩

theorem witness_SoundStatesAlwaysStep : Sound (facing (.regWrite 0 0x26000000) encoded) :=
  ⟨encoded_sound, by decide⟩

theorem witness_DataRegistersHaveTheirWriters :
    exec .hcount (machine { Engine.reset with symIn := abcText }) = .next (machine counted) ∧
      counted.n ≠ Engine.reset.n ∧ exec .tbuild (machine counted) = .next (machine built) ∧
      built.nn ≠ counted.nn ∧ built.root ≠ counted.root ∧
      exec .pack (machine encoded) = .next (machine { encoded with byteOut := [0x07, 0x1F, 0x00], pad := 7 }) ∧
      encoded.pad ≠ 7 :=
  ⟨rfl, by decide, rfl, by decide, by decide, rfl, by decide⟩

theorem witness_MemoriesHaveTheirWriters :
    exec .cwalk (machine built) = .next (machine walked) ∧ walked.ct ≠ built.ct ∧
      exec .encode (machine walked) = .next (machine encoded) ∧ encoded.bits ≠ walked.bits :=
  ⟨rfl, by decide, rfl, by decide⟩

theorem witness_FlagsHaveTheirWriters :
    exec .cwalk (machine built) = .next (machine walked) ∧ built.ctv = false ∧ walked.ctv = true ∧
      exec .clrerr (machine held) = .next (machine encoded) ∧ held.err = true ∧ encoded.err = false ∧
      exec .decode (machine encoded) = .next (machine { encoded with symOut := abcText }) ∧
      exec .decode (machine { zzzz with bits := [true] }) =
        .next (machine { zzzz with bits := [true], symOut := [0x7A, 0x7A, 0x7A, 0x7A], res := true }) ∧
      exec .popb (machine Engine.reset) = .next (machine (faulted Engine.reset 7 0 0x12000000)) :=
  ⟨rfl, by decide, by decide, rfl, by decide, by decide, rfl, rfl, rfl⟩

theorem witness_ConfigurationIsFixed : step (machine encoded) = .next (machine encoded) ∧
    exec .nop (machine encoded) = .next (machine encoded) := ⟨rfl, rfl⟩

end Sys2Proof.Tests
end

/-! PROOFS. One reading of all eighteen commands: the body each of them runs, and what the envelope makes of it
(60_exceptions.md R210, R223). -/

namespace Sys2Proof.Machine

/-- NOP, RESET and CLRERR are executed while a fault is held too (60_exceptions.md R223). -/
def runsHeld : Instr → Bool
  | .nop | .reset | .clrerr => true
  | _ => false

/-- The body of each command; `exec_eq_runCommand` and `exec_eq_done` tie it to `exec`. -/
def bodyOf (cfg : Capacities) : Instr → Engine → Ending
  | .nop => .done
  | .reset => fun _ => .done Engine.reset
  | .clrerr => fun e => .done (clearFault e)
  | .pushs sym => pushsBody cfg sym
  | .pushb byte => pushbBody cfg byte
  | .popb => popbBody
  | .pops => popsBody
  | .hcount => hcountBody
  | .tbuild => tbuildBody
  | .cwalk => cwalkBody
  | .encode => encodeBody cfg
  | .pack => packBody cfg
  | .unpack => unpackBody cfg
  | .decode => decodeBody cfg
  | .hwrite => hwriteBody cfg
  | .hread => hreadBody
  | .compress => compressBody cfg
  | .decompress => decompressBody cfg

theorem exec_eq_runCommand {i : Instr} (hi : runsHeld i = false) (s : State) :
    exec i s = runCommand i (bodyOf s.cfg i) s := by
  cases i
  case nop | reset | clrerr => cases hi
  all_goals rfl

theorem exec_eq_done {i : Instr} (hi : runsHeld i = true) (s : State) :
    ∃ e, bodyOf s.cfg i s.eng = .done e ∧ exec i s = .next { s with eng := e } := by
  cases i
  case nop | reset | clrerr => exact ⟨_, rfl, rfl⟩
  all_goals cases hi

/-- Everything a command can answer with a next state: ignored while a fault is held, completed, or faulted. -/
theorem exec_next_cases {i : Instr} {s t : State} (h : exec i s = .next t) :
    (runsHeld i = false ∧ s.eng.err = true ∧ t = s) ∨
    ((runsHeld i = true ∨ s.eng.err = false) ∧ ∃ e, bodyOf s.cfg i s.eng = .done e ∧ t = { s with eng := e }) ∨
    (runsHeld i = false ∧ s.eng.err = false ∧ ∃ c info, bodyOf s.cfg i s.eng = .raise c info ∧
      t = { s with eng := takeFault c info (encode i) s.eng }) := by
  cases hi : runsHeld i with
  | true =>
    obtain ⟨e, hb, he⟩ := exec_eq_done hi s
    rw [he] at h
    cases h
    exact .inr (.inl ⟨.inl rfl, e, hb, rfl⟩)
  | false =>
    rw [exec_eq_runCommand hi] at h
    rcases runCommand_cases h with ⟨he, ht⟩ | ⟨he, e, hb, ht⟩ | ⟨he, c, info, hb, ht⟩
    · exact .inl ⟨rfl, he, ht⟩
    · exact .inr (.inl ⟨.inr he, e, hb, ht⟩)
    · exact .inr (.inr ⟨rfl, he, c, info, hb, ht⟩)

theorem exec_cfg {i : Instr} {s t : State} (h : exec i s = .next t) : t.cfg = s.cfg := by
  rcases exec_next_cases h with ⟨-, -, rfl⟩ | ⟨-, e, -, rfl⟩ | ⟨-, -, c, info, -, rfl⟩ <;> rfl

/-! What a step can do (10_state.md R32 to R34). -/

theorem step_regRead {s : State} {idx : BitVec 4} {rest : List HostAccess} (h : s.pending = .regRead idx :: rest) :
    step s = .next { s with pending := rest, answers := s.answers ++ [regRead idx s.eng] } := by
  simp [step, stepHost, h, serveAccess]

theorem step_regWrite_cmd {s : State} {w : Word} {rest : List HostAccess} (h : s.pending = .regWrite 0 w :: rest) :
    step s = runWord w { s with pending := rest } := by
  simp [step, stepHost, h, serveAccess]

theorem step_regWrite_other {s : State} {idx : BitVec 4} {w : Word} {rest : List HostAccess}
    (h : s.pending = .regWrite idx w :: rest) (hi : idx ≠ 0) : step s = .next { s with pending := rest } := by
  simp only [step, stepHost, h, serveAccess, if_neg hi]

theorem step_hardReset {s : State} {rest : List HostAccess} (h : s.pending = .hardReset :: rest) :
    step s = .next { s with eng := Engine.reset, pending := rest } := by
  simp [step, stepHost, h, serveAccess]

/-- Everything a step can answer with a next state, but for the access it takes from the list and the value it
delivers: nothing of the engine changes, the engine is reset, a command is executed, or an illegal word faults. -/
theorem step_next_cases {s t : State} (h : step s = .next t) :
    (t.cfg = s.cfg ∧ t.eng = s.eng) ∨ (t.cfg = s.cfg ∧ t.eng = Engine.reset) ∨
    (∃ w rest i, s.pending = .regWrite 0 w :: rest ∧ decode w = .command i ∧
      exec i { s with pending := rest } = .next t) ∨
    (s.eng.err = false ∧ t.cfg = s.cfg ∧ ∃ w rest why, s.pending = .regWrite 0 w :: rest ∧ decode w = .illegal why ∧
      t.eng = takeFault .illegal 0 w s.eng) := by
  match hp : s.pending with
  | [] =>
    simp only [step, stepHost, hp, Host.Outcome.next.injEq] at h
    subst h
    exact .inl ⟨rfl, rfl⟩
  | .regRead idx :: rest =>
    rw [step_regRead hp] at h
    cases h
    exact .inl ⟨rfl, rfl⟩
  | .hardReset :: rest =>
    rw [step_hardReset hp] at h
    cases h
    exact .inr (.inl ⟨rfl, rfl⟩)
  | .regWrite idx w :: rest =>
    by_cases hi : idx = 0
    · subst hi
      rw [step_regWrite_cmd hp, runWord] at h
      cases hd : decode w with
      | command i =>
        simp only [hd] at h
        exact .inr (.inr (.inl ⟨w, rest, i, rfl, hd, h⟩))
      | illegal why =>
        simp only [hd, runIllegal] at h
        split at h
        · cases h
          exact .inl ⟨rfl, rfl⟩
        · rename_i he
          cases h
          exact .inr (.inr (.inr ⟨by simpa using he, rfl, w, rest, why, rfl, hd, rfl⟩))
    · rw [step_regWrite_other hp hi] at h
      cases h
      exact .inl ⟨rfl, rfl⟩

end Sys2Proof.Machine

/-! PROOFS. Every command keeps the invariants of 10_state.md. -/

namespace Sys2Proof.Machine

/-- The invariants of the engine together with the capacities of its queues: `Sound` of any state that holds them. -/
abbrev SoundIn (cfg : Capacities) (e : Engine) : Prop := EngineSound e ∧ WithinCapacities cfg e

theorem engineSound_reset : EngineSound Engine.reset := by
  have hnone : SameTree Engine.reset Engine.reset := ⟨rfl, rfl, rfl, rfl, rfl⟩
  exact ⟨.nil, ⟨nofun, nofun, nofun, nofun⟩, ⟨rfl, nofun, .nil, fun _ => rfl⟩, ⟨nofun, fun _ => hnone⟩,
    ⟨nofun, fun _ => rfl⟩, ⟨nofun, nofun⟩, ⟨by decide, fun _ => rfl⟩, ⟨fun _ => ⟨rfl, rfl, rfl⟩, nofun⟩⟩

theorem withinCapacities_reset (cfg : Capacities) : WithinCapacities cfg Engine.reset := by
  have hempty : ∀ cap, fits cap 0 = true := fun cap => by cases cap <;> simp [fits]
  exact ⟨hempty _, hempty _, hempty _, hempty _, hempty _⟩

theorem soundIn_reset (cfg : Capacities) : SoundIn cfg Engine.reset :=
  ⟨engineSound_reset, withinCapacities_reset cfg⟩

theorem clearFault_sound {cfg : Capacities} {e : Engine} (h : SoundIn cfg e) : SoundIn cfg (clearFault e) := by
  obtain ⟨⟨hpq, hsym, htab, htree, hcodes, hchain, hpay, -⟩, hcap⟩ := h
  exact ⟨⟨hpq, hsym, htab, htree, hcodes, hchain, hpay, ⟨fun _ => ⟨rfl, rfl, rfl⟩, nofun⟩⟩, hcap⟩

/-- ERRCODE of a fault is one of the seven codes (60_exceptions.md R212). -/
theorem Cause.code_bounds (c : Cause) : 1#8 ≤ c.code ∧ c.code ≤ 7#8 := by
  cases c <;> decide

theorem takeFault_sound {cfg : Capacities} {e : Engine} (h : SoundIn cfg e) (c : Cause) (info : BitVec 8) (w : Word) :
    SoundIn cfg (takeFault c info w e) := by
  obtain ⟨⟨hpq, hsym, htab, htree, hcodes, hchain, hpay, -⟩, hcap⟩ := h
  exact ⟨⟨hpq, hsym, htab, htree, hcodes, hchain, hpay, ⟨nofun, fun _ => c.code_bounds⟩⟩, hcap⟩

/-! Commands that touch a queue, BITS or PAD. -/

theorem pushsBody_sound {cfg : Capacities} {x : Sym} {e e' : Engine} (h : SoundIn cfg e)
    (hb : pushsBody cfg x e = .done e') : SoundIn cfg e' := by
  obtain ⟨hx, hfit, rfl⟩ := pushsBody_done.1 hb
  obtain ⟨⟨hpq, ⟨hin, hsym⟩, hrest⟩, -, hcap⟩ := h
  refine ⟨⟨hpq, ⟨?_, hsym⟩, hrest⟩, by simpa using hfit, hcap⟩
  simpa [or_imp, forall_and, hx] using hin

theorem pushbBody_sound {cfg : Capacities} {x : Byte} {e e' : Engine} (h : SoundIn cfg e)
    (hb : pushbBody cfg x e = .done e') : SoundIn cfg e' := by
  obtain ⟨hfit, rfl⟩ := pushbBody_done.1 hb
  obtain ⟨heng, hsi, -, hcap⟩ := h
  exact ⟨heng, hsi, by simpa using hfit, hcap⟩

theorem popbBody_sound {cfg : Capacities} {e e' : Engine} (h : SoundIn cfg e)
    (hb : popbBody e = .done e') : SoundIn cfg e' := by
  obtain ⟨b, rest, hq, rfl⟩ := popbBody_done.1 hb
  obtain ⟨heng, hsi, hbi, hbo, hcap⟩ := h
  exact ⟨heng, hsi, hbi, fits_mono hbo (by simp [hq]), hcap⟩

theorem popsBody_sound {cfg : Capacities} {e e' : Engine} (h : SoundIn cfg e)
    (hb : popsBody e = .done e') : SoundIn cfg e' := by
  obtain ⟨x, rest, hq, rfl⟩ := popsBody_done.1 hb
  obtain ⟨⟨hpq, ⟨hin, hout, hsym⟩, hrest⟩, hsi, hbi, hbo, hso, hcap⟩ := h
  exact ⟨⟨hpq, ⟨hin, fun y hy => hout y (by simp [hq, hy]), hsym⟩, hrest⟩, hsi, hbi, hbo,
    fits_mono hso (by simp [hq]), hcap⟩

theorem encodeBody_sound {cfg : Capacities} {e e' : Engine} (h : SoundIn cfg e)
    (hb : encodeBody cfg e = .done e') : SoundIn cfg e' := by
  obtain ⟨-, b, -, hfit, rfl⟩ := encodeBody_done.1 hb
  obtain ⟨⟨hpq, hsym, htab, htree, hcodes, hchain, ⟨hpad, -⟩, hrec⟩, hsi, hbi, hbo, hso, -⟩ := h
  exact ⟨⟨hpq, hsym, htab, htree, hcodes, hchain, ⟨hpad, by simp⟩, hrec⟩, hsi, hbi, hbo, hso, hfit⟩

theorem packBody_sound {cfg : Capacities} {e e' : Engine} (h : SoundIn cfg e)
    (hb : packBody cfg e = .done e') : SoundIn cfg e' := by
  obtain ⟨-, hfit, rfl⟩ := packBody_done.1 hb
  obtain ⟨⟨hpq, hsym, htab, htree, hcodes, hchain, ⟨-, hbits⟩, hrec⟩, hsi, hbi, -, hcap⟩ := h
  have hpad : BitVec.ofNat 4 (paddingOf e.bits.length) ≤ 8#4 := by
    have := paddingOf_bounds e.bits.length
    simp [BitVec.le_def]; omega
  exact ⟨⟨hpq, hsym, htab, htree, hcodes, hchain, ⟨hpad, hbits⟩, hrec⟩, hsi, hbi, by simpa using hfit, hcap⟩

theorem unpackBody_sound {cfg : Capacities} {e e' : Engine} (h : SoundIn cfg e)
    (hb : unpackBody cfg e = .done e') : SoundIn cfg e' := by
  obtain ⟨y0, rest, -, -, hle, -, hfit, rfl⟩ := unpackBody_done.1 hb
  obtain ⟨⟨hpq, hsym, htab, htree, hcodes, hchain, -, hrec⟩, hsi, hbi, hbo, hso, -⟩ := h
  have hpad : y0.setWidth 4 ≤ 8#4 := by simp [BitVec.le_def]; omega
  exact ⟨⟨hpq, hsym, htab, htree, hcodes, hchain, ⟨hpad, by simp⟩, hrec⟩, hsi, fits_mono hbi (by simp), hbo, hso,
    fits_mono hfit (by simp)⟩

theorem hwriteBody_sound {cfg : Capacities} {e e' : Engine} (h : SoundIn cfg e)
    (hb : hwriteBody cfg e = .done e') : SoundIn cfg e' := by
  obtain ⟨-, t, hd, -, -, hfit, rfl⟩ := hwriteBody_done.1 hb
  obtain ⟨heng, hsi, hbi, -, hcap⟩ := h
  exact ⟨heng, hsi, hbi, by simpa using hfit, hcap⟩

/-! DECODE emits symbols of the code table, or of the table's one entry. -/

theorem decodeBits_syms {ct : List CodeEntry} (acc bits : Bits) :
    ∀ x ∈ (decodeBits ct acc bits).1, ∃ c ∈ ct, c.sym = x := by
  induction bits generalizing acc with
  | nil => simp [decodeBits]
  | cons b bits ih =>
    simp only [decodeBits]
    cases hd : dec ct (acc ++ [b]) with
    | none => exact ih _
    | some y =>
      intro x hx
      rcases List.mem_cons.1 hx with rfl | hx
      · obtain ⟨c, hc, -, hs⟩ := dec_some hd
        exact ⟨c, hc, hs⟩
      · exact ih [] x hx

theorem decodePayload_scalar {e : Engine} (h : SymbolsScalar e) {out : List Sym} {left : Bits}
    (hd : decodePayload e = some (out, left)) : ∀ x ∈ out, isScalar x = true := by
  obtain ⟨-, -, hft, hct⟩ := h
  unfold decodePayload at hd
  split at hd
  · split at hd
    · cases hd
    · rename_i r t he
      cases hd
      intro x hx
      rw [List.eq_of_mem_replicate hx]
      exact hft r (by simp [he])
  · have hout : decodeBits e.ct [] e.bits = (out, left) := Option.some.inj hd
    intro x hx
    obtain ⟨c, hc, rfl⟩ := decodeBits_syms [] e.bits x (by rwa [hout])
    exact hct c hc

theorem decodeBody_sound {cfg : Capacities} {e e' : Engine} (h : SoundIn cfg e)
    (hb : decodeBody cfg e = .done e') : SoundIn cfg e' := by
  obtain ⟨-, -, out, left, hd, hfit, rfl⟩ := decodeBody_done.1 hb
  obtain ⟨⟨hpq, hsym, hrest⟩, hsi, hbi, hbo, -, hcap⟩ := h
  have hout := decodePayload_scalar hsym hd
  obtain ⟨hin, hold, htabs⟩ := hsym
  refine ⟨⟨hpq, ⟨hin, fun x hx => ?_, htabs⟩, hrest⟩, hsi, hbi, hbo, by simpa using hfit, hcap⟩
  rcases List.mem_append.1 hx with hx | hx
  · exact hold x hx
  · exact hout x hx

/-! HCOUNT and HREAD install a table. -/

/-- A command that writes FT keeps the invariants when what it writes is a table as 10_state.md R38 asks. -/
theorem installTable_sound {cfg : Capacities} {e : Engine} (h : SoundIn cfg e) {t : List FreqEntry} {n : BitVec 16}
    (ht : ValidTable t) (hn : n.toNat = t.length) : SoundIn cfg (installTable t n e) := by
  obtain ⟨⟨-, ⟨hin, hout, -, -⟩, -, -, -, -, hpay, hrec⟩, hcap⟩ := h
  obtain ⟨hent, hnodup, -⟩ := ht
  refine ⟨⟨.nil, ⟨hin, hout, fun r hr => (hent r hr).1, by simp⟩, ⟨hn, fun r hr => (hent r hr).2, hnodup, by simp⟩,
    ⟨by simp, fun _ => ⟨rfl, rfl, rfl, rfl, rfl⟩⟩, ⟨by simp, by simp⟩, ⟨by simp, by simp⟩, hpay, hrec⟩, hcap⟩

/-- HCOUNT's table of legal symbols is as 10_state.md R38 asks (41_frequency_counter.md R121). -/
theorem countSymbols_valid {text : List Sym} {t : List FreqEntry} (hs : ∀ x ∈ text, isScalar x = true)
    (ht : countSymbols [] text = .table t) : ValidTable t := by
  have hist : isHistogram text t := by simpa using countSymbols_table isHistogram_nil ht
  refine ⟨fun r hr => ?_, isHistogram_nodup hist, countSymbols_bounds (by simp) ht⟩
  have hmem : r.sym ∈ text := by
    rw [← List.mem_eraseDups, ← hist.1]
    exact List.mem_map_of_mem hr
  refine ⟨hs _ hmem, fun h0 => ?_⟩
  have hcount := hist.2 r hr
  have hpos := List.count_pos_iff.2 hmem
  simp [h0] at hcount
  omega

theorem hcountBody_sound {cfg : Capacities} {e e' : Engine} (h : SoundIn cfg e)
    (hb : hcountBody e = .done e') : SoundIn cfg e' := by
  obtain ⟨t, ht, rfl⟩ := hcountBody_done.1 hb
  have hv := countSymbols_valid h.1.2.1.1 ht
  refine installTable_sound h hv ?_
  have := hv.2.2
  rw [BitVec.toNat_ofNat]
  omega

/-- HREAD's table is as 10_state.md R38 asks, and what it leaves of BYTE_IN is no longer (45_header_codec.md R171). -/
theorem parseEntries_valid {n : BitVec 16} {y rest : List Byte} {t : List FreqEntry}
    (h : parseEntries n.toNat [] y = .table t rest) : ValidTable t ∧ n.toNat = t.length ∧ rest.length ≤ y.length := by
  obtain ⟨t', hb, htt, hlen, hhdr, rfl, hcount, hnodup⟩ := parseEntries_table h (by simp)
  obtain rfl : t = t' := by simpa using htt
  have := n.isLt
  exact ⟨⟨fun r hr => ⟨headerEntries_scalar hhdr r hr, hcount r hr⟩, hnodup, by omega⟩, hlen.symm, by simp⟩

theorem hreadBody_sound {cfg : Capacities} {e e' : Engine} (h : SoundIn cfg e)
    (hb : hreadBody e = .done e') : SoundIn cfg e' := by
  obtain ⟨y0, y1, y, t, rest, hy, hp, rfl⟩ := hreadBody_done.1 hb
  obtain ⟨hv, hn, hle⟩ := parseEntries_valid hp
  obtain ⟨heng, hsi, hbi, hcap⟩ := h
  have hlen : rest.length ≤ e.byteIn.length := by rw [hy, List.length_cons, List.length_cons]; omega
  exact installTable_sound (e := { e with byteIn := rest }) ⟨heng, hsi, fits_mono hbi hlen, hcap⟩ hv hn

/-! TBUILD and CWALK. -/

section BuildTree
variable (t : List FreqEntry) (e : Engine)

@[simp] theorem buildTree_n : (buildTree t e).n = e.n := by rw [buildTree_frame]
@[simp] theorem buildTree_pad : (buildTree t e).pad = e.pad := by rw [buildTree_frame]
@[simp] theorem buildTree_rdata : (buildTree t e).rdata = e.rdata := by rw [buildTree_frame]
@[simp] theorem buildTree_err : (buildTree t e).err = e.err := by rw [buildTree_frame]
@[simp] theorem buildTree_ftv : (buildTree t e).ftv = e.ftv := by rw [buildTree_frame]
@[simp] theorem buildTree_treev : (buildTree t e).treev = true := by rw [buildTree_frame]
@[simp] theorem buildTree_ctv : (buildTree t e).ctv = false := by rw [buildTree_frame]
@[simp] theorem buildTree_bitsv : (buildTree t e).bitsv = e.bitsv := by rw [buildTree_frame]
@[simp] theorem buildTree_res : (buildTree t e).res = e.res := by rw [buildTree_frame]
@[simp] theorem buildTree_errcode : (buildTree t e).errcode = e.errcode := by rw [buildTree_frame]
@[simp] theorem buildTree_errinfo : (buildTree t e).errinfo = e.errinfo := by rw [buildTree_frame]
@[simp] theorem buildTree_errcmd : (buildTree t e).errcmd = e.errcmd := by rw [buildTree_frame]
@[simp] theorem buildTree_ft : (buildTree t e).ft = e.ft := by rw [buildTree_frame]
@[simp] theorem buildTree_ct : (buildTree t e).ct = [] := by rw [buildTree_frame]
@[simp] theorem buildTree_symIn : (buildTree t e).symIn = e.symIn := by rw [buildTree_frame]
@[simp] theorem buildTree_byteIn : (buildTree t e).byteIn = e.byteIn := by rw [buildTree_frame]
@[simp] theorem buildTree_byteOut : (buildTree t e).byteOut = e.byteOut := by rw [buildTree_frame]
@[simp] theorem buildTree_symOut : (buildTree t e).symOut = e.symOut := by rw [buildTree_frame]
@[simp] theorem buildTree_bits : (buildTree t e).bits = e.bits := by rw [buildTree_frame]

end BuildTree

theorem tbuildBody_sound {cfg : Capacities} {e e' : Engine} (h : SoundIn cfg e)
    (hb : tbuildBody e = .done e') : SoundIn cfg e' := by
  obtain ⟨hftv, t, ht, rfl⟩ := tbuildBody_done.1 hb
  obtain ⟨⟨-, ⟨hin, hout, hft, -⟩, htab, -, -, -, hpay, hrec⟩, hcap⟩ := h
  obtain rfl : e.ft = t := Option.some.inj ((tableEntries_eq_some htab.1).symm.trans ht)
  refine ⟨⟨memory_wf_buildTree _ _, ?_, ?_, ⟨fun _ => ?_, by simp⟩, ⟨by simp, by simp⟩, ⟨by simp, by simpa using hftv⟩,
    ?_, ?_⟩, ?_⟩
  · simpa [SymbolsScalar] using ⟨hin, hout, hft⟩
  · simpa only [TableSound, buildTree_n, buildTree_ft, buildTree_ftv] using htab
  · rw [buildTree_ft]
    exact buildTree_same _ _ _
  · simpa only [PayloadSound, buildTree_pad, buildTree_bitsv, buildTree_bits] using hpay
  · simpa only [RecordSound, buildTree_err, buildTree_errcode, buildTree_errinfo, buildTree_errcmd] using hrec
  · simpa only [WithinCapacities, buildTree_symIn, buildTree_byteIn, buildTree_byteOut, buildTree_symOut,
      buildTree_bits] using hcap

/-- The codes of the tree of a sound engine are bound to symbols of FT (43_code_table.md R150). -/
theorem codesOfTree_syms {e : Engine} (h : EngineSound e) (ht : e.treev = true) {cs : List CodeEntry}
    (hcs : codesOfTree e = some cs) : ∀ c ∈ cs, ∃ r ∈ e.ft, r.sym = c.sym := by
  by_cases hne : e.ft = []
  · obtain ⟨-, -, -, hempty⟩ := sound_tree h ht
    obtain ⟨hn, hv⟩ := hempty hne
    obtain rfl : [] = cs := Option.some.inj ((codesOfTree_empty hv hn).symm.trans hcs)
    simp
  · obtain ⟨cs', tree, hcs', hlen, -, hperm, hpaths⟩ := sound_walk h ht hne
    obtain rfl : cs' = cs := Option.some.inj (hcs'.symm.trans hcs)
    intro c hc
    obtain ⟨i, hi⟩ := List.mem_iff_getElem?.1 hc
    have hlt : i < e.ft.length := hlen ▸ (List.getElem?_eq_some_iff.1 hi).1
    have hleaf : i ∈ tree.paths.map Prod.fst := by
      rw [HTree.paths_fst, hperm.mem_iff]
      exact List.mem_range.2 hlt
    obtain ⟨p, hp, rfl⟩ := List.mem_map.1 hleaf
    obtain ⟨r, hr, hslot⟩ := hpaths p hp
    rw [hi] at hslot
    cases hslot
    exact ⟨r, List.mem_of_getElem? hr, rfl⟩

theorem cwalkBody_sound {cfg : Capacities} {e e' : Engine} (h : SoundIn cfg e)
    (hb : cwalkBody e = .done e') : SoundIn cfg e' := by
  obtain ⟨htreev, cs, hcs, rfl⟩ := cwalkBody_done.1 hb
  have hsyms := codesOfTree_syms h.1 htreev hcs
  obtain ⟨⟨hpq, ⟨hin, hout, hft, -⟩, htab, htree, -, ⟨-, hchain⟩, hrest⟩, hcap⟩ := h
  refine ⟨⟨hpq, ⟨hin, hout, hft, fun c hc => ?_⟩, htab, htree, ⟨fun _ => hcs, nofun⟩, ⟨fun _ => htreev, hchain⟩, hrest⟩,
    hcap⟩
  obtain ⟨r, hr, hs⟩ := hsyms c hc
  exact hs ▸ hft r hr

/-! The macros and the whole machine. -/

/-- A body after another keeps the invariants when both do. -/
theorem andThen_sound {cfg : Capacities} {r : Ending} {next : Engine → Ending} {e' : Engine}
    (hr : ∀ e, r = .done e → SoundIn cfg e) (hnext : ∀ {e}, SoundIn cfg e → next e = .done e' → SoundIn cfg e')
    (hb : r.andThen next = .done e') : SoundIn cfg e' := by
  obtain ⟨e, h1, h2⟩ := andThen_eq_done.1 hb
  exact hnext (hr e h1) h2

theorem compressBody_sound {cfg : Capacities} {e e' : Engine} (h : SoundIn cfg e)
    (hb : compressBody cfg e = .done e') : SoundIn cfg e' :=
  andThen_sound (fun _ => andThen_sound (fun _ => andThen_sound (fun _ => andThen_sound (fun _ => andThen_sound
    (fun _ => hcountBody_sound h) hwriteBody_sound) tbuildBody_sound) cwalkBody_sound) encodeBody_sound)
    packBody_sound hb

theorem decompressBody_sound {cfg : Capacities} {e e' : Engine} (h : SoundIn cfg e)
    (hb : decompressBody cfg e = .done e') : SoundIn cfg e' :=
  andThen_sound (fun _ => andThen_sound (fun _ => andThen_sound (fun _ => andThen_sound
    (fun _ => hreadBody_sound h) tbuildBody_sound) cwalkBody_sound) unpackBody_sound) decodeBody_sound hb

/-- A command that completes keeps the invariants. -/
theorem bodyOf_sound {cfg : Capacities} {i : Instr} {e e' : Engine} (h : SoundIn cfg e)
    (hb : bodyOf cfg i e = .done e') : SoundIn cfg e' := by
  cases i with
  | nop => cases hb; exact h
  | reset => cases hb; exact soundIn_reset cfg
  | clrerr => cases hb; exact clearFault_sound h
  | pushs sym => exact pushsBody_sound h hb
  | pushb byte => exact pushbBody_sound h hb
  | popb => exact popbBody_sound h hb
  | pops => exact popsBody_sound h hb
  | hcount => exact hcountBody_sound h hb
  | tbuild => exact tbuildBody_sound h hb
  | cwalk => exact cwalkBody_sound h hb
  | encode => exact encodeBody_sound h hb
  | pack => exact packBody_sound h hb
  | unpack => exact unpackBody_sound h hb
  | decode => exact decodeBody_sound h hb
  | hwrite => exact hwriteBody_sound h hb
  | hread => exact hreadBody_sound h hb
  | compress => exact compressBody_sound h hb
  | decompress => exact decompressBody_sound h hb

theorem exec_sound {i : Instr} {s t : State} (h : Sound s) (hx : exec i s = .next t) : Sound t := by
  rcases exec_next_cases hx with ⟨-, -, rfl⟩ | ⟨-, e, hb, rfl⟩ | ⟨-, -, c, info, -, rfl⟩
  · exact h
  · exact bodyOf_sound h hb
  · exact takeFault_sound h c info _

theorem sound_of_soundIn {s t : State} (hcfg : t.cfg = s.cfg) (h : SoundIn s.cfg t.eng) : Sound t := by
  rw [← hcfg] at h
  exact h

/-- Settles O54: an access leaves the engine as it is, resets it, executes a command or records a fault, and each of
the eighteen bodies keeps the invariants. -/
theorem stepKeepsSound : Obligations.StepKeepsSound := by
  intro s t h hstep
  rcases step_next_cases hstep with
    ⟨hcfg, heng⟩ | ⟨hcfg, heng⟩ | ⟨-, rest, i, -, -, hx⟩ | ⟨-, hcfg, w, -, -, -, -, heng⟩
  · exact sound_of_soundIn hcfg (heng ▸ h)
  · exact sound_of_soundIn hcfg (heng ▸ soundIn_reset s.cfg)
  · exact exec_sound (s := { s with pending := rest }) h hx
  · exact sound_of_soundIn hcfg (heng ▸ takeFault_sound h .illegal 0 w)

/-- Settles O55. -/
theorem resetIsSound : Obligations.ResetIsSound := soundIn_reset _

end Sys2Proof.Machine


/-! PROOFS. The priority queue and the tree of TBUILD (42_tree_builder.md R131 to R136, 10_state.md R24, R48). -/

namespace Sys2Proof.Machine

theorem nodup_of_sorted {q : List NodeIdx} (h : q.Pairwise (· < ·)) : q.Nodup :=
  h.imp BitVec.ne_of_lt

theorem pqExtractMin_complete (node : List Node) {q : List NodeIdx} (h : q ≠ []) :
    ∃ k q', pqExtractMin node q = some (k, q') := by
  cases q with
  | nil => exact absurd rfl h
  | cons x q => exact ⟨_, _, rfl⟩

/-- Settles O20: insertion and extraction keep the ascending list, and erasing the least member of it
leaves the others. -/
theorem priorityQueueOperations : Obligations.PriorityQueueOperations := by
  intro node q hq
  refine ⟨fun k => ⟨pqInsert_sorted hq, fun j => mem_pqInsert⟩, fun hne => ?_⟩
  obtain ⟨k, q', hx⟩ := pqExtractMin_complete node hne
  obtain ⟨hk, herase, hleast⟩ := pqExtractMin_some hx
  refine ⟨k, q', hx, hk, fun j hj hjk => keyLess_iff.2 (hleast j hj hjk), pqExtractMin_sorted hq hx, fun j => ?_⟩
  rw [herase, (nodup_of_sorted hq).mem_erase_iff, and_comm]

theorem treeShape_nil : treeShape [] [] := by
  refine ⟨rfl, nofun, ?_, ?_, ?_⟩
  · intro k _ hk
    simp at hk
  · intro j hj
    simp at hj
  · rintro p ⟨w, l, r, hp, -⟩
    simp at hp

/-- A forest of one tree, rooted at its last node, has the shape of 10_state.md R48. -/
theorem treeShape_of_forest {t : List FreqEntry} {e : Engine} (hf : Forest t e) (hq : e.pq = [e.root])
    (hroot : e.root.toNat = 2 * t.length - 2) (hlen : e.node.length = 2 * t.length - 1) : treeShape t e.node := by
  have htop : ∀ p, ¬ isParentOf e.node p e.root.toNat := hf.top e.root (by simp [hq])
  refine ⟨hlen, hf.leaves, fun k hk hlt => ?_, fun j hj => hf.below j (by omega) ?_, hroot ▸ htop⟩
  · obtain ⟨w, l, r, hnode⟩ := hf.upper k hk (by omega)
    obtain ⟨-, hl, hr, hne, hw, -⟩ := hf.inner k w l r hnode
    exact ⟨w, l, r, hnode, hl, hr, hne, hw⟩
  · intro k hk
    obtain rfl : k = e.root := by simpa [hq] using hk
    omega

theorem buildTree_treeShape (t : List FreqEntry) (e : Engine) (ht : t.length ≤ 65535) :
    treeShape t (buildTree t e).node := by
  by_cases hne : t = []
  · subst hne
    exact treeShape_nil
  · obtain ⟨hf, hq, -⟩ := buildTree_spec t e ht hne
    obtain ⟨hroot, hlen⟩ := buildTree_root t e ht hne
    exact treeShape_of_forest hf hq hroot hlen

/-- The root weighs the sum of the counts (42_tree_builder.md R135). -/
theorem buildTree_rootWeight (t : List FreqEntry) (e : Engine) (ht : t.length ≤ 65535) (hne : t ≠ []) :
    (weightAt (buildTree t e).node (buildTree t e).root).toNat = (t.map (fun r => r.count.toNat)).sum := by
  obtain ⟨hf, hq, -⟩ := buildTree_spec t e ht hne
  simpa [hq] using hf.weights

/-- The tree of one entry is its leaf (42_tree_builder.md R136). -/
theorem buildTree_singleton (r : FreqEntry) (e : Engine) :
    (buildTree [r] e).node = [leafOf r] ∧ (buildTree [r] e).root = 0 := ⟨rfl, rfl⟩

theorem exec_tbuild {s : State} (he : s.eng.err = false) (hv : s.eng.ftv = true)
    (hn : s.eng.n.toNat = s.eng.ft.length) :
    exec .tbuild s = .next { s with eng := buildTree s.eng.ft s.eng } :=
  runCommand_done he (tbuildBody_done.2 ⟨hv, _, tableEntries_eq_some hn, rfl⟩)

/-- Settles O21: the arena TBUILD leaves is a forest of one tree. -/
theorem tbuildBuildsTheTree : Obligations.TbuildBuildsTheTree := by
  intro s he hv hn
  have ht : s.eng.ft.length ≤ 65535 := by have := s.eng.n.isLt; omega
  have hx := exec_tbuild he hv hn
  rw [buildTree_frame] at hx
  refine ⟨_, _, _, _, _, hx, (buildTree_forest _ _ ht).nn, buildTree_treeShape _ _ ht, fun h0 => ?_, fun r h1 => ?_,
    fun hne => ?_⟩
  · simp [h0, buildTree_nil]
  · rw [h1]
    exact buildTree_singleton r s.eng
  · obtain ⟨-, hq, hrootv⟩ := buildTree_spec s.eng.ft s.eng ht hne
    exact ⟨(buildTree_root _ _ ht hne).1, hrootv, hq, buildTree_rootWeight _ _ ht hne⟩

end Sys2Proof.Machine

/-! PROOFS. Words, register reads and reset (10_state.md R31 to R34, R49). -/

namespace Sys2Proof.Machine

/-! The decoder on an encoded command (30_encoding.md R94, R95). -/

theorem opcodeField_toNat (w : Word) : (opcodeField w).toNat = w.toNat / 2 ^ 24 := by
  have := w.isLt
  rw [opcodeField, extract_toNat]
  omega

theorem encode_pushs_toNat (sym : Sym) : (encode (.pushs sym)).toNat = 0x10 * 2 ^ 24 + sym.toNat := by
  show (0x10#8 ++ 0#3 ++ sym : BitVec (8 + 3 + 21)).toNat = _
  simp only [append_toNat]
  rfl

theorem encode_pushb_toNat (byte : Byte) : (encode (.pushb byte)).toNat = 0x11 * 2 ^ 24 + byte.toNat := by
  show (0x11#8 ++ 0#16 ++ byte : BitVec (8 + 16 + 8)).toNat = _
  simp only [append_toNat]
  rfl

theorem decode_encode_pushs (sym : Sym) : decode (encode (.pushs sym)) = .command (.pushs sym) := by
  have hlt := sym.isLt
  have hop : opcodeField (encode (.pushs sym)) = 0x10#8 := by
    apply BitVec.eq_of_toNat_eq
    rw [opcodeField_toNat, encode_pushs_toNat]
    rw [BitVec.toNat_ofNat]
    omega
  have hsym : symField (encode (.pushs sym)) = sym := by
    apply BitVec.eq_of_toNat_eq
    rw [symField, extract_toNat, encode_pushs_toNat]
    omega
  have hmask : encode (.pushs sym) &&& Format.s.mask = (0x10#8 ++ 0#24 : Word) := by
    show (0x10#8 ++ 0#3 ++ sym : BitVec (8 + 3 + 21)) &&& ((0xFF#8 ++ 0x7#3) ++ 0#21 : BitVec (8 + 3 + 21)) = _
    rw [BitVec.and_append, BitVec.and_zero]
    rfl
  simp [decode, commandOfOpcode, hop, hsym, hmask, Instr.format]

theorem decode_encode_pushb (byte : Byte) : decode (encode (.pushb byte)) = .command (.pushb byte) := by
  have hlt := byte.isLt
  have hop : opcodeField (encode (.pushb byte)) = 0x11#8 := by
    apply BitVec.eq_of_toNat_eq
    rw [opcodeField_toNat, encode_pushb_toNat]
    rw [BitVec.toNat_ofNat]
    omega
  have hbyte : byteField (encode (.pushb byte)) = byte := by
    apply BitVec.eq_of_toNat_eq
    rw [byteField, extract_toNat, encode_pushb_toNat]
    omega
  have hmask : encode (.pushb byte) &&& Format.b.mask = (0x11#8 ++ 0#24 : Word) := by
    show (0x11#8 ++ 0#16 ++ byte : BitVec (8 + 16 + 8)) &&& ((0xFF#8 ++ 0xFFFF#16) ++ 0#8 : BitVec (8 + 16 + 8)) = _
    rw [BitVec.and_append, BitVec.and_zero]
    rfl
  simp [decode, commandOfOpcode, hop, hbyte, hmask, Instr.format]

theorem decode_encode (i : Instr) : decode (encode i) = .command i := by
  cases i
  case pushs sym => exact decode_encode_pushs sym
  case pushb byte => exact decode_encode_pushb byte
  all_goals decide

/-- Settles O4: the step decodes the word written to CMD, and a command's own word decodes to the command. -/
theorem stepRunsTheDecodedCommand : Obligations.StepRunsTheDecodedCommand := by
  have hrun : ∀ (s : State) (w : Word) (rest : List HostAccess) (i : Instr), s.pending = .regWrite 0 w :: rest →
      decode w = .command i → step s = exec i { s with pending := rest } := by
    intro s w rest i hp hd
    rw [step_regWrite_cmd hp, runWord, hd]
  refine ⟨hrun, fun s i => ?_⟩
  have hword : BitVec.ofNat 32 (encode i).toNat = encode i := by rw [BitVec.ofNat_toNat, BitVec.setWidth_eq]
  exact hrun (s.withFetchWord 32 (encode i).toNat) (encode i) s.pending i
    (by simp only [State.withFetchWord, hostWritesCommand, hword]) (decode_encode i)

theorem regRead_zero (e : Engine) : regRead 0 e = 0 := rfl

theorem regRead_fifteen (e : Engine) : regRead 0xF e = 0 := rfl

/-- Settles O8. -/
theorem accessesOffTheMapDoNothing : Obligations.AccessesOffTheMapDoNothing := by
  refine fun s rest => ⟨fun idx v hp hne => step_regWrite_other hp hne, fun idx hp hidx => ?_⟩
  rw [step_regRead hp]
  rcases hidx with rfl | rfl
  · rw [regRead_zero]
  · rw [regRead_fifteen]

theorem lengthView_toNat {len : Nat} (h : len < 2 ^ 64) : (lengthView len).toNat = len := by
  rw [lengthView, if_pos h, BitVec.toNat_ofNat, Nat.mod_eq_of_lt h]

theorem statusWord_toNat (e : Engine) : (statusWord e).toNat = statusValue e := by
  simp only [statusWord, statusValue, append_toNat, BitVec.toNat_ofBool]
  simp
  omega

/-- ROOT with ROOTV above its 17 bits (10_state.md R33). -/
theorem rootView_toNat (e : Engine) :
    (BitVec.ofBool e.rootv ++ e.root).toNat = 131072 * e.rootv.toNat + e.root.toNat := by
  rw [append_toNat, BitVec.toNat_ofBool]
  omega

theorem regRead_reset (idx : BitVec 4) : regRead idx Engine.reset = 0 := by
  revert idx
  decide

/-- Settles O7: one clause per index of the register map. -/
theorem registerReadsFollowTheMap : Obligations.RegisterReadsFollowTheMap := by
  refine ⟨fun s idx rest hp => ⟨regRead idx s.eng, step_regRead hp, ?_⟩, regRead_reset⟩
  refine ⟨?_, ?_, ?_, ?_, ?_, ?_, ?_, ?_, ?_, ?_, ?_, ?_, ?_, ?_, ?_, ?_⟩ <;> rintro rfl
  · exact regRead_zero s.eng
  · exact (BitVec.toNat_setWidth_of_le (b := statusWord s.eng) (by decide)).trans (statusWord_toNat s.eng)
  · exact BitVec.toNat_setWidth_of_le (b := s.eng.errcode) (by decide)
  · exact BitVec.toNat_setWidth_of_le (b := s.eng.errinfo) (by decide)
  · exact BitVec.toNat_setWidth_of_le (b := s.eng.errcmd) (by decide)
  · exact BitVec.toNat_setWidth_of_le (b := s.eng.rdata) (by decide)
  · exact BitVec.toNat_setWidth_of_le (b := s.eng.n) (by decide)
  · exact BitVec.toNat_setWidth_of_le (b := s.eng.nn) (by decide)
  · exact (BitVec.toNat_setWidth_of_le (b := BitVec.ofBool s.eng.rootv ++ s.eng.root) (by decide)).trans
      (rootView_toNat s.eng)
  · exact BitVec.toNat_setWidth_of_le (b := s.eng.pad) (by decide)
  · exact lengthView_toNat
  · exact lengthView_toNat
  · exact lengthView_toNat
  · exact lengthView_toNat
  · exact lengthView_toNat
  · exact regRead_fifteen s.eng

/-- Settles O10. -/
theorem resetGivesResetValues : Obligations.ResetGivesResetValues := by
  have hreset : atReset Engine.reset := atReset_iff.2 rfl
  refine ⟨fun s => ⟨_, hreset, rfl⟩, fun s rest hp => ⟨_, hreset, step_hardReset hp⟩, hreset, fun e idx he => ?_⟩
  rw [atReset_iff.1 he]
  exact regRead_reset idx

theorem step_cfg {s t : State} (h : step s = .next t) : t.cfg = s.cfg := by
  rcases step_next_cases h with ⟨hcfg, -⟩ | ⟨hcfg, -⟩ | ⟨-, rest, i, -, -, hx⟩ | ⟨-, hcfg, -⟩
  · exact hcfg
  · exact hcfg
  · exact exec_cfg (s := { s with pending := rest }) hx
  · exact hcfg

/-- Settles O60. -/
theorem configurationIsFixed : Obligations.ConfigurationIsFixed :=
  ⟨fun _ _ _ h => exec_cfg h, fun _ _ h => step_cfg h⟩

end Sys2Proof.Machine


/-! PROOFS. What each command may write (10_state.md R22, R27, R36, 20_memory.md R60). -/

namespace Sys2Proof.Machine

/-- `e` with each field that the command may write taken from `e'`, and each flag that it sets or clears at the value
it leaves; `bodyOf_written` ties it to the bodies. -/
def written (i : Instr) (e e' : Engine) : Engine :=
  match i with
  | .nop => e
  | .reset => Engine.reset
  | .clrerr => clearFault e
  | .pushs _ => { e with symIn := e'.symIn }
  | .pushb _ => { e with byteIn := e'.byteIn }
  | .popb => { e with byteOut := e'.byteOut, rdata := e'.rdata }
  | .pops => { e with symOut := e'.symOut, rdata := e'.rdata }
  | .hcount => installTable e'.ft e'.n e
  | .hread => installTable e'.ft e'.n { e with byteIn := e'.byteIn }
  | .tbuild => { e with
      node := e'.node, nn := e'.nn, root := e'.root, rootv := e'.rootv, pq := e'.pq, treev := true
      ct := [], ctv := false }
  | .cwalk => { e with ct := e'.ct, ctv := true }
  | .encode => { e with bits := e'.bits, bitsv := true }
  | .pack => { e with byteOut := e'.byteOut, pad := e'.pad }
  | .unpack => { e with bits := e'.bits, bitsv := true, pad := e'.pad, byteIn := e'.byteIn }
  | .decode => { e with symOut := e'.symOut, res := e'.res }
  | .hwrite => { e with byteOut := e'.byteOut }
  | .compress => { e with
      n := e'.n, nn := e'.nn, root := e'.root, rootv := e'.rootv, pad := e'.pad
      ftv := true, treev := true, ctv := true, bitsv := true
      ft := e'.ft, node := e'.node, ct := e'.ct, pq := e'.pq, byteOut := e'.byteOut, bits := e'.bits }
  | .decompress => { e with
      n := e'.n, nn := e'.nn, root := e'.root, rootv := e'.rootv, pad := e'.pad
      ftv := true, treev := true, ctv := true, bitsv := true, res := e'.res
      ft := e'.ft, node := e'.node, ct := e'.ct, pq := e'.pq
      byteIn := e'.byteIn, symOut := e'.symOut, bits := e'.bits }

theorem tbuildBody_frame {e e' : Engine} (hb : tbuildBody e = .done e') :
    ∃ node nn root rootv pq, e' = { e with
      node := node, nn := nn, root := root, rootv := rootv, pq := pq, treev := true, ct := [], ctv := false } := by
  obtain ⟨-, t, -, rfl⟩ := tbuildBody_done.1 hb
  exact ⟨_, _, _, _, _, buildTree_frame t e⟩

theorem compressBody_written {cfg : Capacities} {e e' : Engine} (hb : compressBody cfg e = .done e') :
    e' = written .compress e e' := by
  simp only [compressBody, andThen_eq_done] at hb
  obtain ⟨e5, ⟨e4, ⟨e3, ⟨e2, ⟨e1, hhcount, hhwrite⟩, htbuild⟩, hcwalk⟩, hencode⟩, hpack⟩ := hb
  obtain ⟨t, -, rfl⟩ := hcountBody_done.1 hhcount
  obtain ⟨-, _, hdr, -, -, -, rfl⟩ := hwriteBody_done.1 hhwrite
  obtain ⟨node, nn, root, rootv, pq, rfl⟩ := tbuildBody_frame htbuild
  obtain ⟨-, ct, -, rfl⟩ := cwalkBody_done.1 hcwalk
  obtain ⟨-, bits, -, -, rfl⟩ := encodeBody_done.1 hencode
  obtain ⟨-, -, rfl⟩ := packBody_done.1 hpack
  rfl

theorem decompressBody_written {cfg : Capacities} {e e' : Engine} (hb : decompressBody cfg e = .done e') :
    e' = written .decompress e e' := by
  simp only [decompressBody, andThen_eq_done] at hb
  obtain ⟨e4, ⟨e3, ⟨e2, ⟨e1, hhread, htbuild⟩, hcwalk⟩, hunpack⟩, hdecode⟩ := hb
  obtain ⟨y0, y1, y, t, rest, -, -, rfl⟩ := hreadBody_done.1 hhread
  obtain ⟨node, nn, root, rootv, pq, rfl⟩ := tbuildBody_frame htbuild
  obtain ⟨-, ct, -, rfl⟩ := cwalkBody_done.1 hcwalk
  obtain ⟨p, payload, -, -, -, -, -, rfl⟩ := unpackBody_done.1 hunpack
  obtain ⟨-, -, out, left, -, -, rfl⟩ := decodeBody_done.1 hdecode
  rfl

/-- A command that completes writes only what `written` lets it write. -/
theorem bodyOf_written {cfg : Capacities} {i : Instr} {e e' : Engine} (hb : bodyOf cfg i e = .done e') :
    e' = written i e e' := by
  cases i with
  | nop | reset | clrerr => cases hb; rfl
  | pushs sym => obtain ⟨-, -, rfl⟩ := pushsBody_done.1 hb; rfl
  | pushb byte => obtain ⟨-, rfl⟩ := pushbBody_done.1 hb; rfl
  | popb => obtain ⟨b, rest, -, rfl⟩ := popbBody_done.1 hb; rfl
  | pops => obtain ⟨x, rest, -, rfl⟩ := popsBody_done.1 hb; rfl
  | hcount => obtain ⟨t, -, rfl⟩ := hcountBody_done.1 hb; rfl
  | tbuild => obtain ⟨node, nn, root, rootv, pq, rfl⟩ := tbuildBody_frame hb; rfl
  | cwalk => obtain ⟨-, c, -, rfl⟩ := cwalkBody_done.1 hb; rfl
  | encode => obtain ⟨-, b, -, -, rfl⟩ := encodeBody_done.1 hb; rfl
  | pack => obtain ⟨-, -, rfl⟩ := packBody_done.1 hb; rfl
  | unpack => obtain ⟨y0, rest, -, -, -, -, -, rfl⟩ := unpackBody_done.1 hb; rfl
  | decode => obtain ⟨-, -, out, left, -, -, rfl⟩ := decodeBody_done.1 hb; rfl
  | hwrite => obtain ⟨-, t, hdr, -, -, -, rfl⟩ := hwriteBody_done.1 hb; rfl
  | hread => obtain ⟨y0, y1, y, t, rest, -, -, rfl⟩ := hreadBody_done.1 hb; rfl
  | compress => exact compressBody_written hb
  | decompress => exact decompressBody_written hb

/-- A part of the engine that neither a fault nor the command writes is as before. -/
theorem exec_keeps {α : Type} (part : Engine → α) {i : Instr} {s t : State} (h : exec i s = .next t)
    (hfault : ∀ c info w e, part (takeFault c info w e) = part e)
    (hwritten : ∀ e e', part (written i e e') = part e) : part t.eng = part s.eng := by
  rcases exec_next_cases h with ⟨-, -, rfl⟩ | ⟨-, e, hb, rfl⟩ | ⟨-, -, c, info, -, rfl⟩
  · rfl
  · calc part e = part (written i s.eng e) := congrArg part (bodyOf_written hb)
      _ = part s.eng := hwritten s.eng e
  · exact hfault c info _ _

theorem written_n {i : Instr} (hi : i ∉ [.hcount, .hread, .compress, .decompress, .reset]) (e e' : Engine) :
    (written i e e').n = e.n := by
  cases i
  case hcount | hread | compress | decompress | reset => simp at hi
  all_goals rfl

theorem written_tree {i : Instr} (hi : i ∉ [.tbuild, .compress, .decompress, .reset, .hcount, .hread])
    (e e' : Engine) : (written i e e').nn = e.nn ∧ (written i e e').root = e.root ∧
      (written i e e').rootv = e.rootv := by
  cases i
  case tbuild | hcount | hread | compress | decompress | reset => simp at hi
  all_goals exact ⟨rfl, rfl, rfl⟩

theorem written_pad {i : Instr} (hi : i ∉ [.pack, .unpack, .compress, .decompress, .reset]) (e e' : Engine) :
    (written i e e').pad = e.pad := by
  cases i
  case pack | unpack | compress | decompress | reset => simp at hi
  all_goals rfl

theorem written_rdata {i : Instr} (hi : i ∉ [.popb, .pops, .reset]) (e e' : Engine) :
    (written i e e').rdata = e.rdata := by
  cases i
  case popb | pops | reset => simp at hi
  all_goals rfl

/-- Settles O57: a command that is none of a register's writers keeps it. -/
theorem dataRegistersHaveTheirWriters : Obligations.DataRegistersHaveTheirWriters := by
  intro i s t h
  refine ⟨fun hne => ?_, fun hne => ?_, fun hne => ?_, fun hne => ?_⟩ <;> by_contra hi
  · exact hne (exec_keeps Engine.n h (fun _ _ _ _ => rfl) (written_n hi))
  · have hnn := exec_keeps Engine.nn h (fun _ _ _ _ => rfl) fun e e' => (written_tree hi e e').1
    have hroot := exec_keeps Engine.root h (fun _ _ _ _ => rfl) fun e e' => (written_tree hi e e').2.1
    have hrootv := exec_keeps Engine.rootv h (fun _ _ _ _ => rfl) fun e e' => (written_tree hi e e').2.2
    rcases hne with hne | hne | hne
    · exact hne hnn
    · exact hne hroot
    · exact hne hrootv
  · exact hne (exec_keeps Engine.pad h (fun _ _ _ _ => rfl) (written_pad hi))
  · exact hne (exec_keeps Engine.rdata h (fun _ _ _ _ => rfl) (written_rdata hi))

/-! The table of 10_state.md R27. -/

/-- A flag goes to 1 only by the commands in `sets` and to 0 only by those in `clears`. -/
def FlagMoves (flag : Engine → Bool) (sets clears : List Instr) (i : Instr) (e e' : Engine) : Prop :=
  (flag e = false → flag e' = true → i ∈ sets) ∧ (flag e = true → flag e' = false → i ∈ clears)

section FlagTable
variable (i : Instr) (e e' : Engine)

theorem written_err : FlagMoves Engine.err [] [.clrerr, .reset] i e (written i e e') := by
  cases i <;> simp +contextual [FlagMoves, written, Engine.reset]

theorem written_ftv :
    FlagMoves Engine.ftv [.hcount, .hread, .compress, .decompress] [.reset] i e (written i e e') := by
  cases i <;> simp +contextual [FlagMoves, written, Engine.reset]

theorem written_treev :
    FlagMoves Engine.treev [.tbuild, .compress, .decompress] [.hcount, .hread, .reset] i e (written i e e') := by
  cases i <;> simp +contextual [FlagMoves, written, Engine.reset]

theorem written_ctv :
    FlagMoves Engine.ctv [.cwalk, .compress, .decompress] [.hcount, .hread, .tbuild, .reset] i e (written i e e') := by
  cases i <;> simp +contextual [FlagMoves, written, Engine.reset]

theorem written_bitsv :
    FlagMoves Engine.bitsv [.encode, .unpack, .compress, .decompress] [.reset] i e (written i e e') := by
  cases i <;> simp +contextual [FlagMoves, written, Engine.reset]

theorem written_res :
    FlagMoves Engine.res [.decode, .decompress] [.decode, .decompress, .reset] i e (written i e e') := by
  cases i <;> simp +contextual [FlagMoves, written, Engine.reset]

end FlagTable

theorem flagMoves_same {flag : Engine → Bool} {sets clears : List Instr} {i : Instr} {e e' : Engine}
    (h : flag e' = flag e) : FlagMoves flag sets clears i e e' := by
  simp +contextual [FlagMoves, h]

/-- What holds of a flag on a command that completes holds of every execution, when a fault leaves the flag alone. -/
theorem exec_flagMoves {flag : Engine → Bool} {sets clears : List Instr} {i : Instr} {s t : State}
    (hwritten : ∀ e e', FlagMoves flag sets clears i e (written i e e'))
    (hfault : ∀ c info w e, flag (takeFault c info w e) = flag e) (h : exec i s = .next t) :
    FlagMoves flag sets clears i s.eng t.eng := by
  rcases exec_next_cases h with ⟨-, -, rfl⟩ | ⟨-, e, hb, rfl⟩ | ⟨-, -, c, info, -, rfl⟩
  · exact flagMoves_same rfl
  · exact bodyOf_written hb ▸ hwritten s.eng e
  · exact flagMoves_same (hfault c info _ _)

/-- A held fault goes away only by CLRERR and RESET. -/
theorem exec_err_cleared {i : Instr} {s t : State} (h : exec i s = .next t) (hs : s.eng.err = true)
    (ht : t.eng.err = false) : i ∈ [.clrerr, .reset] := by
  rcases exec_next_cases h with ⟨-, -, rfl⟩ | ⟨-, e, hb, rfl⟩ | ⟨-, -, c, info, -, rfl⟩
  · simp [hs] at ht
  · exact (written_err i s.eng e).2 hs (bodyOf_written hb ▸ ht)
  · simp at ht

/-- With no fault before and none after, the command has run to its end. -/
theorem exec_completed {i : Instr} {s t : State} (h : exec i s = .next t) (hs : s.eng.err = false)
    (ht : t.eng.err = false) : bodyOf s.cfg i s.eng = .done t.eng := by
  rcases exec_next_cases h with ⟨-, he, rfl⟩ | ⟨-, e, hb, rfl⟩ | ⟨-, -, c, info, -, rfl⟩
  · simp [he] at ht
  · exact hb
  · simp at ht

/-- A command that leaves a fault where none was held has recorded it and changed nothing else. -/
theorem exec_faulted {i : Instr} {s t : State} (h : exec i s = .next t) (hs : s.eng.err = false)
    (ht : t.eng.err = true) : ∃ c info, t.eng = takeFault c info (encode i) s.eng := by
  rcases exec_next_cases h with ⟨-, he, rfl⟩ | ⟨-, e, hb, rfl⟩ | ⟨-, -, c, info, -, rfl⟩
  · simp [he] at hs
  · exact absurd ((written_err i s.eng e).1 hs (bodyOf_written hb ▸ ht)) List.not_mem_nil
  · exact ⟨c, info, rfl⟩

/-- The flags a writer leaves when it completes. -/
theorem bodyOf_flags {cfg : Capacities} {i : Instr} {e e' : Engine} (hb : bodyOf cfg i e = .done e') :
    (i ∈ [.hcount, .hread] → e'.ftv = true ∧ e'.treev = false ∧ e'.ctv = false) ∧
    (i = .tbuild → e'.treev = true ∧ e'.ctv = false) ∧
    (i = .cwalk → e'.ctv = true) ∧
    (i ∈ [.encode, .unpack] → e'.bitsv = true) ∧
    (i ∈ [.compress, .decompress] → e'.ftv = true ∧ e'.treev = true ∧ e'.ctv = true ∧ e'.bitsv = true) := by
  rw [bodyOf_written hb]
  cases i <;> simp [written]

/-- DECODE and DECOMPRESS leave RES set exactly when bits are left over (46_codec_sequencer.md R189). -/
theorem bodyOf_res {cfg : Capacities} {i : Instr} {e e' : Engine} (hb : bodyOf cfg i e = .done e')
    (hi : i ∈ [.decode, .decompress]) : ∃ left, bitsLeft e' left ∧ (e'.res = true ↔ left ≠ []) := by
  simp only [List.mem_cons, List.not_mem_nil, or_false] at hi
  rcases hi with rfl | rfl
  · exact decodeBody_res hb
  · obtain ⟨e1, -, hdecode⟩ := andThen_eq_done.1 hb
    exact decodeBody_res hdecode

theorem statusValue_takeFault {e : Engine} (he : e.err = false) (c : Cause) (info : BitVec 8) (w : Word) :
    statusValue (takeFault c info w e) = statusValue e + 1 := by
  simp only [statusValue, takeFault_err, takeFault_ftv, takeFault_treev, takeFault_ctv, takeFault_bitsv, takeFault_res,
    he, Bool.toNat_true, Bool.toNat_false]
  omega

/-- Settles O59: the table of R27 on a command that completes, ERR alone on one that faults, nothing on one that is
ignored. -/
theorem flagsHaveTheirWriters : Obligations.FlagsHaveTheirWriters := by
  intro i s t h
  obtain ⟨ftvSet, ftvCleared⟩ := exec_flagMoves (written_ftv i) (fun _ _ _ _ => rfl) h
  obtain ⟨treevSet, treevCleared⟩ := exec_flagMoves (written_treev i) (fun _ _ _ _ => rfl) h
  obtain ⟨ctvSet, ctvCleared⟩ := exec_flagMoves (written_ctv i) (fun _ _ _ _ => rfl) h
  obtain ⟨bitsvSet, bitsvCleared⟩ := exec_flagMoves (written_bitsv i) (fun _ _ _ _ => rfl) h
  obtain ⟨resSet, resCleared⟩ := exec_flagMoves (written_res i) (fun _ _ _ _ => rfl) h
  refine ⟨exec_err_cleared h, ftvSet, fun hs ht => List.mem_singleton.1 (ftvCleared hs ht), treevSet, treevCleared,
    ctvSet, ctvCleared, bitsvSet, fun hs ht => List.mem_singleton.1 (bitsvCleared hs ht), resSet, resCleared,
    fun hs ht => ?_, fun hs ht => ?_, ?_, ?_⟩
  · have hb := exec_completed h hs ht
    obtain ⟨htable, htbuild, hcwalk, hbits, hmacro⟩ := bodyOf_flags hb
    exact ⟨htable, htbuild, hcwalk, hbits, hmacro, bodyOf_res hb⟩
  · obtain ⟨c, info, heng⟩ := exec_faulted h hs ht
    rw [heng, statusValue_takeFault hs]
  · rintro rfl
    cases h
    rfl
  · rintro rfl
    cases h
    rfl

end Sys2Proof.Machine

/-! PROOFS. The data forms as numbers: bits of a byte, big-endian integers and UTF-8 (20_memory.md R62 to R65). -/

namespace Sys2Proof.Machine

/-- A field of a bit vector, from the number the whole holds. -/
theorem extract_eq_ofNat {w : Nat} (x : BitVec w) (s l : Nat) :
    x.extractLsb' s l = BitVec.ofNat l (x.toNat / 2 ^ s % 2 ^ l) := by
  apply BitVec.eq_of_toNat_eq
  rw [extract_toNat, BitVec.toNat_ofNat, Nat.mod_mod]

/-- A constant marker before a field. -/
theorem append_extract_eq_ofNat {m w : Nat} (marker : BitVec m) (x : BitVec w) (s l : Nat) :
    marker ++ x.extractLsb' s l = BitVec.ofNat (m + l) (marker.toNat * 2 ^ l + x.toNat / 2 ^ s % 2 ^ l) := by
  rw [← extract_toNat, ← append_toNat, BitVec.ofNat_toNat, BitVec.setWidth_eq]

/-- A constant marker before all of `x` from bit `s` on, when the field can hold it. -/
theorem append_extract_eq_ofNat_of_lt {m w : Nat} (marker : BitVec m) (x : BitVec w) (s l : Nat)
    (h : x.toNat / 2 ^ s < 2 ^ l) :
    marker ++ x.extractLsb' s l = BitVec.ofNat (m + l) (marker.toNat * 2 ^ l + x.toNat / 2 ^ s) := by
  rw [append_extract_eq_ofNat, Nat.mod_eq_of_lt h]

theorem byteBits_getElem? (b : Byte) {j : Nat} (hj : j < 8) : (byteBits b)[j]? = some (b.getLsbD (7 - j)) := by
  interval_cases j <;> rfl

theorem be16_eq (v : BitVec 16) :
    be16 v = [BitVec.ofNat 8 (v.toNat / 256), BitVec.ofNat 8 (v.toNat % 256)] := by
  have hv := v.isLt
  have htop : v.toNat / 256 % 256 = v.toNat / 256 := by omega
  simp only [be16, extract_eq_ofNat, Nat.reducePow, Nat.div_one, htop]

theorem be32_eq (v : BitVec 32) :
    be32 v = [BitVec.ofNat 8 (v.toNat / 16777216), BitVec.ofNat 8 (v.toNat / 65536 % 256),
      BitVec.ofNat 8 (v.toNat / 256 % 256), BitVec.ofNat 8 (v.toNat % 256)] := by
  have hv := v.isLt
  have htop : v.toNat / 16777216 % 256 = v.toNat / 16777216 := by omega
  simp only [be32, extract_eq_ofNat, Nat.reducePow, Nat.div_one, htop]

/-- Settles O39: both forms are read through the numbers of their fields. -/
theorem bitsAndBytesAreBigEndian : Obligations.BitsAndBytesAreBigEndian :=
  ⟨fun b => ⟨byteBits_length b, fun _ => byteBits_getElem? b⟩, byteBits_bitsByte, be16_eq, be32_eq, fromBe16_toNat,
    fromBe32_toNat⟩

/-! The rows of UTF-8 (20_memory.md R64). -/

theorem utf8Cont_extract (s : Sym) (k : Nat) :
    utf8Cont (s.extractLsb' k 6) = BitVec.ofNat 8 (0x80 + s.toNat / 2 ^ k % 64) :=
  append_extract_eq_ofNat 0b10#2 s k 6

theorem utf8_oneByte {s : Sym} (hi : s.toNat ≤ 0x7F) : utf8 s = some [BitVec.ofNat 8 s.toNat] := by
  have hs : isScalar s = true := isScalar_iff.2 (.inl (by omega))
  have hbyte : s.toNat % 256 = s.toNat := by omega
  simp [utf8, hs, BitVec.le_def, hi, extract_eq_ofNat, hbyte]

theorem utf8_twoBytes {s : Sym} (lo : 0x80 ≤ s.toNat) (hi : s.toNat ≤ 0x7FF) :
    utf8 s = some [BitVec.ofNat 8 (0xC0 + s.toNat / 64), BitVec.ofNat 8 (0x80 + s.toNat % 64)] := by
  have hs : isScalar s = true := isScalar_iff.2 (.inl (by omega))
  have hrow : ¬ s.toNat ≤ 0x7F := by omega
  have hlead : 0b110#3 ++ s.extractLsb' 6 5 = BitVec.ofNat 8 (0xC0 + s.toNat / 64) :=
    append_extract_eq_ofNat_of_lt 0b110#3 s 6 5 (by omega)
  simp [utf8, hs, BitVec.le_def, hrow, hi, hlead, utf8Cont_extract]

theorem utf8_threeBytes {s : Sym} (lo : 0x800 ≤ s.toNat) (hi : s.toNat ≤ 0xFFFF) (hs : scalarValue s) :
    utf8 s = some [BitVec.ofNat 8 (0xE0 + s.toNat / 4096), BitVec.ofNat 8 (0x80 + s.toNat / 64 % 64),
      BitVec.ofNat 8 (0x80 + s.toNat % 64)] := by
  have hrow : ¬ s.toNat ≤ 0x7F ∧ ¬ s.toNat ≤ 0x7FF := by omega
  have hlead : 0b1110#4 ++ s.extractLsb' 12 4 = BitVec.ofNat 8 (0xE0 + s.toNat / 4096) :=
    append_extract_eq_ofNat_of_lt 0b1110#4 s 12 4 (by omega)
  simp [utf8, isScalar_iff.2 hs, BitVec.le_def, hrow, hi, hlead, utf8Cont_extract]

theorem utf8_fourBytes {s : Sym} (lo : 0x10000 ≤ s.toNat) (hi : s.toNat ≤ 0x10FFFF) :
    utf8 s = some [BitVec.ofNat 8 (0xF0 + s.toNat / 262144), BitVec.ofNat 8 (0x80 + s.toNat / 4096 % 64),
      BitVec.ofNat 8 (0x80 + s.toNat / 64 % 64), BitVec.ofNat 8 (0x80 + s.toNat % 64)] := by
  have hs : isScalar s = true := isScalar_iff.2 (.inr (by omega))
  have hrow : ¬ s.toNat ≤ 0x7F ∧ ¬ s.toNat ≤ 0x7FF ∧ ¬ s.toNat ≤ 0xFFFF := by omega
  have hlead : 0b11110#5 ++ s.extractLsb' 18 3 = BitVec.ofNat 8 (0xF0 + s.toNat / 262144) :=
    append_extract_eq_ofNat_of_lt 0b11110#5 s 18 3 (by omega)
  simp [utf8, hs, BitVec.le_def, hrow, hlead, utf8Cont_extract]

theorem utf8_eq_none {s : Sym} (h : ¬ scalarValue s) : utf8 s = none :=
  Option.eq_none_iff_forall_ne_some.2 fun _ hu => h (isScalar_iff.1 (utf8_scalar hu))

/-- Settles O40: one lemma per row, and a symbol that has an encoding is a scalar value. -/
theorem utfEightFollowsItsRows : Obligations.UtfEightFollowsItsRows := fun _ =>
  ⟨utf8_oneByte, utf8_twoBytes, utf8_threeBytes, utf8_fourBytes, utf8_eq_none⟩

/-- Settles O41: the one candidate `utf8_one` tries is the symbol whose encoding the bytes are. -/
theorem utfEightOneInvertsUtfEight : Obligations.UtfEightOneInvertsUtfEight := fun _ _ =>
  ⟨utf8_of_utf8One, utf8One_of_utf8⟩

end Sys2Proof.Machine

/-! PROOFS. The memories, their writers and the end each queue is written at (20_memory.md R60). -/

namespace Sys2Proof.Machine

/-- A part of the engine that a command does not write is as before when it completes. -/
theorem bodyOf_keeps {α : Type} (part : Engine → α) {cfg : Capacities} {i : Instr} {e e' : Engine}
    (hb : bodyOf cfg i e = .done e') (hwritten : ∀ e e', part (written i e e') = part e) : part e' = part e :=
  (congrArg part (bodyOf_written hb)).trans (hwritten e e')

/-! The queues on a command that completes: `bodyOf_written` for the commands that keep the queue, the body's own
equation for those that write it. -/

theorem bodyOf_symIn {cfg : Capacities} {i : Instr} {e e' : Engine} (hb : bodyOf cfg i e = .done e') :
    e'.symIn = e.symIn ∨ (∃ x, i = .pushs x ∧ e'.symIn = e.symIn ++ [x]) ∨ (i = .reset ∧ e'.symIn = []) := by
  cases i
  case pushs x =>
    obtain ⟨-, -, rfl⟩ := pushsBody_done.1 hb
    exact .inr (.inl ⟨x, rfl, rfl⟩)
  case reset =>
    cases hb
    exact .inr (.inr ⟨rfl, rfl⟩)
  all_goals exact .inl (bodyOf_keeps Engine.symIn hb fun _ _ => rfl)

/-- HREAD takes the header from the head of BYTE_IN (45_header_codec.md R171). -/
theorem hreadBody_byteIn {e e' : Engine} (hb : hreadBody e = .done e') : e'.byteIn <:+ e.byteIn := by
  obtain ⟨y0, y1, y, t, rest, hy, hp, rfl⟩ := hreadBody_done.1 hb
  obtain ⟨-, header, -, -, -, rfl, -, -⟩ := parseEntries_table hp (by simp)
  exact ⟨y0 :: y1 :: header, by simp [hy]⟩

/-- UNPACK takes all of BYTE_IN (44_bit_packer.md R161). -/
theorem unpackBody_byteIn {cfg : Capacities} {e e' : Engine} (hb : unpackBody cfg e = .done e') : e'.byteIn = [] := by
  obtain ⟨-, -, -, -, -, -, -, rfl⟩ := unpackBody_done.1 hb
  rfl

theorem decompressBody_byteIn {cfg : Capacities} {e e' : Engine} (hb : decompressBody cfg e = .done e') :
    e'.byteIn = [] := by
  obtain ⟨e1, hpre, hdecode⟩ := andThen_eq_done.1 hb
  obtain ⟨e2, -, hunpack⟩ := andThen_eq_done.1 hpre
  exact (bodyOf_keeps Engine.byteIn (i := .decode) hdecode fun _ _ => rfl).trans (unpackBody_byteIn hunpack)

theorem bodyOf_byteIn {cfg : Capacities} {i : Instr} {e e' : Engine} (hb : bodyOf cfg i e = .done e') :
    e'.byteIn = e.byteIn ∨ (∃ b, i = .pushb b ∧ e'.byteIn = e.byteIn ++ [b]) ∨
      (i ∈ [.hread, .unpack, .decompress] ∧ e'.byteIn <:+ e.byteIn) ∨ (i = .reset ∧ e'.byteIn = []) := by
  cases i
  case pushb b =>
    obtain ⟨-, rfl⟩ := pushbBody_done.1 hb
    exact .inr (.inl ⟨b, rfl, rfl⟩)
  case hread => exact .inr (.inr (.inl ⟨by simp, hreadBody_byteIn hb⟩))
  case unpack => exact .inr (.inr (.inl ⟨by simp, unpackBody_byteIn hb ▸ List.nil_suffix⟩))
  case decompress => exact .inr (.inr (.inl ⟨by simp, decompressBody_byteIn hb ▸ List.nil_suffix⟩))
  case reset =>
    cases hb
    exact .inr (.inr (.inr ⟨rfl, rfl⟩))
  all_goals exact .inl (bodyOf_keeps Engine.byteIn hb fun _ _ => rfl)

theorem hwriteBody_byteOut {cfg : Capacities} {e e' : Engine} (hb : hwriteBody cfg e = .done e') :
    e.byteOut <+: e'.byteOut := by
  obtain ⟨-, t, header, -, -, -, rfl⟩ := hwriteBody_done.1 hb
  exact List.prefix_append _ _

theorem packBody_byteOut {cfg : Capacities} {e e' : Engine} (hb : packBody cfg e = .done e') :
    e.byteOut <+: e'.byteOut := by
  obtain ⟨-, -, rfl⟩ := packBody_done.1 hb
  exact List.prefix_append _ _

/-- COMPRESS appends what its HWRITE and its PACK append (46_codec_sequencer.md R190). -/
theorem compressBody_byteOut {cfg : Capacities} {e e' : Engine} (hb : compressBody cfg e = .done e') :
    e.byteOut <+: e'.byteOut := by
  simp only [compressBody, andThen_eq_done] at hb
  obtain ⟨e5, ⟨e4, ⟨e3, ⟨e2, ⟨e1, hhcount, hhwrite⟩, htbuild⟩, hcwalk⟩, hencode⟩, hpack⟩ := hb
  calc e.byteOut
    _ = e1.byteOut := (bodyOf_keeps Engine.byteOut (cfg := cfg) (i := .hcount) hhcount fun _ _ => rfl).symm
    _ <+: e2.byteOut := hwriteBody_byteOut hhwrite
    _ = e3.byteOut := (bodyOf_keeps Engine.byteOut (cfg := cfg) (i := .tbuild) htbuild fun _ _ => rfl).symm
    _ = e4.byteOut := (bodyOf_keeps Engine.byteOut (cfg := cfg) (i := .cwalk) hcwalk fun _ _ => rfl).symm
    _ = e5.byteOut := (bodyOf_keeps Engine.byteOut (i := .encode) hencode fun _ _ => rfl).symm
    _ <+: e'.byteOut := packBody_byteOut hpack

theorem bodyOf_byteOut {cfg : Capacities} {i : Instr} {e e' : Engine} (hb : bodyOf cfg i e = .done e') :
    e'.byteOut = e.byteOut ∨ (i ∈ [.hwrite, .pack, .compress] ∧ e.byteOut <+: e'.byteOut) ∨
      (i = .popb ∧ ∃ b, e.byteOut = b :: e'.byteOut) ∨ (i = .reset ∧ e'.byteOut = []) := by
  cases i
  case hwrite => exact .inr (.inl ⟨by simp, hwriteBody_byteOut hb⟩)
  case pack => exact .inr (.inl ⟨by simp, packBody_byteOut hb⟩)
  case compress => exact .inr (.inl ⟨by simp, compressBody_byteOut hb⟩)
  case popb =>
    obtain ⟨b, rest, hq, rfl⟩ := popbBody_done.1 hb
    exact .inr (.inr (.inl ⟨rfl, b, hq⟩))
  case reset =>
    cases hb
    exact .inr (.inr (.inr ⟨rfl, rfl⟩))
  all_goals exact .inl (bodyOf_keeps Engine.byteOut hb fun _ _ => rfl)

theorem decodeBody_symOut {cfg : Capacities} {e e' : Engine} (hb : decodeBody cfg e = .done e') :
    e.symOut <+: e'.symOut := by
  obtain ⟨-, -, out, left, -, -, rfl⟩ := decodeBody_done.1 hb
  exact List.prefix_append _ _

/-- DECOMPRESS appends what its DECODE appends (46_codec_sequencer.md R191). -/
theorem decompressBody_symOut {cfg : Capacities} {e e' : Engine} (hb : decompressBody cfg e = .done e') :
    e.symOut <+: e'.symOut := by
  simp only [decompressBody, andThen_eq_done] at hb
  obtain ⟨e4, ⟨e3, ⟨e2, ⟨e1, hhread, htbuild⟩, hcwalk⟩, hunpack⟩, hdecode⟩ := hb
  calc e.symOut
    _ = e1.symOut := (bodyOf_keeps Engine.symOut (cfg := cfg) (i := .hread) hhread fun _ _ => rfl).symm
    _ = e2.symOut := (bodyOf_keeps Engine.symOut (cfg := cfg) (i := .tbuild) htbuild fun _ _ => rfl).symm
    _ = e3.symOut := (bodyOf_keeps Engine.symOut (cfg := cfg) (i := .cwalk) hcwalk fun _ _ => rfl).symm
    _ = e4.symOut := (bodyOf_keeps Engine.symOut (i := .unpack) hunpack fun _ _ => rfl).symm
    _ <+: e'.symOut := decodeBody_symOut hdecode

theorem bodyOf_symOut {cfg : Capacities} {i : Instr} {e e' : Engine} (hb : bodyOf cfg i e = .done e') :
    e'.symOut = e.symOut ∨ (i ∈ [.decode, .decompress] ∧ e.symOut <+: e'.symOut) ∨
      (i = .pops ∧ ∃ x, e.symOut = x :: e'.symOut) ∨ (i = .reset ∧ e'.symOut = []) := by
  cases i
  case decode => exact .inr (.inl ⟨by simp, decodeBody_symOut hb⟩)
  case decompress => exact .inr (.inl ⟨by simp, decompressBody_symOut hb⟩)
  case pops =>
    obtain ⟨x, rest, hq, rfl⟩ := popsBody_done.1 hb
    exact .inr (.inr (.inl ⟨rfl, x, hq⟩))
  case reset =>
    cases hb
    exact .inr (.inr (.inr ⟨rfl, rfl⟩))
  all_goals exact .inl (bodyOf_keeps Engine.symOut hb fun _ _ => rfl)

/-- A command that is ignored or faults keeps a part of the engine that a fault leaves alone; any other has
completed. -/
theorem exec_keeps_or_completes {α : Type} (part : Engine → α) {i : Instr} {s t : State} (h : exec i s = .next t)
    (hfault : ∀ c info w e, part (takeFault c info w e) = part e) :
    part t.eng = part s.eng ∨ bodyOf s.cfg i s.eng = .done t.eng := by
  rcases exec_next_cases h with ⟨-, -, rfl⟩ | ⟨-, e, hb, rfl⟩ | ⟨-, -, c, info, -, rfl⟩
  · exact .inl rfl
  · exact .inr hb
  · exact .inl (hfault c info _ _)

/-! BITS and the tables: a command that is none of their writers keeps them. -/

theorem written_bits {i : Instr} (hi : i ∉ [.encode, .unpack, .compress, .decompress, .reset]) (e e' : Engine) :
    (written i e e').bits = e.bits := by
  cases i
  case encode | unpack | compress | decompress | reset => simp at hi
  all_goals rfl

theorem written_ft {i : Instr} (hi : i ∉ [.hcount, .hread, .compress, .decompress, .reset]) (e e' : Engine) :
    (written i e e').ft = e.ft := by
  cases i
  case hcount | hread | compress | decompress | reset => simp at hi
  all_goals rfl

theorem written_arena {i : Instr} (hi : i ∉ [.tbuild, .compress, .decompress, .hcount, .hread, .reset])
    (e e' : Engine) : (written i e e').node = e.node ∧ (written i e e').pq = e.pq := by
  cases i
  case tbuild | compress | decompress | hcount | hread | reset => simp at hi
  all_goals exact ⟨rfl, rfl⟩

theorem written_ct {i : Instr} (hi : i ∉ [.cwalk, .compress, .decompress, .hcount, .hread, .tbuild, .reset])
    (e e' : Engine) : (written i e e').ct = e.ct := by
  cases i
  case cwalk | compress | decompress | hcount | hread | tbuild | reset => simp at hi
  all_goals rfl

/-- Settles O58: the four queues by what each writer does to them, BITS and the tables by what every other command
keeps. -/
theorem memoriesHaveTheirWriters : Obligations.MemoriesHaveTheirWriters := by
  intro i s t h
  refine ⟨?symIn, ?byteIn, ?byteOut, ?symOut, fun hne => ?bits, fun hne => ?ft, fun hne => ?arena, fun hne => ?ct⟩
  case symIn => exact (exec_keeps_or_completes Engine.symIn h fun _ _ _ _ => rfl).elim .inl bodyOf_symIn
  case byteIn => exact (exec_keeps_or_completes Engine.byteIn h fun _ _ _ _ => rfl).elim .inl bodyOf_byteIn
  case byteOut => exact (exec_keeps_or_completes Engine.byteOut h fun _ _ _ _ => rfl).elim .inl bodyOf_byteOut
  case symOut => exact (exec_keeps_or_completes Engine.symOut h fun _ _ _ _ => rfl).elim .inl bodyOf_symOut
  case bits =>
    by_contra hi
    exact hne (exec_keeps Engine.bits h (fun _ _ _ _ => rfl) (written_bits hi))
  case ft =>
    by_contra hi
    exact hne (exec_keeps Engine.ft h (fun _ _ _ _ => rfl) (written_ft hi))
  case arena =>
    by_contra hi
    have hnode := exec_keeps Engine.node h (fun _ _ _ _ => rfl) fun e e' => (written_arena hi e e').1
    have hpq := exec_keeps Engine.pq h (fun _ _ _ _ => rfl) fun e e' => (written_arena hi e e').2
    exact hne.elim (absurd hnode) (absurd hpq)
  case ct =>
    by_contra hi
    exact hne (exec_keeps Engine.ct h (fun _ _ _ _ => rfl) (written_ct hi))

end Sys2Proof.Machine

/-! PROOFS. The decoder and the encoder (30_encoding.md R91 to R97). -/

namespace Sys2Proof.Machine

/-! A row of the opcode table (R95) and the operand its mask leaves free (R94). -/

/-- A command's row of R95: match and mask. -/
def rowOf (i : Instr) : Word × Word := (opcodeOf i ++ 0#24, i.format.mask)

theorem rowOf_pushs (sym : Sym) : rowOf (.pushs sym) = (0x10000000, 0xFFE00000) := by
  show ((0x10#8 ++ 0#24, 0xFFE00000#32) : Word × Word) = _
  decide

theorem rowOf_pushb (byte : Byte) : rowOf (.pushb byte) = (0x11000000, 0xFFFFFF00) := by
  show ((0x11#8 ++ 0#24, 0xFFFFFF00#32) : Word × Word) = _
  decide

/-- The command with the operand that the word holds (R94). -/
def withOperand (w : Word) : Instr → Instr
  | .pushs _ => .pushs (symField w)
  | .pushb _ => .pushb (byteField w)
  | i => i

@[simp] theorem rowOf_withOperand (w : Word) (i : Instr) : rowOf (withOperand w i) = rowOf i := by
  cases i <;> rfl

@[simp] theorem withOperand_withOperand (w : Word) (i : Instr) :
    withOperand w (withOperand w i) = withOperand w i := by
  cases i <;> rfl

theorem mem_opcodeRows_iff {r : Word × Word} : r ∈ opcodeRows ↔ ∃ i, rowOf i = r := by
  have hrows : opcodeRows = [.nop, .reset, .clrerr, .pushs 0, .pushb 0, .popb, .pops, .hcount, .tbuild, .cwalk, .encode,
      .pack, .unpack, .decode, .hwrite, .hread, .compress, .decompress].map rowOf := by decide
  constructor
  · intro hr
    rw [hrows, List.mem_map] at hr
    obtain ⟨i, -, hi⟩ := hr
    exact ⟨i, hi⟩
  · rintro ⟨i, rfl⟩
    cases i
    case pushs sym => rw [rowOf_pushs]; decide
    case pushb byte => rw [rowOf_pushb]; decide
    all_goals decide

/-! A word is a command's encoding exactly when it meets the command's row and holds its operand. -/

/-- A mask over the high part fixes that part; the low part is the field under the mask. -/
theorem eq_append_iff_masked {m n : Nat} (w : BitVec (m + n)) (x : BitVec m) (y : BitVec n) :
    w = x ++ y ↔ w &&& (BitVec.allOnes m ++ 0#n) = x ++ 0#n ∧ w.extractLsb' 0 n = y := by
  have hw : w.extractLsb' n m ++ w.extractLsb' 0 n = w := by
    rw [BitVec.extractLsb'_append_extractLsb'_eq_extractLsb' (Nat.zero_add n).symm, BitVec.extractLsb'_eq_self]
  constructor
  · rintro rfl
    exact ⟨by simp [BitVec.and_append], BitVec.extractLsb'_append_eq_right⟩
  · rintro ⟨hmask, rfl⟩
    have hhigh : w.extractLsb' n m = x := by
      rw [← hw, BitVec.and_append, BitVec.and_allOnes, BitVec.and_zero, BitVec.append_left_inj] at hmask
      exact hmask
    rw [← hhigh, hw]

theorem and_mask_z (w : Word) : w &&& Format.z.mask = w := by
  have hones : Format.z.mask = BitVec.allOnes 32 := by decide
  rw [hones, BitVec.and_allOnes]

theorem eq_encode_iff_of_full_mask (w : Word) {i : Instr} (hmatch : (rowOf i).1 = encode i)
    (hmask : (rowOf i).2 = Format.z.mask) (hoperand : withOperand w i = i) :
    w = encode i ↔ w &&& (rowOf i).2 = (rowOf i).1 ∧ withOperand w i = i := by
  rw [hmatch, hmask, and_mask_z]
  exact (and_iff_left hoperand).symm

theorem eq_encode_iff (w : Word) (i : Instr) :
    w = encode i ↔ w &&& (rowOf i).2 = (rowOf i).1 ∧ withOperand w i = i := by
  cases i
  case pushs sym =>
    have hencode : encode (.pushs sym) = (0x10#8 ++ 0#3) ++ sym := rfl
    have hrow : rowOf (.pushs sym) = ((0x10#8 ++ 0#3) ++ 0#21, BitVec.allOnes 11 ++ 0#21) := by
      rw [rowOf_pushs]
      decide
    rw [withOperand, Instr.pushs.injEq, hencode, hrow]
    exact eq_append_iff_masked (m := 11) w (0x10#8 ++ 0#3) sym
  case pushb byte =>
    have hencode : encode (.pushb byte) = (0x11#8 ++ 0#16) ++ byte := rfl
    have hrow : rowOf (.pushb byte) = ((0x11#8 ++ 0#16) ++ 0#8, BitVec.allOnes 24 ++ 0#8) := by
      rw [rowOf_pushb]
      decide
    rw [withOperand, Instr.pushb.injEq, hencode, hrow]
    exact eq_append_iff_masked (m := 24) w (0x11#8 ++ 0#16) byte
  all_goals exact eq_encode_iff_of_full_mask w rfl rfl rfl

/-! The decoder selects the row by the opcode and then checks the mask (R97). -/

theorem of_decode_eq_command {w : Word} {i : Instr} (h : decode w = .command i) :
    commandOfOpcode w = some i ∧ w &&& i.format.mask = (opcodeField w ++ 0#24 : Word) := by
  unfold decode at h
  split at h
  case h_1 => cases h
  case h_2 j hrow =>
    split at h
    case isTrue hmask => cases h; exact ⟨hrow, hmask⟩
    case isFalse => cases h

theorem commandOfOpcode_eq_some {w : Word} {i : Instr} (h : commandOfOpcode w = some i) :
    opcodeField w = opcodeOf i ∧ withOperand w i = i := by
  unfold commandOfOpcode at h
  split at h <;> cases h
  all_goals exact ⟨BitVec.eq_of_toNat_eq ‹_›, rfl⟩

/-- Settles O1: a decoded word meets the row of its command and holds its operand, so it is the command's encoding. -/
theorem decodeInvertsEncode : Obligations.DecodeInvertsEncode := by
  refine fun i w => ⟨fun h => ?_, fun h => h ▸ decode_encode i⟩
  obtain ⟨hsome, hmask⟩ := of_decode_eq_command h
  obtain ⟨hop, hoperand⟩ := commandOfOpcode_eq_some hsome
  exact (eq_encode_iff w i).2 ⟨by rwa [hop] at hmask, hoperand⟩

theorem decode_eq_command_iff (w : Word) (i : Instr) :
    decode w = .command i ↔ w &&& (rowOf i).2 = (rowOf i).1 ∧ withOperand w i = i :=
  (decodeInvertsEncode i w).trans (eq_encode_iff w i)

theorem decode_of_meets_row {w : Word} {i : Instr} (h : w &&& (rowOf i).2 = (rowOf i).1) :
    decode w = .command (withOperand w i) := by
  rw [decode_eq_command_iff, rowOf_withOperand]
  exact ⟨h, withOperand_withOperand w i⟩

theorem decode_illegal_iff (w : Word) : (∃ why, decode w = .illegal why) ↔ ∀ i, decode w ≠ .command i := by
  cases decode w <;> simp

/-- Settles O2: a command by its row, an illegal word by the rows being those of the commands. -/
theorem decoderFollowsTheTable : Obligations.DecoderFollowsTheTable := by
  intro w
  have hz (i : Instr) (hi : withOperand w i = i) : decode w = .command i ↔ w &&& (rowOf i).2 = (rowOf i).1 :=
    (decode_eq_command_iff w i).trans (and_iff_left hi)
  refine ⟨hz .nop rfl, hz .reset rfl, hz .clrerr rfl, fun sym => ?pushs, fun byte => ?pushb, hz .popb rfl,
    hz .pops rfl, hz .hcount rfl, hz .tbuild rfl, hz .cwalk rfl, hz .encode rfl, hz .pack rfl, hz .unpack rfl,
    hz .decode rfl, hz .hwrite rfl, hz .hread rfl, hz .compress rfl, hz .decompress rfl, ?illegal⟩
  case pushs =>
    rw [decode_eq_command_iff, rowOf_pushs, withOperand, Instr.pushs.injEq, eq_comm (a := symField w), symField]
  case pushb =>
    rw [decode_eq_command_iff, rowOf_pushb, withOperand, Instr.pushb.injEq, eq_comm (a := byteField w), byteField]
  case illegal =>
    rw [decode_illegal_iff]
    constructor
    · intro hno r hr hmeets
      obtain ⟨i, rfl⟩ := mem_opcodeRows_iff.1 hr
      exact hno _ (decode_of_meets_row hmeets)
    · intro hno i hi
      exact hno _ (mem_opcodeRows_iff.2 ⟨i, rfl⟩) ((decode_eq_command_iff w i).1 hi).1

/-- Settles O3: twelve of the words are their commands' encodings, the other two fail R97's two checks. -/
theorem sampleWordsDecode : Obligations.SampleWordsDecode :=
  ⟨decode_encode .nop, decode_encode .clrerr, decode_encode (.pushs 0x61), decode_encode (.pushb 0x1F),
    decode_encode .popb, decode_encode .hcount, decode_encode .tbuild, decode_encode .cwalk, decode_encode .pack,
    decode_encode .hread, decode_encode .compress, decode_encode .decompress, by decide, by decide⟩

end Sys2Proof.Machine

/-! PROOFS. NOP and the host data commands (40_host_data.md R110 to R114). -/

namespace Sys2Proof.Machine

/-! The command words with an operand, as an opcode and a zero-extended operand (30_encoding.md R94). -/

theorem eq_or_setWidth_of_toNat {n op : Nat} {w : Word} {x : BitVec n} (hn : n ≤ 24)
    (h : w.toNat = op * 2 ^ 24 + x.toNat) : w = BitVec.ofNat 32 (op * 2 ^ 24) ||| x.setWidth 32 := by
  have hw := w.isLt
  have hx : x.toNat < 2 ^ 24 := x.isLt.trans_le (Nat.pow_le_pow_right (by decide) hn)
  apply BitVec.eq_of_toNat_eq
  rw [BitVec.toNat_or, BitVec.toNat_ofNat, BitVec.toNat_setWidth, Nat.mod_eq_of_lt (by omega),
    Nat.mod_eq_of_lt (by omega), Nat.mul_comm, ← Nat.two_pow_add_eq_or_of_lt hx, h, Nat.mul_comm]

theorem encode_pushs (sym : Sym) : encode (.pushs sym) = 0x10000000 ||| sym.setWidth 32 :=
  eq_or_setWidth_of_toNat (by decide) (encode_pushs_toNat sym)

theorem encode_pushb (byte : Byte) : encode (.pushb byte) = 0x11000000 ||| byte.setWidth 32 :=
  eq_or_setWidth_of_toNat (by decide) (encode_pushb_toNat byte)

/-! How the bodies fault; `pushsBody_done` and its like say how they complete. -/

theorem pushsBody_not_scalar {cfg : Capacities} {x : Sym} {e : Engine} (hx : ¬ scalarValue x) :
    pushsBody cfg x e = .raise .symbol 0 :=
  if_neg (mt isScalar_iff.1 hx)

theorem pushsBody_full {cfg : Capacities} {x : Sym} {e : Engine} (hx : scalarValue x)
    (hroom : ¬ roomFor cfg.symIn (e.symIn.length + 1)) : pushsBody cfg x e = .raise .capacity 4 := by
  have hq : appendWithin cfg.symIn e.symIn [x] = none := appendWithin_eq_none.2 (not_roomFor_iff.1 hroom)
  rw [pushsBody, if_pos (isScalar_iff.2 hx), hq]

theorem pushbBody_full {cfg : Capacities} {x : Byte} {e : Engine}
    (hroom : ¬ roomFor cfg.byteIn (e.byteIn.length + 1)) : pushbBody cfg x e = .raise .capacity 4 := by
  have hq : appendWithin cfg.byteIn e.byteIn [x] = none := appendWithin_eq_none.2 (not_roomFor_iff.1 hroom)
  rw [pushbBody, hq]

theorem popbBody_empty {e : Engine} (h : e.byteOut = []) : popbBody e = .raise .empty 0 := by
  rw [popbBody, h]

theorem popsBody_empty {e : Engine} (h : e.symOut = []) : popsBody e = .raise .empty 0 := by
  rw [popsBody, h]

/-- Settles O11: the effect of NOP on the engine is the identity. -/
theorem nopChangesNothing : Obligations.NopChangesNothing := fun _ => rfl

/-- Settles O14: one clause per way the body ends, the symbol before the capacity. -/
theorem pushsAppendsOrFaults : Obligations.PushsAppendsOrFaults := by
  intro s sym he
  rw [← encode_pushs]
  refine ⟨fun hsym hroom => ?appends, fun hsym => ?symbol, fun hsym hroom => ?capacity⟩
  case appends => exact runCommand_done he (pushsBody_done.2 ⟨isScalar_iff.2 hsym, roomFor_iff.1 hroom, rfl⟩)
  case symbol => exact runCommand_raise he (pushsBody_not_scalar hsym)
  case capacity => exact runCommand_raise he (pushsBody_full hsym hroom)

/-- Settles O15: with room and without. -/
theorem pushbAppendsOrFaults : Obligations.PushbAppendsOrFaults := by
  intro s byte he
  rw [← encode_pushb]
  refine ⟨fun hroom => ?appends, fun hroom => ?capacity⟩
  case appends => exact runCommand_done he (pushbBody_done.2 ⟨roomFor_iff.1 hroom, rfl⟩)
  case capacity => exact runCommand_raise he (pushbBody_full hroom)

/-- Settles O16: with a byte in BYTE_OUT and without. -/
theorem popbDeliversTheOldestByte : Obligations.PopbDeliversTheOldestByte := fun _ he =>
  ⟨fun b rest hq => runCommand_done he (popbBody_done.2 ⟨b, rest, hq, rfl⟩),
    fun hq => runCommand_raise he (popbBody_empty hq)⟩

/-- Settles O17: with a symbol in SYM_OUT and without. -/
theorem popsDeliversTheOldestSymbol : Obligations.PopsDeliversTheOldestSymbol := fun _ he =>
  ⟨fun x rest hq => runCommand_done he (popsBody_done.2 ⟨x, rest, hq, rfl⟩),
    fun hq => runCommand_raise he (popsBody_empty hq)⟩

end Sys2Proof.Machine

/-! PROOFS. The histogram counter (41_frequency_counter.md R120 to R123). -/

namespace Sys2Proof.Machine

/-- The scan of a countable text ends with its histogram. -/
theorem countSymbols_of_countable {text : List Sym} (hc : countable text) :
    ∃ t, countSymbols [] text = .table t ∧ isHistogram text t ∧ t.length ≤ 65535 := by
  obtain ⟨t, ht⟩ := countSymbols_complete (xs := text) isHistogram_nil hc
  exact ⟨t, ht, countSymbols_table isHistogram_nil ht, countSymbols_bounds (by simp) ht⟩

/-- HCOUNT faults at the symbol after a countable text, for either of R120's two reasons. -/
theorem hcountBody_over {e : Engine} {text rest : List Sym} {x : Sym} {info : BitVec 8}
    (hin : e.symIn = text ++ x :: rest) (hc : countable text)
    (h : (x ∉ text ∧ text.eraseDups.length = nMax ∧ info = 1) ∨ (text.count x = countMax ∧ info = 3)) :
    hcountBody e = .raise .capacity info := by
  rw [hcountBody, hin, countSymbols_over rest hc h]

/-- Settles O18: HCOUNT installs the table that the scan of SYM_IN ends with. -/
theorem hcountMakesTheHistogram : Obligations.HcountMakesTheHistogram := by
  intro s he hc
  obtain ⟨t, ht, hhist, hlen⟩ := countSymbols_of_countable hc
  exact ⟨t, hhist, hlen, runCommand_done he (hcountBody_done.2 ⟨t, ht, rfl⟩)⟩

/-- Settles O19: the scan passes the countable text and stops at the symbol after it, for one of R120's two reasons. -/
theorem hcountFaultsAtTheLimits : Obligations.HcountFaultsAtTheLimits := by
  intro s text x rest he hin hc
  refine ⟨fun hnew hfull => ?symbols, fun hcount => ?count⟩
  case symbols => exact runCommand_raise he (hcountBody_over hin hc (.inl ⟨hnew, hfull, rfl⟩))
  case count => exact runCommand_raise he (hcountBody_over hin hc (.inr ⟨hcount, rfl⟩))

end Sys2Proof.Machine

/-! PROOFS. The order of TBUILD's merges, what the tree depends on, and that it is a cheapest one
(42_tree_builder.md R130, R132, R133, R137, R138, R142). -/

namespace Sys2Proof.Machine

/-- What a TBUILD that answers a next state leaves: the tree of FT, which is a forest of its entries. -/
theorem exec_tbuild_forest {s t : State} (he : s.eng.err = false) (hv : s.eng.ftv = true)
    (hn : s.eng.n.toNat = s.eng.ft.length) (hx : exec .tbuild s = .next t) : Forest s.eng.ft t.eng := by
  rw [exec_tbuild he hv hn] at hx
  cases hx
  exact buildTree_forest _ _ (by have := s.eng.n.isLt; omega)

/-- Settles O22: both halves are kept by every round, as `Forest.inner` and `Forest.least`. -/
theorem tbuildMergesTheLeastKeys : Obligations.TbuildMergesTheLeastKeys := by
  intro s t he hv hn hx k w l r hnode
  have hf := exec_tbuild_forest he hv hn hx
  obtain ⟨-, -, -, -, -, hlr⟩ := hf.inner k w l r hnode
  exact ⟨keyLess_iff.2 hlr, fun j hj hjl hjr hpar => keyLess_iff.2 (hf.least k w l r hnode j hj hjl hjr hpar)⟩

/-! Weights in the order of the merges (R142). -/

theorem weightAt_eq_weight {node : List Node} {k : NodeIdx} {x : Node} (h : node[k.toNat]? = some x) :
    weightAt node k = x.weight := by
  simp [weightAt, h]

theorem weightAt_le_of_keyLt {node : List Node} {a b : NodeIdx} (h : keyLt node a b = true) :
    (weightAt node a).toNat ≤ (weightAt node b).toNat := by
  rw [keyLt_iff] at h
  omega

/-- No node has two parents (10_state.md R48). -/
theorem Forest.parent_unique {t : List FreqEntry} {e : Engine} (hf : Forest t e) {p q j : Nat}
    (hp : isParentOf e.node p j) (hq : isParentOf e.node q j) : p = q := by
  have hj : j < e.node.length := by
    obtain ⟨w, l, r, hnode, hlr⟩ := hp
    have hlt := (List.getElem?_eq_some_iff.1 hnode).1
    obtain ⟨-, hl, hr, -⟩ := hf.inner p w l r hnode
    omega
  obtain ⟨p', -, huniq⟩ := hf.below j hj (fun k hk hkj => hf.top k hk p (hkj ▸ hp))
  rw [huniq p hp, huniq q hq]

/-- When node `j` was made, a child of a later node was passed over if it was there: it weighs at least as much as
the heavier child of `j`. -/
theorem Forest.right_le_later_child {t : List FreqEntry} {e : Engine} (hf : Forest t e) {j k : Nat} {w : Weight}
    {l r c : NodeIdx} (hj : e.node[j]? = some (.internal w l r)) (hjk : j < k) (hc : isParentOf e.node k c.toNat)
    (hcj : c.toNat < j) : (weightAt e.node r).toNat ≤ (weightAt e.node c).toNat := by
  have hne : ∀ d : NodeIdx, isParentOf e.node j d.toNat → c ≠ d := fun d hd hcd => by
    have := hf.parent_unique (hcd ▸ hc) hd
    omega
  refine weightAt_le_of_keyLt (hf.least j w l r hj c hcj (hne l ⟨w, l, r, hj, .inl rfl⟩)
    (hne r ⟨w, l, r, hj, .inr rfl⟩) fun p hp => ?_)
  have := hf.parent_unique hp hc
  omega

/-- Internal nodes do not lose weight from one to a later one: by induction on the later node `k`, either both of its
children were passed over when `j` was made, or one of them is `j` or was made after `j`. -/
theorem Forest.weights_mono {t : List FreqEntry} {e : Engine} (hf : Forest t e) {j : Nat} {w : Weight}
    {l r : NodeIdx} (hj : e.node[j]? = some (.internal w l r)) (k : Nat) {w' : Weight} {l' r' : NodeIdx}
    (hjk : j < k) (hk : e.node[k]? = some (.internal w' l' r')) : w.toNat ≤ w'.toNat := by
  induction k using Nat.strong_induction_on generalizing w' l' r' with
  | _ k ih =>
    obtain ⟨hlow, -, -, -, hw, hlr⟩ := hf.inner j w l r hj
    obtain ⟨-, hl', hr', -, hw', -⟩ := hf.inner k w' l' r' hk
    have hkl : k < e.node.length := (List.getElem?_eq_some_iff.1 hk).1
    have hlater : ∀ c : NodeIdx, c.toNat < k → j ≤ c.toNat → w.toNat ≤ (weightAt e.node c).toNat := by
      intro c hck hjc
      obtain ⟨v, a, b, hc⟩ := hf.upper c.toNat (by omega) (by omega)
      rw [weightAt_eq_weight hc]
      rcases Nat.eq_or_lt_of_le hjc with rfl | hlt
      · rw [hj] at hc
        cases hc
        exact le_rfl
      · exact ih c.toNat hck hlt hc
    by_cases hchild : j ≤ l'.toNat ∨ j ≤ r'.toNat
    · rcases hchild with hjl | hjr
      · have := hlater l' hl' hjl
        omega
      · have := hlater r' hr' hjr
        omega
    · have hleft := weightAt_le_of_keyLt hlr
      have hpassed := hf.right_le_later_child hj hjk ⟨w', l', r', hk, .inl rfl⟩ (by omega)
      have hpassed' := hf.right_le_later_child hj hjk ⟨w', l', r', hk, .inr rfl⟩ (by omega)
      omega

/-- Settles O23: the forest TBUILD leaves has the weights of its merges in order. -/
theorem internalWeightsNeverFall : Obligations.InternalWeightsNeverFall := by
  intro s t he hv hn hx j k w w' l r l' r' hjk hj hk
  exact (exec_tbuild_forest he hv hn hx).weights_mono hj k hjk hk

/-! The shape of the tree (R137): TBUILD on a table without its symbols is TBUILD on the table, its arena then without
symbols. -/

/-- A table entry without its symbol. -/
def entryWithoutSym (r : FreqEntry) : FreqEntry := { r with sym := 0 }

/-- The engine with an arena without symbols. -/
def arenaWithoutSyms (e : Engine) : Engine := { e with node := e.node.map withoutSym }

@[simp] theorem arenaWithoutSyms_node (e : Engine) : (arenaWithoutSyms e).node = e.node.map withoutSym := rfl
@[simp] theorem arenaWithoutSyms_pq (e : Engine) : (arenaWithoutSyms e).pq = e.pq := rfl

@[simp] theorem withoutSym_weight (x : Node) : (withoutSym x).weight = x.weight := by
  cases x <;> rfl

@[simp] theorem weightAt_withoutSym (node : List Node) (k : NodeIdx) :
    weightAt (node.map withoutSym) k = weightAt node k := by
  unfold weightAt
  rw [List.getElem?_map]
  cases node[k.toNat]? with
  | none => rfl
  | some x => exact withoutSym_weight x

@[simp] theorem keyLt_withoutSym (node : List Node) (a b : NodeIdx) :
    keyLt (node.map withoutSym) a b = keyLt node a b := by
  simp [keyLt]

@[simp] theorem pqLeast_withoutSym (node : List Node) (best : NodeIdx) (q : List NodeIdx) :
    pqLeast (node.map withoutSym) best q = pqLeast node best q := by
  induction q generalizing best with
  | nil => rfl
  | cons x q ih => simp [pqLeast, ih]

@[simp] theorem pqExtractMin_withoutSym (node : List Node) (q : List NodeIdx) :
    pqExtractMin (node.map withoutSym) q = pqExtractMin node q := by
  cases q with
  | nil => rfl
  | cons x q => simp [pqExtractMin]

theorem addNode_withoutSym (x : Node) (e : Engine) :
    addNode (withoutSym x) (arenaWithoutSyms e) = arenaWithoutSyms (addNode x e) := by
  simp [addNode, arenaWithoutSyms]

theorem addLeaves_withoutSyms (t : List FreqEntry) (e : Engine) :
    addLeaves (t.map entryWithoutSym) (arenaWithoutSyms e) = arenaWithoutSyms (addLeaves t e) := by
  induction t generalizing e with
  | nil => rfl
  | cons r t ih =>
    calc addLeaves (t.map entryWithoutSym) (addNode (withoutSym (leafOf r)) (arenaWithoutSyms e))
        = addLeaves (t.map entryWithoutSym) (arenaWithoutSyms (addNode (leafOf r) e)) := by rw [addNode_withoutSym]
      _ = arenaWithoutSyms (addLeaves t (addNode (leafOf r) e)) := ih _

theorem mergeNodes_withoutSyms (a b : NodeIdx) (e : Engine) :
    mergeNodes a b (arenaWithoutSyms e) = arenaWithoutSyms (mergeNodes a b e) := by
  unfold mergeNodes
  rw [← addNode_withoutSym, arenaWithoutSyms_node, weightAt_withoutSym, weightAt_withoutSym]
  rfl

theorem mergeRound_withoutSyms (e : Engine) :
    mergeRound (arenaWithoutSyms e) = (mergeRound e).map arenaWithoutSyms := by
  simp only [mergeRound, arenaWithoutSyms_node, arenaWithoutSyms_pq, pqExtractMin_withoutSym]
  cases pqExtractMin e.node e.pq with
  | none => rfl
  | some p =>
    cases h : pqExtractMin e.node p.2 with
    | none => simp [h]
    | some q =>
      simp only [h]
      exact congrArg some (mergeNodes_withoutSyms p.1 q.1 { e with pq := q.2 })

theorem mergeAll_withoutSyms (k : Nat) (e : Engine) :
    mergeAll k (arenaWithoutSyms e) = arenaWithoutSyms (mergeAll k e) := by
  induction k generalizing e with
  | zero => rfl
  | succ k ih =>
    simp only [mergeAll, mergeRound_withoutSyms]
    cases mergeRound e with
    | none => rfl
    | some e' => exact ih e'

theorem setRoot_withoutSyms (e : Engine) : setRoot (arenaWithoutSyms e) = arenaWithoutSyms (setRoot e) := by
  simp only [setRoot, arenaWithoutSyms_pq]
  split <;> rfl

theorem buildTree_withoutSyms (t : List FreqEntry) (e : Engine) :
    buildTree (t.map entryWithoutSym) (arenaWithoutSyms e) = arenaWithoutSyms (buildTree t e) := by
  have hclear : clearCodeTable (clearTree (arenaWithoutSyms e)) = arenaWithoutSyms (clearCodeTable (clearTree e)) := rfl
  rw [buildTree, buildTree, hclear, List.length_map, addLeaves_withoutSyms, mergeAll_withoutSyms, setRoot_withoutSyms]

theorem map_entryWithoutSym_of_counts {t t' : List FreqEntry} (h : t.map FreqEntry.count = t'.map FreqEntry.count) :
    t.map entryWithoutSym = t'.map entryWithoutSym := by
  have hcount : ∀ t : List FreqEntry, t.map entryWithoutSym = (t.map FreqEntry.count).map (FreqEntry.mk 0) := by
    simp [entryWithoutSym, Function.comp_def]
  rw [hcount, h, ← hcount]

/-- The shape depends on the counts alone, whatever the two engines held before. -/
theorem buildTree_shape {t t' : List FreqEntry} (h : t.map FreqEntry.count = t'.map FreqEntry.count)
    (a b : Engine) : (buildTree t a).node.map withoutSym = (buildTree t' b).node.map withoutSym := by
  obtain ⟨hnode, -⟩ := buildTree_same (t.map entryWithoutSym) (arenaWithoutSyms a) (arenaWithoutSyms b)
  rwa [buildTree_withoutSyms, map_entryWithoutSym_of_counts h, buildTree_withoutSyms] at hnode

/-- Settles O24: the shape by the tables without their symbols, the rest by `buildTree_same`. -/
theorem treeDependsOnTheTableAlone : Obligations.TreeDependsOnTheTableAlone := by
  intro s s' he he' hv hv' hn hn' hcounts
  refine ⟨_, _, exec_tbuild he hv hn, exec_tbuild he' hv' hn', buildTree_shape hcounts _ _, fun hft => ?_⟩
  rw [← hft]
  exact buildTree_same _ _ _

/-! The cost of the tree in the code table (R138, 43_code_table.md R151). -/

/-- The length of the code of entry `i`, 0 off the table. -/
def codeLengthAt (ct : List CodeEntry) (i : Nat) : Nat :=
  match ct[i]? with
  | some c => c.code.length
  | none => 0

theorem zipWith_lengths_eq_range {t : List FreqEntry} {ct : List CodeEntry} (h : ct.length = t.length) :
    List.zipWith (fun r c => r.count.toNat * c.code.length) t ct =
      (List.range t.length).map (fun i => countAt t i * codeLengthAt ct i) := by
  apply List.ext_getElem (by simp [h])
  intro i hi _
  obtain ⟨hit, hic⟩ : i < t.length ∧ i < ct.length := by simpa using hi
  simp [countAt, codeLengthAt, hit, hic]

/-- A tree costs the sum of count times code length, where the table binds every leaf to its path. -/
theorem HTree.cost_eq_code_lengths {t : List FreqEntry} {ct : List CodeEntry} {tree : HTree}
    (hlen : ct.length = t.length) (hleaves : tree.leaves.Perm (List.range t.length))
    (hbound : ∀ p ∈ tree.paths, ∃ r, t[p.1]? = some r ∧ ct[p.1]? = some ⟨r.sym, p.2⟩) :
    tree.cost t = (List.zipWith (fun r c => r.count.toNat * c.code.length) t ct).sum := by
  have hpath : ∀ p ∈ tree.paths, countAt t p.1 * p.2.length = countAt t p.1 * codeLengthAt ct p.1 := by
    intro p hp
    obtain ⟨r, -, hc⟩ := hbound p hp
    simp [codeLengthAt, hc]
  calc tree.cost t
      = (tree.paths.map (fun p => countAt t p.1 * p.2.length)).sum := by
        rw [HTree.cost, HTree.depths_eq_paths, List.map_map]; rfl
    _ = (tree.leaves.map (fun i => countAt t i * codeLengthAt ct i)).sum := by
        rw [List.map_congr_left hpath, ← HTree.paths_fst, List.map_map]; rfl
    _ = ((List.range t.length).map (fun i => countAt t i * codeLengthAt ct i)).sum := (hleaves.map _).sum_eq
    _ = _ := by rw [zipWith_lengths_eq_range hlen]

/-- The tree under the root of a sound engine costs the least of all trees over the table's leaves. -/
theorem sound_cheapest {e : Engine} (h : EngineSound e) (ht : e.treev = true) (hne : e.ft ≠ []) {tree : HTree}
    (hrep : Rep e.node e.root.toNat tree) {other : HTree} (ho : other.leaves.Perm (List.range e.ft.length)) :
    tree.cost e.ft ≤ other.cost e.ft := by
  obtain ⟨hlen, -⟩ := sound_tree h ht
  obtain ⟨-, -, -, ⟨hsame, -⟩, -⟩ := h
  obtain ⟨hnode, -, hroot, -⟩ := hsame ht
  obtain ⟨cheapest, hbuilt, hleast⟩ := buildTree_cheapest e.ft Engine.reset hlen hne
  rw [hnode, hroot] at hrep
  exact hrep.unique hbuilt ▸ hleast other ho

/-- Settles O29: the code lengths are the depths of the tree TBUILD made, which is a cheapest one. -/
theorem treeIsOptimal : Obligations.TreeIsOptimal := by
  intro e h hc other ho
  by_cases hne : e.ft = []
  · simp [hne]
  · obtain ⟨tree, hlen, hrep, hleaves, hbound, -⟩ := (sound_codes h hc).2 hne
    have ⟨_, _, _, _, _, ⟨hchain, _⟩, _⟩ := h
    rw [← HTree.cost_eq_code_lengths hlen hleaves hbound]
    exact sound_cheapest h (hchain hc) hne hrep ho

end Sys2Proof.Machine

/-! PROOFS. The code table: what CWALK binds, the codes of two or more symbols, and the lookups (43_code_table.md R150,
R153 to R156, R158). -/

namespace Sys2Proof.Machine

/-! What CWALK completes with, and how it faults. -/

/-- Every leaf has a path. -/
theorem HTree.exists_path {tree : HTree} {i : Nat} (hi : i ∈ tree.leaves) : ∃ code, (i, code) ∈ tree.paths := by
  rw [← HTree.paths_fst] at hi
  obtain ⟨p, hp, rfl⟩ := List.mem_map.1 hi
  exact ⟨p.2, hp⟩

/-- `Rep.follow` with the leaf's index as a word. -/
theorem Rep.followPath_eq {node : List Node} {k : NodeIdx} {tree : HTree} (h : Rep node k.toNat tree) {i : Nat}
    {code : Bits} (hp : (i, code) ∈ tree.paths) : followPath node k code = some (BitVec.ofNat 17 i) := by
  obtain ⟨j, hj, rfl⟩ := h.follow hp
  rw [hj, BitVec.ofNat_toNat, BitVec.setWidth_eq]

/-- Entry `i` of the code table of a valid tree has the symbol of entry `i` of FT and a path from ROOT to leaf `i`,
which is shorter than FT. -/
theorem codesOfTree_entries {e : Engine} (h : EngineSound e) (ht : e.treev = true) :
    ∃ ct, codesOfTree e = some ct ∧ ct.length = e.ft.length ∧
      ∀ (i : Nat) (r : FreqEntry), e.ft[i]? = some r → ∃ code, ct[i]? = some ⟨r.sym, code⟩ ∧
        followPath e.node e.root code = some (BitVec.ofNat 17 i) ∧ code.length < e.ft.length := by
  by_cases hne : e.ft = []
  · obtain ⟨-, -, -, hempty⟩ := sound_tree h ht
    obtain ⟨hn, hrootv⟩ := hempty hne
    exact ⟨[], codesOfTree_empty hrootv hn, by simp [hne], by simp [hne]⟩
  · obtain ⟨ct, tree, hct, hlen, hrep, hleaves, hbound⟩ := sound_walk h ht hne
    refine ⟨ct, hct, hlen, fun i r hr => ?_⟩
    have hi : i ∈ tree.leaves := by
      rw [hleaves.mem_iff, List.mem_range]
      exact (List.getElem?_eq_some_iff.1 hr).1
    obtain ⟨code, hp⟩ := HTree.exists_path hi
    obtain ⟨r', hr', hslot⟩ := hbound _ hp
    obtain rfl : r = r' := Option.some.inj (hr.symm.trans hr')
    have hshort : code.length + 1 ≤ tree.leaves.length := HTree.path_length hp
    rw [hleaves.length_eq, List.length_range] at hshort
    exact ⟨code, hslot, hrep.followPath_eq hp, hshort⟩

theorem cwalkBody_no_tree {e : Engine} (h : e.treev = false) : cwalkBody e = .raise .seq 0 := by
  simp [cwalkBody, h]

/-- Settles O25: the walk of a valid tree, whose one path is empty where FT has one entry, and the body without a
tree. -/
theorem cwalkBindsThePaths : Obligations.CwalkBindsThePaths := by
  intro s h he
  refine ⟨fun htree => ?binds, fun htree => ?fault⟩
  case binds =>
    obtain ⟨ct, hct, hlen, hentry⟩ := codesOfTree_entries h htree
    refine ⟨ct, runCommand_done he (cwalkBody_done.2 ⟨htree, ct, hct, rfl⟩), hlen, fun r hone => ?_, fun i r hr => ?_⟩
    · obtain ⟨code, hslot, -, hshort⟩ := hentry 0 r (by simp [hone])
      rw [hone] at hlen hshort
      obtain ⟨c, rfl⟩ := List.length_eq_one_iff.1 hlen
      obtain rfl : code = [] := List.length_eq_zero_iff.1 (Nat.lt_one_iff.1 hshort)
      rw [Option.some.inj hslot]
    · obtain ⟨code, hslot, hfollow, -⟩ := hentry i r hr
      exact ⟨code, hslot, hfollow⟩
  case fault => exact runCommand_raise he (cwalkBody_no_tree htree)

/-! The codes of two or more symbols are the paths of a tree with N leaves. -/

/-- Entry `i` of the code table has the path of leaf `i`, and every path of the tree is an entry's code (R151). -/
theorem sound_code_tree {e : Engine} (h : EngineSound e) (hc : e.ctv = true) (hn : 2 ≤ e.n.toNat) :
    ∃ tree : HTree, tree.leaves.length = e.n.toNat ∧
      ∀ (i : Nat) (code : Bits), (i, code) ∈ tree.paths ↔ ∃ c, e.ct[i]? = some c ∧ c.code = code := by
  obtain ⟨-, hcodes⟩ := sound_codes h hc
  have ⟨_, _, ⟨hlen, _⟩, _⟩ := h
  have hne : e.ft ≠ [] := by
    intro h0
    rw [h0, List.length_nil] at hlen
    omega
  obtain ⟨tree, -, -, hleaves, hbound, hpath⟩ := hcodes hne
  refine ⟨tree, by rw [hleaves.length_eq, List.length_range, hlen], fun i code => ⟨fun hp => ?_, ?_⟩⟩
  · obtain ⟨r, -, hslot⟩ := hbound _ hp
    exact ⟨_, hslot, rfl⟩
  · rintro ⟨c, hi, rfl⟩
    exact (hpath i c hi).1

/-- Settles O26: a path of the tree is not empty and no prefix of another leaf's path. -/
theorem codesArePrefixFree : Obligations.CodesArePrefixFree := by
  intro e h hc hn i j a b ha hb
  obtain ⟨tree, hlen, hpath⟩ := sound_code_tree h hc hn
  have hpa : (i, a.code) ∈ tree.paths := (hpath i a.code).2 ⟨a, ha, rfl⟩
  have hpb : (j, b.code) ∈ tree.paths := (hpath j b.code).2 ⟨b, hb, rfl⟩
  refine ⟨HTree.path_ne_nil hpa (hlen ▸ hn), fun hij hprefix => hij ?_⟩
  exact congrArg Prod.fst (HTree.paths_prefix hpa hpb hprefix)

/-- Settles O27: a path of a tree with N leaves is not empty and shorter than N. -/
theorem codeLengthsAreBounded : Obligations.CodeLengthsAreBounded := by
  intro e h hc hn c hcm
  obtain ⟨tree, hlen, hpath⟩ := sound_code_tree h hc hn
  obtain ⟨i, hi⟩ := List.mem_iff_getElem?.1 hcm
  have hp : (i, c.code) ∈ tree.paths := (hpath i c.code).2 ⟨c, hi, rfl⟩
  have hpos : 0 < c.code.length := List.length_pos_iff.2 (HTree.path_ne_nil hp (hlen ▸ hn))
  have hshort : c.code.length + 1 ≤ tree.leaves.length := HTree.path_length hp
  omega

/-! The bit sequences that begin with a path (R158). -/

/-- Of two bitstrings that one sequence begins with, the shorter is a prefix of the longer. -/
theorem prefix_of_beginnings {bit : Nat → Bool} {a b : Bits} (hlen : a.length ≤ b.length)
    (ha : ∀ i, i < a.length → a[i]? = some (bit i)) (hb : ∀ i, i < b.length → b[i]? = some (bit i)) : a <+: b := by
  rw [List.prefix_iff_getElem?]
  intro i hi
  rw [hb i (hi.trans_le hlen), ← ha i hi, List.getElem?_eq_getElem hi]

/-- A sequence begins with the path of one leaf only. -/
theorem HTree.path_of_bits_unique {tree : HTree} {bit : Nat → Bool} {p q : Nat × Bits} (hp : p ∈ tree.paths)
    (hq : q ∈ tree.paths) (hpb : ∀ i, i < p.2.length → p.2[i]? = some (bit i))
    (hqb : ∀ i, i < q.2.length → q.2[i]? = some (bit i)) : p = q := by
  rcases Nat.le_total p.2.length q.2.length with hle | hle
  · exact HTree.paths_prefix hp hq (prefix_of_beginnings hle hpb hqb)
  · exact (HTree.paths_prefix hq hp (prefix_of_beginnings hle hqb hpb)).symm

/-- Settles O28: the path down the tree that the sequence leads, and no other path of the tree. -/
theorem everyBitSequenceBeginsWithOneCode : Obligations.EveryBitSequenceBeginsWithOneCode := by
  intro e h hc hn bit
  obtain ⟨tree, -, hpath⟩ := sound_code_tree h hc hn
  obtain ⟨⟨i, code⟩, hp, hbegins⟩ := tree.path_of_bits bit
  obtain ⟨c, hi, rfl⟩ := (hpath i code).1 hp
  refine ⟨c, List.mem_of_getElem? hi, hbegins, fun d hd hdbegins => ?_⟩
  obtain ⟨j, hj⟩ := List.mem_iff_getElem?.1 hd
  have hq : (j, d.code) ∈ tree.paths := (hpath j d.code).2 ⟨d, hj, rfl⟩
  exact congrArg Prod.snd (HTree.path_of_bits_unique hq hp hdbegins hbegins)

/-- Settles O30: an entry is found as symbols and paths are distinct, and what is found is an entry. -/
theorem lookupsAreInverse : Obligations.LookupsAreInverse := fun _ h hc =>
  ⟨sound_lookups h hc, fun _ => enc_none.2, fun _ => dec_none.2⟩

end Sys2Proof.Machine

/-! PROOFS. The bit packer: what PACK appends, what UNPACK strips, and how each undoes the other (44_bit_packer.md R160,
R161, R163). -/

namespace Sys2Proof.Machine

/-! How the bodies fault; `packBody_done` and `unpackBody_done` say how they complete. -/

theorem packBody_no_bits {cfg : Capacities} {e : Engine} (h : e.bitsv = false) : packBody cfg e = .raise .seq 0 := by
  simp [packBody, h]

theorem packBody_full {cfg : Capacities} {e : Engine} (h : e.bitsv = true)
    (hroom : ¬ roomFor cfg.byteOut (e.byteOut.length + (packBits e.bits).length)) :
    packBody cfg e = .raise .capacity 4 := by
  have hq : appendWithin cfg.byteOut e.byteOut (packBits e.bits) = none :=
    appendWithin_eq_none.2 (not_roomFor_iff.1 hroom)
  rw [packBody, if_pos h, hq]

theorem unpackBody_empty {cfg : Capacities} {e : Engine} (h : e.byteIn = []) :
    unpackBody cfg e = .raise .format 6 := by
  rw [unpackBody, h]

theorem unpackBody_bad_count {cfg : Capacities} {e : Engine} {p : Byte} {rest : List Byte}
    (hin : e.byteIn = p :: rest) (hp : p.toNat < 1 ∨ 8 < p.toNat) : unpackBody cfg e = .raise .format 7 := by
  simp only [unpackBody, hin, if_pos hp]

/-- With a count in 1 to 8, the two tests that are left decide how the body ends. -/
theorem unpackBody_good_count {cfg : Capacities} {e : Engine} {p : Byte} {rest : List Byte}
    (hin : e.byteIn = p :: rest) (hlo : 1 ≤ p.toNat) (hhi : p.toNat ≤ 8) :
    unpackBody cfg e =
      if 8 * rest.length < p.toNat then .raise .format 6
      else if fits cfg.bits (8 * rest.length - p.toNat) then
        .done { e with
          bits := (bitsOfBytes rest).take (8 * rest.length - p.toNat), bitsv := true
          pad := p.setWidth 4, byteIn := [] }
      else .raise .capacity 4 := by
  have hp : ¬ (p.toNat < 1 ∨ 8 < p.toNat) := by omega
  simp only [unpackBody, hin, if_neg hp, bitsOfBytes_length]

/-- Settles O36: the payload section is `packBits`, which BYTE_OUT has room for or not. -/
theorem packAppendsThePayloadSection : Obligations.PackAppendsThePayloadSection := by
  intro s he
  refine ⟨fun hv => ⟨packBits s.eng.bits, isPayloadSection_iff.2 rfl, packBits_length _, fun hroom => ?appends,
    fun hroom => ?capacity⟩, fun hv => ?noBits⟩
  case appends => exact runCommand_done he (packBody_done.2 ⟨hv, roomFor_iff.1 hroom, rfl⟩)
  case capacity => exact runCommand_raise he (packBody_full hv hroom)
  case noBits => exact runCommand_raise he (packBody_no_bits hv)

/-- Settles O37: one clause per way the body ends, in the order of its tests. -/
theorem unpackStripsThePadding : Obligations.UnpackStripsThePadding := by
  intro s he
  refine ⟨fun hin => runCommand_raise he (unpackBody_empty hin), fun p rest hin =>
    ⟨fun hp => runCommand_raise he (unpackBody_bad_count hin hp), fun hlo hhi hrest => ?alone,
      fun hlo hhi hrest => ?payload⟩⟩
  case alone =>
    have hshort : 8 * rest.length < p.toNat := by rw [hrest, List.length_nil]; omega
    exact runCommand_raise he ((unpackBody_good_count hin hlo hhi).trans (if_pos hshort))
  case payload =>
    have hpos : 0 < rest.length := List.length_pos_iff.2 hrest
    have hbody := (unpackBody_good_count (cfg := s.cfg) hin hlo hhi).trans (if_neg (by omega))
    exact ⟨fun hroom => runCommand_done he (hbody.trans (if_pos (roomFor_iff.1 hroom))),
      fun hroom => runCommand_raise he (hbody.trans (if_neg (mt roomFor_iff.2 hroom)))⟩

/-! What UNPACK reads of a payload section, and what PACK makes of UNPACK's bits. -/

theorem exec_pack_byteOut {s t : State} (h : exec .pack s = .next t) (hs : s.eng.err = false)
    (ht : t.eng.err = false) : t.eng.byteOut = s.eng.byteOut ++ packBits s.eng.bits ∧
      t.eng.pad = BitVec.ofNat 4 (paddingOf s.eng.bits.length) := by
  obtain ⟨-, -, hpack⟩ := packBody_done.1 (exec_completed h hs ht)
  rw [hpack]
  exact ⟨rfl, rfl⟩

/-- The filler of the bits that are left when `p` are cut off whole bytes is `p` again. -/
theorem paddingOf_cut {n p : Nat} (hlo : 1 ≤ p) (hhi : p ≤ 8) (hle : p ≤ 8 * n) : paddingOf (8 * n - p) = p := by
  unfold paddingOf; omega

/-- UNPACK of the payload section of `b` completes with `b` and its padding count. -/
theorem unpackBody_packBits {cfg : Capacities} {e : Engine} {b : Bits} (hin : e.byteIn = packBits b)
    (hroom : fits cfg.bits b.length = true) :
    unpackBody cfg e = .done { e with
      bits := b, bitsv := true, pad := BitVec.ofNat 4 (paddingOf b.length), byteIn := [] } := by
  obtain ⟨hlo, hhi⟩ := paddingOf_bounds b.length
  have hcount : (BitVec.ofNat 8 (paddingOf b.length)).toNat = paddingOf b.length := by
    rw [BitVec.toNat_ofNat]; omega
  have hpad : (BitVec.ofNat 8 (paddingOf b.length)).setWidth 4 = BitVec.ofNat 4 (paddingOf b.length) := by
    apply BitVec.eq_of_toNat_eq; rw [BitVec.toNat_setWidth, hcount, BitVec.toNat_ofNat]
  refine unpackBody_done.2 ⟨_, _, hin.trans (packBits_eq b), ?_⟩
  rw [bitsOfBytes_payload, hcount, hpad]
  simpa using ⟨hlo, hhi, hroom⟩

/-- PACK of `p` bits less than `rest` gives `p` and `rest` again exactly when the cut bits were zeros. -/
theorem packBits_take_eq_iff {p : Byte} {rest : List Byte} (hlo : 1 ≤ p.toNat) (hhi : p.toNat ≤ 8)
    (hle : p.toNat ≤ 8 * rest.length) :
    packBits ((bitsOfBytes rest).take (8 * rest.length - p.toNat)) = p :: rest ↔
      (bitsOfBytes rest).drop (8 * rest.length - p.toNat) = List.replicate p.toNat false := by
  set kept := (bitsOfBytes rest).take (8 * rest.length - p.toNat) with hkept
  set cut := (bitsOfBytes rest).drop (8 * rest.length - p.toNat)
  have hpad : paddingOf kept.length = p.toNat := by
    rw [hkept, List.length_take, bitsOfBytes_length, min_eq_left (Nat.sub_le _ _), paddingOf_cut hlo hhi hle]
  have hsplit : bitsOfBytes rest = kept ++ cut := (List.take_append_drop _ _).symm
  have hbytes : bitsOfBytes (bytesOfBits (kept ++ List.replicate p.toNat false)) =
      kept ++ List.replicate p.toNat false := hpad ▸ bitsOfBytes_payload kept
  calc packBits kept = p :: rest
      ↔ bytesOfBits (kept ++ List.replicate p.toNat false) = rest := by
        rw [packBits_eq, hpad, BitVec.ofNat_toNat, BitVec.setWidth_eq, List.cons.injEq, and_iff_right rfl]
    _ ↔ kept ++ List.replicate p.toNat false = bitsOfBytes rest :=
        ⟨fun h => hbytes.symm.trans (congrArg bitsOfBytes h), fun h => bitsOfBytes_inj (hbytes.trans h)⟩
    _ ↔ cut = List.replicate p.toNat false := by
        rw [hsplit, List.append_cancel_left_eq, eq_comm]

/-- Settles O38: PACK appends `packBits`, which UNPACK reads back; PACK of UNPACK's bits by what the cut bits were. -/
theorem unpackInvertsPack : Obligations.UnpackInvertsPack := by
  refine ⟨?unpackOfPack, ?packOfUnpack⟩
  case unpackOfPack =>
    intro s t u y hs hpack ht hout hu hin hroom
    obtain ⟨hbytes, hpad⟩ := exec_pack_byteOut hpack hs ht
    obtain rfl : y = packBits s.eng.bits := List.append_cancel_left (hout.symm.trans hbytes)
    exact ⟨_, runCommand_done hu (unpackBody_packBits hin (roomFor_iff.1 hroom)), hu, rfl, hpad.symm⟩
  case packOfUnpack =>
    intro s t u v p rest hs hin hunpack ht hu _ hbits hpack hv
    obtain ⟨hbytes, -⟩ := exec_pack_byteOut hpack hu hv
    obtain ⟨p', rest', hin', hlo, hhi, hle, -, hdone⟩ := unpackBody_done.1 (exec_completed hunpack hs ht)
    obtain ⟨rfl, rfl⟩ := List.cons.inj (hin.symm.trans hin')
    rw [bitsOfBytes_length] at hle hdone
    rw [hbytes, hbits, hdone, List.append_cancel_left_eq]
    exact packBits_take_eq_iff hlo hhi hle

end Sys2Proof.Machine

/-! PROOFS. The header: what HWRITE appends, what HREAD takes and each defect it reports, and how HREAD undoes HWRITE
(45_header_codec.md R170 to R174). -/

namespace Sys2Proof.Machine

/-! How HWRITE's body ends. -/

theorem headerOf_iff_isHeader {t : List FreqEntry} {n : BitVec 16} (hn : n.toNat = t.length) {h : List Byte} :
    headerOf n t = some h ↔ isHeader t h := by
  rw [isHeader_iff, ← hn, BitVec.ofNat_toNat, BitVec.setWidth_eq]

theorem isHeader_complete {t : List FreqEntry} (hs : ∀ r ∈ t, isScalar r.sym = true) : ∃ h, isHeader t h := by
  obtain ⟨entries, he⟩ := headerEntries_complete hs
  exact ⟨_, entries, isEntries_iff.2 he, rfl⟩

theorem hwriteBody_no_table {cfg : Capacities} {e : Engine} (h : e.ftv = false) :
    hwriteBody cfg e = .raise .seq 0 := by
  simp [hwriteBody, h]

section Hwrite
variable {cfg : Capacities} {e : Engine} {h : List Byte} (hv : e.ftv = true) (hn : e.n.toNat = e.ft.length)
  (hh : isHeader e.ft h)
include hv hn hh

theorem hwriteBody_fits (hroom : roomFor cfg.byteOut (e.byteOut.length + h.length)) :
    hwriteBody cfg e = .done { e with byteOut := e.byteOut ++ h } :=
  hwriteBody_done.2 ⟨hv, e.ft, h, tableEntries_eq_some hn, (headerOf_iff_isHeader hn).2 hh, roomFor_iff.1 hroom, rfl⟩

theorem hwriteBody_full (hroom : ¬ roomFor cfg.byteOut (e.byteOut.length + h.length)) :
    hwriteBody cfg e = .raise .capacity 4 := by
  have hq : appendWithin cfg.byteOut e.byteOut h = none := appendWithin_eq_none.2 (not_roomFor_iff.1 hroom)
  simp only [hwriteBody, hv, if_true, tableEntries_eq_some hn, (headerOf_iff_isHeader hn).2 hh, hq]

end Hwrite

/-- Settles O42: the header exists because the symbols are scalar values, and BYTE_OUT has room for it or not. -/
theorem hwriteAppendsTheHeader : Obligations.HwriteAppendsTheHeader := by
  intro s he hn hs
  refine ⟨fun hv => ?table, fun hv => runCommand_raise he (hwriteBody_no_table hv)⟩
  case table =>
    obtain ⟨h, hh⟩ := isHeader_complete hs
    exact ⟨h, hh, fun hroom => runCommand_done he (hwriteBody_fits hv hn hh hroom),
      fun hroom => runCommand_raise he (hwriteBody_full hv hn hh hroom)⟩

/-! How HREAD's body ends, by what the parser makes of the bytes after the N field. -/

theorem hreadBody_short {e : Engine} (h : e.byteIn.length < 2) : hreadBody e = .raise .format 1 := by
  unfold hreadBody
  split
  · rename_i y0 y1 y hin
    simp [hin] at h
  · rfl

theorem hreadBody_table {e : Engine} {n : BitVec 16} {y rest : List Byte} {t : List FreqEntry}
    (hin : e.byteIn = be16 n ++ y) (hp : parseEntries n.toNat [] y = .table t rest) :
    hreadBody e = .done (installTable t n { e with byteIn := rest }) :=
  hreadBody_done.2 ⟨_, _, y, t, rest, hin, by rwa [fromBe16_be16], by rw [fromBe16_be16]⟩

theorem hreadBody_bad {e : Engine} {n : BitVec 16} {y : List Byte} {info : BitVec 8}
    (hin : e.byteIn = be16 n ++ y) (hp : parseEntries n.toNat [] y = .bad info) :
    hreadBody e = .raise .format info := by
  simp [hreadBody, hin, be16, fromBe16_be16, hp]

/-- HREAD of the header of a legal table completes with that table, whatever follows the header. -/
theorem hreadBody_header {e : Engine} {t : List FreqEntry} {h tail : List Byte} (ht : ValidTable t)
    (hh : isHeader t h) (hin : e.byteIn = h ++ tail) :
    hreadBody e = .done (installTable t (BitVec.ofNat 16 t.length) { e with byteIn := tail }) := by
  obtain ⟨hent, hnodup, hlen⟩ := ht
  obtain ⟨entries, hentries, rfl⟩ := hh
  have hn : (BitVec.ofNat 16 t.length).toNat = t.length := by rw [BitVec.toNat_ofNat]; omega
  refine hreadBody_table (y := entries ++ tail) (by rw [hin, List.append_assoc]) ?_
  rw [hn]
  exact parseEntries_header (t0 := []) (isEntries_iff.1 hentries) hnodup fun r hr => (hent r hr).2

/-! The defects of one entry, after a table `t` of good ones (R171). -/

theorem any_sym_iff {t : List FreqEntry} {x : Sym} :
    t.any (fun r => r.sym == x) = true ↔ x ∈ t.map FreqEntry.sym := by
  simp

theorem parseEntry_nil (t : List FreqEntry) : parseEntry t [] = .bad 2 := rfl

section Defects
variable {t : List FreqEntry} {len : Byte} {z : List Byte}

theorem parseEntry_short_span (h : z.length < len.toNat) : parseEntry t (len :: z) = .bad 2 := by
  simp only [parseEntry, if_pos h]

variable (hspan : len.toNat ≤ z.length)
include hspan

theorem parseEntry_invalid (hx : utf8One (z.take len.toNat) = none) : parseEntry t (len :: z) = .bad 3 := by
  simp only [parseEntry, if_neg hspan.not_gt, hx]

variable {x : Sym} (hx : utf8One (z.take len.toNat) = some x)
include hx

theorem parseEntry_repeated (hold : x ∈ t.map FreqEntry.sym) : parseEntry t (len :: z) = .bad 4 := by
  simp only [parseEntry, if_neg hspan.not_gt, hx, if_pos (any_sym_iff.2 hold)]

variable (hnew : x ∉ t.map FreqEntry.sym)
include hnew

theorem parseEntry_short_count (hcount : z.length - len.toNat < 4) : parseEntry t (len :: z) = .bad 2 := by
  simp only [parseEntry, if_neg hspan.not_gt, hx, if_neg (mt any_sym_iff.1 hnew)]
  split
  · rename_i k0 k1 k2 k3 y hdrop
    have := congrArg List.length hdrop
    simp only [List.length_drop, List.length_cons] at this
    omega
  · rfl

theorem parseEntry_zero_count (hcount : (z.drop len.toNat).take 4 = [0x00, 0x00, 0x00, 0x00]) :
    parseEntry t (len :: z) = .bad 5 := by
  obtain ⟨rest, hdrop⟩ : ∃ rest, z.drop len.toNat = [0x00, 0x00, 0x00, 0x00] ++ rest :=
    ⟨_, hcount ▸ (List.take_append_drop 4 _).symm⟩
  simp only [parseEntry, if_neg hspan.not_gt, hx, if_neg (mt any_sym_iff.1 hnew), hdrop]
  rfl

end Defects

/-- Parsing may stop after any number of entries and go on from there. -/
theorem parseEntries_add {m k : Nat} {t0 t1 : List FreqEntry} {y y1 : List Byte}
    (h : parseEntries m t0 y = .table t1 y1) : parseEntries (m + k) t0 y = parseEntries k t1 y1 := by
  induction m generalizing t0 y with
  | zero => cases h; rw [Nat.zero_add]
  | succ m ih =>
    rw [Nat.succ_add]
    simp only [parseEntries] at h ⊢
    cases hp : parseEntry t0 y with
    | bad info => simp [hp] at h
    | table t' y' =>
      simp only [hp] at h
      exact ih h

/-- The first defect in stream order is the one reported: the good entries before it are passed over. -/
theorem parseEntries_bad {n : Nat} {t : List FreqEntry} {good y : List Byte} {info : BitVec 8} (ht : ValidTable t)
    (hgood : isEntries t good) (hlt : t.length < n) (hbad : parseEntry t y = .bad info) :
    parseEntries n [] (good ++ y) = .bad info := by
  obtain ⟨hent, hnodup, -⟩ := ht
  obtain ⟨k, rfl⟩ := Nat.exists_eq_add_of_lt hlt
  have hpassed : parseEntries t.length [] (good ++ y) = .table t y :=
    parseEntries_header (t0 := []) (isEntries_iff.1 hgood) hnodup fun r hr => (hent r hr).2
  rw [Nat.add_assoc, parseEntries_add hpassed]
  simp only [parseEntries, hbad]

theorem exec_hread_defect {s : State} (he : s.eng.err = false) {n : BitVec 16} {t : List FreqEntry}
    {good y : List Byte} {info : BitVec 8} (ht : ValidTable t) (hlt : t.length < n.toNat) (hgood : isEntries t good)
    (hin : s.eng.byteIn = be16 n ++ good ++ y) (hbad : parseEntry t y = .bad info) :
    exec .hread s = .next { s with eng := faulted s.eng 1 info 0x28000000 } :=
  runCommand_raise he (hreadBody_bad (hin.trans (List.append_assoc ..)) (parseEntries_bad ht hgood hlt hbad))

/-- Settles O43: the header of a legal table is parsed back; without one, the entry after the good ones has one of the
defects, each in the order of the parser's tests. -/
theorem hreadParsesTheHeader : Obligations.HreadParsesTheHeader := by
  intro s he
  refine ⟨fun t h tail ht hh hin => runCommand_done he (hreadBody_header ht hh hin),
    fun hshort => runCommand_raise he (hreadBody_short hshort), fun n t good y ht hlt hgood hin => ?defects⟩
  case defects =>
    have hdefect : ∀ {info : BitVec 8}, parseEntry t y = .bad info →
        exec .hread s = .next { s with eng := faulted s.eng 1 info 0x28000000 } :=
      exec_hread_defect he ht hlt hgood hin
    refine ⟨?noLength, fun len z hy => ?entry⟩
    case noLength =>
      rintro rfl
      exact hdefect (parseEntry_nil t)
    case entry =>
      subst hy
      exact ⟨fun h => hdefect (parseEntry_short_span h), fun hspan h => hdefect (parseEntry_invalid hspan h),
        fun x hspan hx => ⟨fun hold => hdefect (parseEntry_repeated hspan hx hold),
          fun hnew h => hdefect (parseEntry_short_count hspan hx hnew h),
          fun hnew h => hdefect (parseEntry_zero_count hspan hx hnew h)⟩⟩

/-! HREAD of what HWRITE appended, and what a completed HREAD has consumed. -/

theorem EngineSound.validTable {e : Engine} (h : EngineSound e) : ValidTable e.ft := by
  obtain ⟨-, ⟨-, -, hscalar, -⟩, ⟨hn, hcount, hnodup, -⟩, -⟩ := h
  have := e.n.isLt
  exact ⟨fun r hr => ⟨hscalar r hr, hcount r hr⟩, hnodup, by omega⟩

/-- A completed HWRITE appended the header of FT to BYTE_OUT and left the rest. -/
theorem exec_hwrite_completed {s t : State} (hn : s.eng.n.toNat = s.eng.ft.length) (h : exec .hwrite s = .next t)
    (hs : s.eng.err = false) (ht : t.eng.err = false) :
    ∃ hdr, isHeader s.eng.ft hdr ∧ t.eng = { s.eng with byteOut := s.eng.byteOut ++ hdr } := by
  obtain ⟨-, ft, hdr, hft, hhdr, -, heng⟩ := hwriteBody_done.1 (exec_completed h hs ht)
  obtain rfl : s.eng.ft = ft := Option.some.inj ((tableEntries_eq_some hn).symm.trans hft)
  exact ⟨hdr, (headerOf_iff_isHeader hn).1 hhdr, heng⟩

/-- Settles O44: the new bytes are the header of FT, which HREAD takes whole. -/
theorem hreadInvertsHwrite : Obligations.HreadInvertsHwrite := by
  intro s t h hsound hs _ _ hx ht hout
  obtain ⟨heng, -⟩ := hsound
  have hvalid := heng.validTable
  obtain ⟨-, -, ⟨hn, -⟩, -⟩ := heng
  obtain ⟨hdr, hhdr, hteng⟩ := exec_hwrite_completed hn hx hs ht
  obtain rfl : h = hdr := List.append_cancel_left (hout.symm.trans (congrArg Engine.byteOut hteng))
  have hread := hreadBody_header (e := { t.eng with byteIn := h }) hvalid hhdr (List.append_nil h).symm
  have hn' : BitVec.ofNat 16 s.eng.ft.length = s.eng.n := by rw [← hn, BitVec.ofNat_toNat, BitVec.setWidth_eq]
  exact ⟨_, runCommand_done ht hread, ht, rfl, hn', rfl⟩

/-- A completed HREAD took the header of the legal table that it installed from the head of BYTE_IN. -/
theorem hreadBody_consumed {e e' : Engine} (hb : hreadBody e = .done e') :
    ValidTable e'.ft ∧ ∃ h, isHeader e'.ft h ∧ e.byteIn = h ++ e'.byteIn := by
  obtain ⟨y0, y1, y, t, rest, hin, hp, rfl⟩ := hreadBody_done.1 hb
  obtain ⟨hvalid, hn, -⟩ := parseEntries_valid hp
  obtain ⟨t', entries, htt, -, hentries, rfl, -, -⟩ := parseEntries_table hp (by simp)
  obtain rfl : t = t' := by simpa using htt
  have hhdr : headerOf (fromBe16 y0 y1) t = some ([y0, y1] ++ entries) := by
    rw [headerOf, hentries, be16_fromBe16]
  exact ⟨hvalid, _, (headerOf_iff_isHeader hn).1 hhdr, hin⟩

/-- Each entry is the length byte, the encoding of its symbol and four bytes of count (20_memory.md R67). -/
theorem headerEntries_length {t : List FreqEntry} {h : List Byte} {us : List (List Byte)}
    (hh : headerEntries t = some h) (hus : t.map (fun r => utf8 r.sym) = us.map some) :
    h.length = (us.map (fun u => 5 + u.length)).sum := by
  induction t generalizing h us with
  | nil =>
    obtain rfl : us = [] := by simpa using hus.symm
    cases hh
    rfl
  | cons r t ih =>
    cases us with
    | nil => simp at hus
    | cons u us =>
      obtain ⟨hu, hus⟩ := List.cons.inj hus
      obtain ⟨h1, h2, hr, ht, rfl⟩ := headerEntries_cons.1 hh
      obtain ⟨u', hu', rfl⟩ := headerEntry_some.1 hr
      obtain rfl : u = u' := Option.some.inj (hu.symm.trans hu')
      simp only [List.length_append, List.length_cons, List.map_cons, List.sum_cons, ih ht hus, be32, List.length_nil]
      omega

theorem isHeader_length {t : List FreqEntry} {h : List Byte} (hh : isHeader t h) :
    ∃ us : List (List Byte), t.map (fun r => utf8 r.sym) = us.map some ∧
      h.length = 2 + (us.map (fun u => 5 + u.length)).sum := by
  obtain ⟨entries, hentries, rfl⟩ := hh
  have ⟨us, hus, _⟩ := hentries
  exact ⟨us, hus, by rw [List.length_append, headerEntries_length (isEntries_iff.1 hentries) hus]; rfl⟩

/-- Settles O45. -/
theorem hreadConsumesExactlyAHeader : Obligations.HreadConsumesExactlyAHeader := by
  intro s t hs hx ht
  obtain ⟨hvalid, h, hh, hin⟩ := hreadBody_consumed (exec_completed hx hs ht)
  obtain ⟨us, hus, hlen⟩ := isHeader_length hh
  exact ⟨h, us, hvalid, hh, hin, hus, hlen⟩

end Sys2Proof.Machine

/-! PROOFS. The encoder and the decoder: the codes ENCODE writes, what DECODE makes of BITS, and how DECODE undoes the
codes (46_codec_sequencer.md R185 to R189, R194). -/

namespace Sys2Proof.Machine

/-! How ENCODE's body ends; `encodeBody_done` says how it completes. -/

theorem encodeBody_no_codes {cfg : Capacities} {e : Engine} (h : e.ctv = false) :
    encodeBody cfg e = .raise .seq 0 := by
  simp [encodeBody, h]

theorem encodeBody_no_code {cfg : Capacities} {e : Engine} (hv : e.ctv = true) {x : Sym} (hx : x ∈ e.symIn)
    (hnone : enc e.ct x = none) : encodeBody cfg e = .raise .nocode 0 := by
  have hsyms : encodeSymbols e.ct e.symIn = none := encodeSymbols_none.2 ⟨x, hx, hnone⟩
  rw [encodeBody, if_pos hv, hsyms]

/-- With a code for every symbol the room in BITS decides how the body ends. -/
theorem encodeBody_bits {cfg : Capacities} {e : Engine} {bits : Bits} (hv : e.ctv = true)
    (hbits : encodeSymbols e.ct e.symIn = some bits) :
    encodeBody cfg e =
      if fits cfg.bits bits.length then .done { e with bits := bits, bitsv := true } else .raise .capacity 4 := by
  rw [encodeBody, if_pos hv, hbits]

/-- Settles O31: with a code for every symbol by the room in BITS, and the two ways to have no code. -/
theorem encodeConcatenatesTheCodes : Obligations.EncodeConcatenatesTheCodes := by
  intro s he
  refine ⟨fun codes hv hcodes => ?codes, fun x hx hv hnone => runCommand_raise he (encodeBody_no_code hv hx hnone),
    fun hv => runCommand_raise he (encodeBody_no_codes hv)⟩
  case codes =>
    have hbody := encodeBody_bits (cfg := s.cfg) hv (encodeSymbols_iff.2 ⟨codes, hcodes, rfl⟩)
    exact ⟨fun hroom => runCommand_done he (hbody.trans (if_pos (roomFor_iff.1 hroom))),
      fun hroom => runCommand_raise he (hbody.trans (if_neg (mt roomFor_iff.2 hroom)))⟩

/-! How DECODE's body ends, by what its branch of R186 emits and leaves over. -/

/-- The room in SYM_OUT decides how the body ends. -/
theorem decodeBody_payload {cfg : Capacities} {e : Engine} {out : List Sym} {left : Bits} (hct : e.ctv = true)
    (hbits : e.bitsv = true) (hp : decodePayload e = some (out, left)) :
    decodeBody cfg e =
      if fits cfg.symOut (e.symOut.length + out.length) then
        .done { e with symOut := e.symOut ++ out, res := !left.isEmpty }
      else .raise .capacity 4 := by
  simp only [decodeBody, hct, hbits, Bool.and_self, if_true, hp, appendWithin]
  cases fits cfg.symOut (e.symOut.length + out.length) <;> rfl

theorem decodePayload_greedy {e : Engine} (hn : e.n ≠ 1) :
    decodePayload e = some (decodeBits e.ct [] e.bits) := by
  rw [decodePayload, if_neg hn]

theorem decodePayload_one {e : Engine} {r : FreqEntry} (hn : e.n = 1) (hft : e.ft = [r]) :
    decodePayload e = some (List.replicate r.count.toNat r.sym, e.bits) := by
  rw [decodePayload, if_pos hn, hft]

section Decode
variable {s : State} (he : s.eng.err = false) (hct : s.eng.ctv = true) (hbits : s.eng.bitsv = true)
  {out : List Sym} {left : Bits} (hp : decodePayload s.eng = some (out, left))
include he hct hbits hp

theorem exec_decode_fits (hroom : roomFor s.cfg.symOut (s.eng.symOut.length + out.length)) :
    exec .decode s = .next { s with
      eng := { s.eng with symOut := s.eng.symOut ++ out, res := !left.isEmpty } } :=
  runCommand_done he ((decodeBody_payload hct hbits hp).trans (if_pos (roomFor_iff.1 hroom)))

theorem exec_decode_full (hroom : ¬ roomFor s.cfg.symOut (s.eng.symOut.length + out.length)) :
    exec .decode s = .next { s with eng := faulted s.eng 2 4 0x26000000 } :=
  runCommand_raise he ((decodeBody_payload hct hbits hp).trans (if_neg (mt roomFor_iff.2 hroom)))

end Decode

/-- Settles O32: what the greedy loop answers is the greedy split of BITS. -/
theorem decodeMatchesGreedily : Obligations.DecodeMatchesGreedily := by
  intro s he hct hbits hn
  have hp := decodePayload_greedy hn
  exact ⟨_, _, greedySplit_decodeBits s.eng.ct s.eng.bits, exec_decode_fits he hct hbits hp,
    exec_decode_full he hct hbits hp⟩

/-- Settles O33: the branch of R187. -/
theorem decodeRepeatsTheOneSymbol : Obligations.DecodeRepeatsTheOneSymbol := by
  intro s r he hct hbits hn hft
  have hp := decodePayload_one hn hft
  have hlen : s.eng.symOut.length + (List.replicate r.count.toNat r.sym).length =
      s.eng.symOut.length + r.count.toNat := by rw [List.length_replicate]
  rw [← hlen]
  exact ⟨exec_decode_fits he hct hbits hp, exec_decode_full he hct hbits hp⟩

/-! The codes of a sound engine and what the greedy loop makes of them (R188, R194). -/

theorem decodeBits_no_codes (bits : Bits) : decodeBits [] [] bits = ([], bits) :=
  decodeBits_leftover [] bits fun _ _ _ => rfl

theorem sound_ct_empty {e : Engine} (h : EngineSound e) (hc : e.ctv = true) (hn : e.n = 0) : e.ct = [] := by
  obtain ⟨hempty, -⟩ := sound_codes h hc
  have ⟨_, _, ⟨hlen, _⟩, _⟩ := h
  rw [hn] at hlen
  exact hempty (List.length_eq_zero_iff.1 hlen.symm)

/-- Settles O34: no code is ever met, and nothing fits where SYM_OUT is. -/
theorem decodeOfNoSymbolEmitsNothing : Obligations.DecodeOfNoSymbolEmitsNothing := by
  intro s ⟨hsound, hcap⟩ he hct hbits hn
  obtain ⟨-, -, -, hsymOut, -⟩ := hcap
  have hp : decodePayload s.eng = some ([], s.eng.bits) := by
    rw [decodePayload_greedy (by simp [hn]), sound_ct_empty hsound hct hn, decodeBits_no_codes]
  simpa using exec_decode_fits he hct hbits hp (roomFor_iff.2 hsymOut)

/-- With two or more symbols the code of a symbol is not empty, is decoded to it, and no shorter part of it is a
code. -/
theorem sound_code_alone {e : Engine} (h : EngineSound e) (hc : e.ctv = true) (hn : 2 ≤ e.n.toNat) {x : Sym}
    {code : Bits} (hx : enc e.ct x = some code) :
    code ≠ [] ∧ dec e.ct code = some x ∧ ∀ p, p <+: code → p ≠ code → dec e.ct p = none := by
  obtain ⟨c, hcm, rfl, rfl⟩ := enc_some hx
  obtain ⟨i, hi⟩ := List.mem_iff_getElem?.1 hcm
  have hprefix := codesArePrefixFree e h hc hn
  refine ⟨(hprefix i i c c hi hi).1, (sound_lookups h hc c hcm).2, fun p hp hne => dec_none.2 ?_⟩
  rintro d hd rfl
  obtain ⟨j, hj⟩ := List.mem_iff_getElem?.1 hd
  by_cases hji : j = i
  · subst hji
    exact hne (congrArg CodeEntry.code (Option.some.inj (hj.symm.trans hi)))
  · exact (hprefix j i d c hj hi).2 hji hp

/-- The greedy loop takes the codes of a text apart again (R194). -/
theorem decodeBits_codes {e : Engine} (h : EngineSound e) (hc : e.ctv = true) (hn : 2 ≤ e.n.toNat)
    {text : List Sym} {codes : List Bits} (hcodes : text.map (enc e.ct) = codes.map some) :
    decodeBits e.ct [] codes.flatten = (text, []) := by
  induction text generalizing codes with
  | nil =>
    obtain rfl : codes = [] := by simpa using hcodes.symm
    rfl
  | cons x text ih =>
    cases codes with
    | nil => cases hcodes
    | cons code codes =>
      obtain ⟨hx, hrest⟩ := List.cons.inj hcodes
      obtain ⟨hne, hdec, hpart⟩ := sound_code_alone h hc hn hx
      rw [List.flatten_cons, decodeBits_completes [] code codes.flatten hne hdec fun p _ => hpart p, ih hrest]

/-- Settles O35: the greedy loop gives back the text. -/
theorem decodeInvertsTheCodes : Obligations.DecodeInvertsTheCodes := by
  intro s text codes h he hct hbits hn hcodes hb hroom
  have hone : s.eng.n ≠ 1 := by
    rintro h1
    simp [h1] at hn
  have hp : decodePayload s.eng = some (text, []) := by
    rw [decodePayload_greedy hone, hb, decodeBits_codes h hct hn hcodes]
  exact exec_decode_fits he hct hbits hp hroom

end Sys2Proof.Machine

/-! PROOFS. COMPRESS: the tables it derives from a text, the artifact it appends, and the ways it faults
(46_codec_sequencer.md R190, R193). -/

namespace Sys2Proof.Machine

/-! Bodies one after another. -/

@[simp] theorem done_andThen (e : Engine) (next : Engine → Ending) : (Ending.done e).andThen next = next e := rfl

@[simp] theorem raise_andThen (c : Cause) (info : BitVec 8) (next : Engine → Ending) :
    (Ending.raise c info).andThen next = .raise c info := rfl

theorem andThen_assoc (r : Ending) (f g : Engine → Ending) :
    (r.andThen f).andThen g = r.andThen fun e => (f e).andThen g := by
  cases r <;> rfl

/-- A command that leaves a fault where none was held has raised it. -/
theorem exec_raised {i : Instr} {s t : State} (h : exec i s = .next t) (hs : s.eng.err = false)
    (ht : t.eng.err = true) :
    ∃ c info, bodyOf s.cfg i s.eng = .raise c info ∧ t.eng = takeFault c info (encode i) s.eng := by
  rcases exec_next_cases h with ⟨-, he, rfl⟩ | ⟨-, e, hb, rfl⟩ | ⟨-, -, c, info, hb, rfl⟩
  · simp [he] at hs
  · exact absurd ((written_err i s.eng e).1 hs (bodyOf_written hb ▸ ht)) List.not_mem_nil
  · exact ⟨c, info, hb, rfl⟩

/-- A command that raises whatever `i` raises faults as `i` does, under its own word. -/
theorem exec_faults_as {i j : Instr} {s : State} {code info : BitVec 8} {w : Word} (he : s.eng.err = false)
    (hj : runsHeld j = false)
    (hraise : ∀ c info, bodyOf s.cfg i s.eng = .raise c info → bodyOf s.cfg j s.eng = .raise c info)
    (hx : exec i s = .next { s with eng := faulted s.eng code info w }) :
    exec j s = .next { s with eng := faulted s.eng code info (encode j) } := by
  obtain ⟨c, info', hb, heng⟩ := exec_raised hx he rfl
  obtain rfl : code = c.code := congrArg Engine.errcode heng
  obtain rfl : info = info' := congrArg Engine.errinfo heng
  rw [exec_eq_runCommand hj]
  exact runCommand_raise he (hraise c info hb)

/-- A command that ends by the rooms of two memories completes where both have room and faults with ERR_CAPACITY(4)
where one has none. -/
theorem exec_by_rooms {i : Instr} {s : State} {e : Engine} {capA capB : Capacity} {lenA lenB : Nat}
    (he : s.eng.err = false) (hi : runsHeld i = false)
    (hbody : bodyOf s.cfg i s.eng = if fits capA lenA && fits capB lenB then .done e else .raise .capacity 4) :
    (roomFor capA lenA → roomFor capB lenB → exec i s = .next { s with eng := e }) ∧
    (¬ roomFor capA lenA ∨ ¬ roomFor capB lenB →
      exec i s = .next { s with eng := faulted s.eng 2 4 (encode i) }) := by
  rw [exec_eq_runCommand hi]
  simp only [roomFor_iff, Bool.and_eq_true] at hbody ⊢
  refine ⟨fun ha hb => runCommand_done he (hbody.trans (if_pos ⟨ha, hb⟩)), fun hfull => ?_⟩
  exact runCommand_raise he (hbody.trans (if_neg (not_and_or.2 hfull)))

/-! The tree and the code table of a frequency table, as TBUILD and CWALK make them in an engine that was reset; they
make the same in every other. -/

/-- The engine that TBUILD leaves of the table right after reset. -/
def builtFrom (t : List FreqEntry) : Engine :=
  buildTree t (installTable t (BitVec.ofNat 16 t.length) Engine.reset)

/-- And with the code table of the tree: `codesOfTree_builtFrom` says that there is one. -/
def tablesOf (t : List FreqEntry) : Engine :=
  { builtFrom t with ct := (codesOfTree (builtFrom t)).getD [], ctv := true }

/-- `e` with the three tables of `b`, all valid. -/
def withTables (b e : Engine) : Engine :=
  { e with
    ft := b.ft, n := b.n, ftv := true
    node := b.node, nn := b.nn, root := b.root, rootv := b.rootv, pq := b.pq, treev := true
    ct := b.ct, ctv := true }

@[simp] theorem tablesOf_ft (t : List FreqEntry) : (tablesOf t).ft = t := buildTree_ft t _
@[simp] theorem tablesOf_n (t : List FreqEntry) : (tablesOf t).n = BitVec.ofNat 16 t.length := buildTree_n t _
@[simp] theorem tablesOf_ctv (t : List FreqEntry) : (tablesOf t).ctv = true := rfl

theorem codesOfTree_same {a b : Engine} (h : SameTree a b) (hn : a.n = b.n) : codesOfTree a = codesOfTree b := by
  obtain ⟨hnode, -, hroot, hrootv, -⟩ := h
  simp only [codesOfTree, hnode, hroot, hrootv, hn]

theorem ValidTable.length_toNat {t : List FreqEntry} (ht : ValidTable t) :
    (BitVec.ofNat 16 t.length).toNat = t.length := by
  obtain ⟨-, -, hlen⟩ := ht
  rw [BitVec.toNat_ofNat]
  omega

theorem tbuildBody_installed {t : List FreqEntry} {e : Engine} (ht : ValidTable t) (hft : e.ft = t)
    (hn : e.n = BitVec.ofNat 16 t.length) (hv : e.ftv = true) : tbuildBody e = .done (buildTree t e) := by
  subst hft
  exact tbuildBody_done.2 ⟨hv, e.ft, tableEntries_eq_some (hn ▸ ht.length_toNat), rfl⟩

theorem builtFrom_sound {t : List FreqEntry} (ht : ValidTable t) : SoundIn .unbounded (builtFrom t) :=
  tbuildBody_sound (installTable_sound (soundIn_reset .unbounded) ht ht.length_toNat)
    (tbuildBody_installed ht rfl rfl rfl)

theorem codesOfTree_builtFrom {t : List FreqEntry} (ht : ValidTable t) :
    codesOfTree (builtFrom t) = some (tablesOf t).ct := by
  obtain ⟨hsound, -⟩ := builtFrom_sound ht
  obtain ⟨ct, hct, -⟩ := codesOfTree_entries hsound (buildTree_treev t _)
  simp only [tablesOf, hct, Option.getD_some]

theorem tablesOf_sound {t : List FreqEntry} (ht : ValidTable t) : EngineSound (tablesOf t) :=
  (cwalkBody_sound (builtFrom_sound ht)
    (cwalkBody_done.2 ⟨buildTree_treev t _, _, codesOfTree_builtFrom ht, rfl⟩)).1

/-- TBUILD and CWALK of an engine that holds the table complete with the tables of that table, whatever else the
engine holds. -/
theorem tbuild_cwalk {t : List FreqEntry} {e : Engine} (ht : ValidTable t) (hft : e.ft = t)
    (hn : e.n = BitVec.ofNat 16 t.length) (hv : e.ftv = true) :
    (tbuildBody e).andThen cwalkBody = .done (withTables (tablesOf t) e) := by
  have hsame : SameTree (buildTree t e) (builtFrom t) := buildTree_same t _ _
  have hcodes : codesOfTree (buildTree t e) = some (tablesOf t).ct :=
    (codesOfTree_same hsame (by rw [buildTree_n, hn]; exact (tablesOf_n t).symm)).trans (codesOfTree_builtFrom ht)
  rw [tbuildBody_installed ht hft hn hv, done_andThen]
  refine cwalkBody_done.2 ⟨buildTree_treev t e, _, hcodes, ?_⟩
  obtain ⟨hnode, hnn, hroot, hrootv, hpq⟩ := hsame
  rw [buildTree_frame t e, hnode, hnn, hroot, hrootv, hpq]
  simp only [withTables, tablesOf_ft, tablesOf_n, hft, hn, hv]
  rfl

theorem withTables_sound {b : Engine} (h : EngineSound b) (hc : b.ctv = true) (e : Engine) :
    (withTables b e).n.toNat = (withTables b e).ft.length ∧ TreeSound (withTables b e) ∧
      CodesSound (withTables b e) := by
  obtain ⟨-, -, ⟨hn, -⟩, ⟨htree, -⟩, ⟨hcodes, -⟩, ⟨htreev, -⟩, -⟩ := h
  exact ⟨hn, ⟨fun _ => htree (htreev hc), nofun⟩, ⟨fun _ => hcodes hc, nofun⟩⟩

/-! What COMPRESS makes of a text. -/

/-- In a sound engine with a code table every symbol of FT has a code. -/
theorem sound_enc_complete {e : Engine} (h : EngineSound e) (hc : e.ctv = true) {r : FreqEntry} (hr : r ∈ e.ft) :
    ∃ code, enc e.ct r.sym = some code := by
  have ⟨_, _, _, _, ⟨hcodes, _⟩, ⟨htreev, _⟩, _⟩ := h
  obtain ⟨ct, hct, -, hentry⟩ := codesOfTree_entries h (htreev hc)
  obtain rfl : e.ct = ct := Option.some.inj ((hcodes hc).symm.trans hct)
  obtain ⟨i, hi⟩ := List.mem_iff_getElem?.1 hr
  obtain ⟨code, hslot, -⟩ := hentry i r hi
  exact ⟨code, (sound_lookups h hc _ (List.mem_of_getElem? hslot)).1⟩

/-- A text with its histogram, the header of that table, and the text's codes under the table. -/
structure Compressible (text : List Sym) (t : List FreqEntry) (h : List Byte) (bits : Bits) : Prop where
  counted : countSymbols [] text = .table t
  valid : ValidTable t
  header : isHeader t h
  codes : encodeSymbols (tablesOf t).ct text = some bits

theorem isHistogram_of_counted {text : List Sym} {t : List FreqEntry} (ht : countSymbols [] text = .table t) :
    isHistogram text t := countSymbols_table (text := []) isHistogram_nil ht

theorem countSymbols_mem {text : List Sym} {t : List FreqEntry} (ht : countSymbols [] text = .table t) {x : Sym} :
    x ∈ text ↔ ∃ r ∈ t, r.sym = x := by
  obtain ⟨hsyms, -⟩ := isHistogram_of_counted ht
  rw [← List.mem_eraseDups, ← hsyms, List.mem_map]

/-- A text of scalar values that HCOUNT can count is compressible. -/
theorem compressible_of_scalar {text : List Sym} {t : List FreqEntry} (ht : countSymbols [] text = .table t)
    (hs : ∀ x ∈ text, isScalar x = true) : ∃ h bits, Compressible text t h bits := by
  have hvalid := countSymbols_valid hs ht
  obtain ⟨h, hh⟩ := isHeader_complete fun r hr => (hvalid.1 r hr).1
  cases hbits : encodeSymbols (tablesOf t).ct text with
  | some bits => exact ⟨h, bits, ht, hvalid, hh, hbits⟩
  | none =>
    obtain ⟨x, hx, hnone⟩ := encodeSymbols_none.1 hbits
    obtain ⟨r, hr, rfl⟩ := (countSymbols_mem ht).1 hx
    obtain ⟨code, hcode⟩ := sound_enc_complete (tablesOf_sound hvalid) rfl (by rwa [tablesOf_ft])
    rw [hnone] at hcode
    cases hcode

theorem Compressible.unique {text : List Sym} {t t' : List FreqEntry} {h h' : List Byte} {bits bits' : Bits}
    (a : Compressible text t h bits) (b : Compressible text t' h' bits') : h = h' ∧ bits = bits' := by
  obtain rfl : t = t' := Counted.table.inj (a.counted.symm.trans b.counted)
  exact ⟨Option.some.inj ((isHeader_iff.1 a.header).symm.trans (isHeader_iff.1 b.header)),
    Option.some.inj (a.codes.symm.trans b.codes)⟩

/-- The engine COMPRESS leaves of `e`: `compressBody_eq` ties it to the body. -/
def compressedWith (t : List FreqEntry) (h : List Byte) (bits : Bits) (e : Engine) : Engine :=
  { withTables (tablesOf t) e with
    bits := bits, bitsv := true
    byteOut := e.byteOut ++ h ++ packBits bits, pad := BitVec.ofNat 4 (paddingOf bits.length) }

theorem headerOf_scalar {n : BitVec 16} {t : List FreqEntry} {h : List Byte} (hh : headerOf n t = some h) :
    ∀ r ∈ t, isScalar r.sym = true := by
  unfold headerOf at hh
  split at hh
  · exact headerEntries_scalar ‹_›
  · cases hh

section Compress
variable {cfg : Capacities} {e : Engine} {t : List FreqEntry} {h : List Byte} {bits : Bits}

/-- The last two bodies of COMPRESS, in an engine with codes for all of SYM_IN. -/
theorem encode_pack_eq (hv : e.ctv = true) (hbits : encodeSymbols e.ct e.symIn = some bits) :
    (encodeBody cfg e).andThen (packBody cfg) =
      if fits cfg.bits bits.length && fits cfg.byteOut (e.byteOut ++ packBits bits).length then
        .done { e with
          bits := bits, bitsv := true
          byteOut := e.byteOut ++ packBits bits, pad := BitVec.ofNat 4 (paddingOf bits.length) }
      else .raise .capacity 4 := by
  rw [encodeBody_bits hv hbits, List.length_append]
  cases hroom : fits cfg.bits bits.length with
  | false => rfl
  | true =>
    cases hout : fits cfg.byteOut (e.byteOut.length + (packBits bits).length) with
    | true => exact packBody_done.2 ⟨rfl, hout, rfl⟩
    | false => exact packBody_full rfl (not_roomFor_iff.2 hout)

/-- After HCOUNT the room for the header, for the codes and for the payload section decides how COMPRESS ends. -/
theorem compressBody_eq (ha : Compressible e.symIn t h bits) :
    compressBody cfg e =
      if fits cfg.bits bits.length && fits cfg.byteOut (e.byteOut ++ h ++ packBits bits).length then
        .done (compressedWith t h bits e)
      else .raise .capacity 4 := by
  obtain ⟨hcount, hvalid, hh, hbits⟩ := ha
  let e1 := installTable t (BitVec.ofNat 16 t.length) e
  have hhcount : hcountBody e = .done e1 := hcountBody_done.2 ⟨t, hcount, rfl⟩
  rw [compressBody, hhcount, done_andThen]
  by_cases hhead : roomFor cfg.byteOut (e.byteOut.length + h.length)
  case neg =>
    have hfull : fits cfg.byteOut (e.byteOut ++ h ++ packBits bits).length = false := by
      rw [← not_roomFor_iff]
      refine fun hroom => hhead (roomFor_iff.2 (fits_mono (roomFor_iff.1 hroom) ?_))
      simp only [List.length_append]
      omega
    rw [hwriteBody_full (e := e1) rfl hvalid.length_toNat hh hhead, hfull, Bool.and_false]
    rfl
  case pos =>
    let e2 := { e1 with byteOut := e.byteOut ++ h }
    have hhwrite : hwriteBody cfg e1 = .done e2 := hwriteBody_fits rfl hvalid.length_toNat hh hhead
    rw [hhwrite, done_andThen, andThen_assoc, tbuild_cwalk (e := e2) hvalid rfl rfl rfl, done_andThen]
    exact encode_pack_eq (e := withTables (tablesOf t) e2) rfl hbits

/-- A COMPRESS that completes had a compressible text: its HWRITE had the header of the histogram. -/
theorem compressBody_done {e' : Engine} (hb : compressBody cfg e = .done e') :
    ∃ t h bits, Compressible e.symIn t h bits ∧ e' = compressedWith t h bits e := by
  have hunits := hb
  simp only [compressBody, andThen_eq_done] at hunits
  obtain ⟨_, ⟨_, ⟨_, ⟨_, ⟨e1, hhcount, hhwrite⟩, -⟩, -⟩, -⟩, -⟩ := hunits
  obtain ⟨t, hcount, rfl⟩ := hcountBody_done.1 hhcount
  obtain ⟨-, t', h', htable, hhead, -⟩ := hwriteBody_done.1 hhwrite
  have hn : (BitVec.ofNat 16 t.length).toNat = t.length := by
    have : t.length ≤ 65535 := countSymbols_bounds (by simp) hcount
    rw [BitVec.toNat_ofNat]
    omega
  obtain rfl : t = t' :=
    Option.some.inj ((tableEntries_eq_some (e := installTable t _ e) hn).symm.trans htable)
  obtain ⟨h, bits, ha⟩ := compressible_of_scalar hcount fun x hx => by
    obtain ⟨r, hr, rfl⟩ := (countSymbols_mem hcount).1 hx
    exact headerOf_scalar hhead r hr
  refine ⟨t, h, bits, ha, ?_⟩
  rw [compressBody_eq ha] at hb
  split at hb
  · exact (Ending.done.inj hb).symm
  · cases hb

end Compress

theorem compressBody_raises {cfg : Capacities} {e : Engine} {c : Cause} {info : BitVec 8}
    (hb : hcountBody e = .raise c info) : compressBody cfg e = .raise c info := by
  simp only [compressBody, hb, raise_andThen]

/-- Settles O46: HCOUNT's faults are COMPRESS's, and after it the rooms decide. -/
theorem compressMakesTheArtifact : Obligations.CompressMakesTheArtifact := by
  intro s he
  refine ⟨fun code info hx => ?fault, fun hcount hs => ?artifact⟩
  case fault => exact exec_faults_as (i := .hcount) he rfl (fun _ _ => compressBody_raises) hx
  case artifact =>
    obtain ⟨t, ht, hhist, -⟩ := countSymbols_of_countable hcount
    obtain ⟨h, bits, ha⟩ := compressible_of_scalar ht hs
    obtain ⟨codes, hcodes, rfl⟩ := encodeSymbols_iff.1 ha.codes
    obtain ⟨hn, htree, hct⟩ := withTables_sound (tablesOf_sound ha.valid) rfl s.eng
    have hhist' : isHistogram s.eng.symIn (tablesOf t).ft := (tablesOf_ft t).symm ▸ hhist
    have hhead : isHeader (tablesOf t).ft h := (tablesOf_ft t).symm ▸ ha.header
    exact ⟨compressedWith t h codes.flatten s.eng, h, codes, packBits codes.flatten, hhist', hn, htree, hct, hhead,
      hcodes, isPayloadSection_iff.2 rfl, rfl, exec_by_rooms (i := .compress) he rfl (compressBody_eq ha)⟩

/-- Settles O49: what COMPRESS appends is the header and the payload section of a text, and a text has one of each. -/
theorem compressIsDeterministic : Obligations.CompressIsDeterministic := by
  intro s s' t t' hs hs' hin hx hx' ht ht'
  obtain ⟨table, h, bits, ha, heng⟩ := compressBody_done (exec_completed hx hs ht)
  obtain ⟨table', h', bits', ha', heng'⟩ := compressBody_done (exec_completed hx' hs' ht')
  obtain ⟨rfl, rfl⟩ := ha.unique (hin ▸ ha')
  refine ⟨by rw [heng]; rfl, h ++ packBits bits, ?_, ?_⟩
  · rw [heng]
    exact List.append_assoc ..
  · rw [heng']
    exact List.append_assoc ..

end Sys2Proof.Machine

/-! PROOFS. DECOMPRESS: what it makes of an artifact, and the ways it faults (46_codec_sequencer.md R191). -/

namespace Sys2Proof.Machine

/-! How DECOMPRESS ends after a good header. -/

/-- After a count byte of 1 to 8 and more bytes, the room for the bits decides how UNPACK ends. -/
theorem unpackBody_bits {cfg : Capacities} {e : Engine} {p : Byte} {rest : List Byte} {bits : Bits}
    (hin : e.byteIn = p :: rest) (hlo : 1 ≤ p.toNat) (hhi : p.toNat ≤ 8) (hrest : rest ≠ [])
    (hbits : bits = (bitsOfBytes rest).take (8 * rest.length - p.toNat)) :
    unpackBody cfg e =
      if fits cfg.bits bits.length then
        .done { e with bits := bits, bitsv := true, pad := p.setWidth 4, byteIn := [] }
      else .raise .capacity 4 := by
  have hpos : 0 < rest.length := List.length_pos_iff.2 hrest
  have hlen : bits.length = 8 * rest.length - p.toNat := by
    rw [hbits, List.length_take, bitsOfBytes_length, min_eq_left (Nat.sub_le _ _)]
  rw [unpackBody_good_count hin hlo hhi, if_neg (by omega), hlen, hbits]

/-- DECODE's branch always has an answer where N is |FT|: the one symbol repeated, or the greedy split. -/
theorem decodePayload_complete {e : Engine} (hn : e.n.toNat = e.ft.length) :
    ∃ out left, decodePayload e = some (out, left) ∧
      (∀ r, e.ft = [r] → out = List.replicate r.count.toNat r.sym ∧ left = e.bits) ∧
      (e.ft.length ≠ 1 → greedySplit e.ct e.bits out left) := by
  by_cases hone : e.ft.length = 1
  case pos =>
    obtain ⟨r, hr⟩ := List.length_eq_one_iff.1 hone
    have h1 : e.n = 1 := BitVec.eq_of_toNat_eq (hn.trans hone)
    refine ⟨_, _, decodePayload_one h1 hr, fun r' hr' => ?_, absurd hone⟩
    obtain rfl : r = r' := (List.cons.inj (hr.symm.trans hr')).1
    exact ⟨rfl, rfl⟩
  case neg =>
    have h1 : e.n ≠ 1 := fun h => hone (by rw [← hn, h]; rfl)
    refine ⟨_, _, decodePayload_greedy h1, fun r hr => absurd (by rw [hr]; rfl) hone, fun _ => ?_⟩
    exact greedySplit_decodeBits e.ct e.bits

/-- The engine DECOMPRESS leaves of `e`: `decompressBody_payload` ties it to the body. -/
def decompressedWith (t : List FreqEntry) (bits : Bits) (pad : BitVec 4) (out : List Sym) (left : Bits)
    (e : Engine) : Engine :=
  { withTables (tablesOf t) e with
    bits := bits, bitsv := true, pad := pad, byteIn := []
    symOut := e.symOut ++ out, res := !left.isEmpty }

section Decompress
variable {cfg : Capacities} {e : Engine} {t : List FreqEntry} {h tail : List Byte} (ht : ValidTable t)
  (hh : isHeader t h) (hin : e.byteIn = h ++ tail)
include ht hh hin

/-- A good header leaves the tables and the payload section to UNPACK and DECODE. -/
theorem decompressBody_header : decompressBody cfg e =
    (unpackBody cfg { withTables (tablesOf t) e with byteIn := tail }).andThen (decodeBody cfg) := by
  let e1 := installTable t (BitVec.ofNat 16 t.length) { e with byteIn := tail }
  have hhread : hreadBody e = .done e1 := hreadBody_header ht hh hin
  rw [decompressBody, hhread, done_andThen, tbuild_cwalk (e := e1) ht rfl rfl rfl]
  rfl

/-- A defect of the payload section is DECOMPRESS's fault. -/
theorem decompressBody_defect {c : Cause} {info : BitVec 8}
    (hunpack : unpackBody cfg { withTables (tablesOf t) e with byteIn := tail } = .raise c info) :
    decompressBody cfg e = .raise c info := by
  rw [decompressBody_header ht hh hin, hunpack, raise_andThen]

/-- After a good payload section the room for the symbols decides how DECOMPRESS ends. -/
theorem decompressBody_unpacked {bits : Bits} {pad : BitVec 4} {out : List Sym} {left : Bits}
    (hunpack : unpackBody cfg { withTables (tablesOf t) e with byteIn := tail } = .done
      { withTables (tablesOf t) e with bits := bits, bitsv := true, pad := pad, byteIn := [] })
    (hp : decodePayload { tablesOf t with bits := bits } = some (out, left)) :
    decompressBody cfg e =
      if fits cfg.symOut (e.symOut.length + out.length) then .done (decompressedWith t bits pad out left e)
      else .raise .capacity 4 := by
  rw [decompressBody_header ht hh hin, hunpack, done_andThen]
  exact decodeBody_payload rfl rfl hp

/-- After a count byte of 1 to 8 and more bytes, the rooms for the bits and for the symbols decide how DECOMPRESS
ends. -/
theorem decompressBody_payload {p : Byte} {rest : List Byte} {bits : Bits} {out : List Sym} {left : Bits}
    (htail : tail = p :: rest) (hlo : 1 ≤ p.toNat) (hhi : p.toNat ≤ 8) (hrest : rest ≠ [])
    (hbits : bits = (bitsOfBytes rest).take (8 * rest.length - p.toNat))
    (hp : decodePayload { tablesOf t with bits := bits } = some (out, left)) :
    decompressBody cfg e =
      if fits cfg.bits bits.length && fits cfg.symOut (e.symOut ++ out).length then
        .done (decompressedWith t bits (p.setWidth 4) out left e)
      else .raise .capacity 4 := by
  have hunpack := unpackBody_bits (cfg := cfg) (e := { withTables (tablesOf t) e with byteIn := tail }) htail hlo hhi
    hrest hbits
  cases hroom : fits cfg.bits bits.length with
  | false => exact decompressBody_defect ht hh hin (hunpack.trans (if_neg (by simp [hroom])))
  | true =>
    rw [List.length_append, Bool.true_and]
    exact decompressBody_unpacked ht hh hin (hunpack.trans (if_pos hroom)) hp

end Decompress

theorem decompressBody_raises {cfg : Capacities} {e : Engine} {c : Cause} {info : BitVec 8}
    (hb : hreadBody e = .raise c info) : decompressBody cfg e = .raise c info := by
  simp only [decompressBody, hb, raise_andThen]

/-- Settles O47: HREAD's faults are DECOMPRESS's; after a good header UNPACK's defects are, and after a good payload
section the rooms decide. -/
theorem decompressRecoversTheText : Obligations.DecompressRecoversTheText := by
  intro s he
  refine ⟨fun code info hx => ?fault, fun t h tail ht hh hin => ⟨fun htail => ?empty, fun p rest htail =>
    ⟨fun hp => ?count, fun hlo hhi hrest => ?alone, fun hlo hhi hrest => ?payload⟩⟩⟩
  case fault => exact exec_faults_as (i := .hread) he rfl (fun _ _ => decompressBody_raises) hx
  case empty => exact runCommand_raise he (decompressBody_defect ht hh hin (unpackBody_empty htail))
  case count => exact runCommand_raise he (decompressBody_defect ht hh hin (unpackBody_bad_count htail hp))
  case alone =>
    have hshort : 8 * rest.length < p.toNat := by rw [hrest, List.length_nil]; omega
    exact runCommand_raise he (decompressBody_defect ht hh hin
      ((unpackBody_good_count htail hlo hhi).trans (if_pos hshort)))
  case payload =>
    obtain ⟨bits, hbits⟩ : ∃ bits, bits = (bitsOfBytes rest).take (8 * rest.length - p.toNat) := ⟨_, rfl⟩
    obtain ⟨hn, htree, hct⟩ := withTables_sound (tablesOf_sound ht) rfl s.eng
    obtain ⟨out, left, hp, hone, hgreedy⟩ := decodePayload_complete (e := { tablesOf t with bits := bits }) hn
    simp only [tablesOf_ft] at hone hgreedy
    have hbody := decompressBody_payload (cfg := s.cfg) ht hh hin htail hlo hhi hrest hbits hp
    refine ⟨decompressedWith t bits (p.setWidth 4) out left s.eng, out, left, ?_, htree, hct, hone, hgreedy, ?_,
      exec_by_rooms (i := .decompress) he rfl hbody⟩
    · exact hn.trans (congrArg List.length (tablesOf_ft t))
    · simp only [decompressedWith, withTables, tablesOf_ft, hbits]
      rfl

end Sys2Proof.Machine

/-! PROOFS. The round trip of a text (46_codec_sequencer.md R192). -/

namespace Sys2Proof.Machine

/-! DECODE of a text's own codes under its histogram gives the text, with no bit left over. -/

/-- The tree of one entry is its leaf, whose path is empty (42_tree_builder.md R136). -/
theorem tablesOf_one_ct (r : FreqEntry) : (tablesOf [r]).ct = [⟨r.sym, []⟩] := rfl

theorem encodeSymbols_replicate_empty (x : Sym) (k : Nat) :
    encodeSymbols [⟨x, []⟩] (List.replicate k x) = some [] := by
  induction k with
  | zero => rfl
  | succ k ih => exact encodeSymbols_cons.2 ⟨[], [], by simp [enc], ih, rfl⟩

/-- A text with one entry in its histogram is that symbol, as often as it is counted. -/
theorem isHistogram_one {text : List Sym} {r : FreqEntry} (h : isHistogram text [r]) :
    text = List.replicate r.count.toNat r.sym := by
  obtain ⟨hsyms, hcount⟩ := h
  have hall : ∀ x ∈ text, x = r.sym := fun x hx => by
    rw [← List.mem_eraseDups, ← hsyms] at hx
    simpa using hx
  rw [hcount r (by simp), List.count_eq_length.2 fun x hx => (hall x hx).symm]
  exact List.eq_replicate_iff.2 ⟨rfl, hall⟩

/-- No symbol, one symbol, or codes that the greedy loop takes apart (R187, R188, R194). -/
theorem Compressible.decodePayload_eq {text : List Sym} {t : List FreqEntry} {h : List Byte} {bits : Bits}
    (ha : Compressible text t h bits) : decodePayload { tablesOf t with bits := bits } = some (text, []) := by
  obtain ⟨hcount, hvalid, -, hbits⟩ := ha
  have hhist := isHistogram_of_counted hcount
  have hn : (tablesOf t).n.toNat = t.length := by rw [tablesOf_n, hvalid.length_toNat]
  match t with
  | [] =>
    obtain rfl : text = [] := List.eq_nil_iff_forall_not_mem.2 fun x hx => by
      simpa using (countSymbols_mem hcount).1 hx
    obtain rfl : [] = bits := Option.some.inj hbits
    rfl
  | [r] =>
    obtain rfl := isHistogram_one hhist
    rw [tablesOf_one_ct, encodeSymbols_replicate_empty] at hbits
    obtain rfl : [] = bits := Option.some.inj hbits
    exact decodePayload_one (tablesOf_n [r]) (tablesOf_ft [r])
  | r :: r' :: t =>
    have htwo : 2 ≤ (tablesOf (r :: r' :: t)).n.toNat := by
      rw [hn, List.length_cons, List.length_cons]
      omega
    obtain ⟨codes, hcodes, rfl⟩ := encodeSymbols_iff.1 hbits
    have hone : (tablesOf (r :: r' :: t)).n ≠ 1 := fun h1 => by
      rw [h1] at htwo
      exact absurd htwo (by decide)
    exact (decodePayload_greedy (e := { tablesOf (r :: r' :: t) with bits := codes.flatten }) hone).trans
      (congrArg some (decodeBits_codes (tablesOf_sound hvalid) rfl htwo hcodes))

/-! The commands of the round trip, where every queue has room. -/

theorem runAll_cons {i : Instr} {s s' : State} (h : exec i s = .next s') (rest : List Instr) :
    runAll (i :: rest) s = runAll rest s' := by
  simp only [runAll, h]

/-- PUSHS of each symbol of a text appends the text to SYM_IN. -/
theorem runAll_pushs {s : State} {text : List Sym} (hcfg : s.cfg = .unbounded) (he : s.eng.err = false)
    (hs : ∀ x ∈ text, scalarValue x) (rest : List Instr) :
    runAll (text.map Instr.pushs ++ rest) s =
      runAll rest { s with eng := { s.eng with symIn := s.eng.symIn ++ text } } := by
  induction text generalizing s with
  | nil => simp
  | cons x text ih =>
    have hfit : fits s.cfg.symIn (s.eng.symIn.length + 1) = true := by rw [hcfg]; rfl
    have hpush : exec (.pushs x) s = .next { s with eng := { s.eng with symIn := s.eng.symIn ++ [x] } } :=
      runCommand_done he (pushsBody_done.2 ⟨isScalar_iff.2 (hs x (by simp)), hfit, rfl⟩)
    rw [List.map_cons, List.cons_append, runAll_cons hpush,
      ih (s := { s with eng := { s.eng with symIn := s.eng.symIn ++ [x] } }) hcfg he fun y hy => hs y (by simp [hy])]
    simp only [List.append_assoc, List.singleton_append]

/-- POPB and PUSHB of each byte of BYTE_OUT move it to the end of BYTE_IN. -/
theorem runAll_moves {s : State} {bytes : List Byte} (hcfg : s.cfg = .unbounded) (he : s.eng.err = false)
    (hout : s.eng.byteOut = bytes) (rest : List Instr) :
    ∃ rdata, runAll (bytes.flatMap (fun b => [.popb, .pushb b]) ++ rest) s =
      runAll rest { s with
        eng := { s.eng with byteOut := [], byteIn := s.eng.byteIn ++ bytes, rdata := rdata } } := by
  induction bytes generalizing s with
  | nil => exact ⟨s.eng.rdata, by rw [List.flatMap_nil, List.nil_append, List.append_nil, ← hout]⟩
  | cons b bytes ih =>
    have hpop : exec .popb s = .next { s with
        eng := { s.eng with byteOut := bytes, rdata := b.setWidth 32 } } :=
      runCommand_done he (popbBody_done.2 ⟨b, bytes, hout, rfl⟩)
    have hfit : fits s.cfg.byteIn (s.eng.byteIn.length + 1) = true := by rw [hcfg]; rfl
    have hpush : exec (.pushb b) { s with eng := { s.eng with byteOut := bytes, rdata := b.setWidth 32 } } =
        .next { s with
          eng := { s.eng with byteOut := bytes, rdata := b.setWidth 32, byteIn := s.eng.byteIn ++ [b] } } :=
      runCommand_done he (pushbBody_done.2 ⟨hfit, rfl⟩)
    obtain ⟨rdata, hmoves⟩ := ih (s := { s with
      eng := { s.eng with byteOut := bytes, rdata := b.setWidth 32, byteIn := s.eng.byteIn ++ [b] } }) hcfg he rfl
    refine ⟨rdata, ?_⟩
    rw [List.flatMap_cons, List.append_assoc, List.cons_append, List.singleton_append, runAll_cons hpop,
      runAll_cons hpush, hmoves]
    simp only [List.append_assoc, List.singleton_append]

/-- Settles O48: COMPRESS leaves the header and the payload section of the text, which the moves hand to DECOMPRESS. -/
theorem roundTrip : Obligations.RoundTrip := by
  intro s text hstart hs hcount
  obtain ⟨hcfg, he, hsymIn, hbyteIn, hbyteOut, hsymOut⟩ : s.cfg = .unbounded ∧ s.eng.err = false ∧
      s.eng.symIn = [] ∧ s.eng.byteIn = [] ∧ s.eng.byteOut = [] ∧ s.eng.symOut = [] := by
    rcases hstart with rfl | h
    · exact ⟨rfl, rfl, rfl, rfl, rfl, rfl⟩
    · exact h
  obtain ⟨table, ht, -, -⟩ := countSymbols_of_countable hcount
  obtain ⟨h, bits, ha⟩ := compressible_of_scalar ht fun x hx => isScalar_iff.2 (hs x hx)
  let s1 : State := { s with eng := { s.eng with symIn := text } }
  let e2 := compressedWith table h bits s1.eng
  have hcompress : exec .compress s1 = .next { s with eng := e2 } :=
    runCommand_done he ((compressBody_eq ha).trans (if_pos (by simp only [s1, hcfg]; rfl)))
  have hbytes : e2.byteOut = h ++ packBits bits := by
    show s.eng.byteOut ++ h ++ packBits bits = _
    rw [hbyteOut, List.nil_append]
  obtain ⟨rdata, hmoves⟩ := runAll_moves (s := { s with eng := e2 }) hcfg he rfl [.decompress]
  let e3 : Engine := { e2 with byteOut := [], byteIn := s.eng.byteIn ++ e2.byteOut, rdata := rdata }
  have hin : e3.byteIn = h ++ packBits bits := by
    show s.eng.byteIn ++ e2.byteOut = _
    rw [hbyteIn, hbytes, List.nil_append]
  let e4 := decompressedWith table bits (BitVec.ofNat 4 (paddingOf bits.length)) text [] e3
  have hbody : decompressBody s.cfg e3 = .done e4 := by
    refine (decompressBody_unpacked ha.valid ha.header hin (unpackBody_packBits rfl ?_) ha.decodePayload_eq).trans
      (if_pos ?_) <;> rw [hcfg] <;> rfl
  have hdecompress : exec .decompress { s with eng := e3 } = .next { s with eng := e4 } := runCommand_done he hbody
  refine ⟨{ s with eng := e2 }, ?_, he, { s with eng := e4 }, hmoves.trans (runAll_cons hdecompress []), he, ?_,
    rfl⟩
  · rw [runAll_pushs hcfg he hs, hsymIn, List.nil_append]
    exact runAll_cons hcompress []
  · show s.eng.symOut ++ text = text
    rw [hsymOut, List.nil_append]

end Sys2Proof.Machine

/-! PROOFS. COMPRESS and DECOMPRESS as their unit commands (46_codec_sequencer.md R195). -/

namespace Sys2Proof.Machine

/-! Commands that none of them fault run their bodies one after another. -/

/-- The bodies of commands one after another; `runAll_completed` ties it to `runAll`. -/
def runBodies (cfg : Capacities) : List Instr → Engine → Ending
  | [], e => .done e
  | i :: rest, e => (bodyOf cfg i e).andThen (runBodies cfg rest)

theorem andThen_done (r : Ending) : r.andThen .done = r := by
  cases r <;> rfl

theorem exec_only_engine {i : Instr} {s t : State} (h : exec i s = .next t) : t = { s with eng := t.eng } := by
  rcases exec_next_cases h with ⟨-, -, rfl⟩ | ⟨-, e, -, rfl⟩ | ⟨-, -, c, info, -, rfl⟩ <;> rfl

theorem runAll_cons_next {i : Instr} {rest : List Instr} {s t : State} (h : runAll (i :: rest) s = .next t) :
    ∃ s', exec i s = .next s' ∧ runAll rest s' = .next t := by
  simp only [runAll] at h
  split at h
  · exact ⟨_, ‹_›, h⟩
  · cases h
  · cases h

/-- When no fault is held after commands that cannot clear one, none was held before, and each has run to its end. -/
theorem runAll_completed {units : List Instr} {s t : State} (hunits : ∀ i ∈ units, i ∉ [.clrerr, .reset])
    (h : runAll units s = .next t) (ht : t.eng.err = false) :
    s.eng.err = false ∧ runBodies s.cfg units s.eng = .done t.eng ∧ t = { s with eng := t.eng } := by
  induction units generalizing s with
  | nil =>
    cases h
    exact ⟨ht, rfl, rfl⟩
  | cons i rest ih =>
    obtain ⟨s', hx, hrest⟩ := runAll_cons_next h
    obtain ⟨hs', hbodies, heng⟩ := ih (fun j hj => hunits j (by simp [hj])) hrest
    have hs : s.eng.err = false := by
      cases he : s.eng.err with
      | false => rfl
      | true => exact absurd (exec_err_cleared hx he hs') (hunits i (by simp))
    have honly := exec_only_engine hx
    rw [exec_cfg hx] at hbodies
    refine ⟨hs, ?_, ?_⟩
    · rw [runBodies, exec_completed hx hs hs', done_andThen, hbodies]
    · rw [honly] at heng
      exact heng

/-- Unit commands whose bodies are those of one command leave the state that command leaves. -/
theorem exec_of_runAll {i : Instr} {units : List Instr} {s t : State} (hi : runsHeld i = false)
    (hunits : ∀ j ∈ units, j ∉ [.clrerr, .reset])
    (hbodies : runBodies s.cfg units s.eng = .done t.eng → bodyOf s.cfg i s.eng = .done t.eng)
    (h : runAll units s = .next t) (ht : t.eng.err = false) : exec i s = .next t := by
  obtain ⟨hs, hrun, heng⟩ := runAll_completed hunits h ht
  rw [exec_eq_runCommand hi, heng]
  exact runCommand_done hs (hbodies hrun)

/-! HWRITE writes BYTE_OUT alone, from FT alone, so it may stand before or after a command that neither reads nor writes
the one and does not write the other. -/

theorem buildTree_byteOut_free (t : List FreqEntry) (e : Engine) (bytes : List Byte) :
    buildTree t { e with byteOut := bytes } = { buildTree t e with byteOut := bytes } := by
  obtain ⟨hnode, hnn, hroot, hrootv, hpq⟩ := buildTree_same t { e with byteOut := bytes } e
  rw [buildTree_frame t { e with byteOut := bytes }, hnode, hnn, hroot, hrootv, hpq, buildTree_frame t e]

/-- TBUILD, CWALK and ENCODE do the same whatever BYTE_OUT holds. -/
theorem bodyOf_byteOut_free {cfg : Capacities} {i : Instr} {e e' : Engine} (hi : i ∈ [.tbuild, .cwalk, .encode])
    (hb : bodyOf cfg i e = .done e') (bytes : List Byte) :
    bodyOf cfg i { e with byteOut := bytes } = .done { e' with byteOut := bytes } := by
  simp only [List.mem_cons, List.not_mem_nil, or_false] at hi
  rcases hi with rfl | rfl | rfl
  · obtain ⟨hv, t, ht, rfl⟩ := tbuildBody_done.1 hb
    exact tbuildBody_done.2 ⟨hv, t, ht, (buildTree_byteOut_free t e bytes).symm⟩
  · obtain ⟨hv, ct, hct, rfl⟩ := cwalkBody_done.1 hb
    exact cwalkBody_done.2 ⟨hv, ct, hct, rfl⟩
  · obtain ⟨hv, bits, hbits, hfit, rfl⟩ := encodeBody_done.1 hb
    exact encodeBody_done.2 ⟨hv, bits, hbits, hfit, rfl⟩

/-- TBUILD, CWALK and ENCODE keep what HWRITE reads and writes. -/
theorem bodyOf_keeps_header {cfg : Capacities} {i : Instr} {e e' : Engine} (hi : i ∈ [.tbuild, .cwalk, .encode])
    (hb : bodyOf cfg i e = .done e') : e'.ftv = e.ftv ∧ e'.n = e.n ∧ e'.ft = e.ft ∧ e'.byteOut = e.byteOut := by
  rw [bodyOf_written hb]
  simp only [List.mem_cons, List.not_mem_nil, or_false] at hi
  rcases hi with rfl | rfl | rfl <;> exact ⟨rfl, rfl, rfl, rfl⟩

theorem hwriteBody_before {cfg : Capacities} {i : Instr} {e e1 e2 : Engine} (hi : i ∈ [.tbuild, .cwalk, .encode])
    (hb : bodyOf cfg i e = .done e1) (hw : hwriteBody cfg e1 = .done e2) :
    ∃ e1', hwriteBody cfg e = .done e1' ∧ bodyOf cfg i e1' = .done e2 := by
  obtain ⟨hv, t, h, ht, hh, hfit, rfl⟩ := hwriteBody_done.1 hw
  have hbytes := bodyOf_byteOut_free hi hb (e1.byteOut ++ h)
  obtain ⟨hftv, hn, hft, hout⟩ := bodyOf_keeps_header hi hb
  simp only [tableEntries, hftv, hn, hft, hout] at hv ht hh hfit hbytes ⊢
  exact ⟨_, hwriteBody_done.2 ⟨hv, t, h, ht, hh, hfit, rfl⟩, hbytes⟩

/-- Where the commands `units` complete, `units'` complete in the same state. -/
def CompleteAs (cfg : Capacities) (units units' : List Instr) : Prop :=
  ∀ e e', runBodies cfg units e = .done e' → runBodies cfg units' e = .done e'

theorem CompleteAs.cons {cfg : Capacities} {units units' : List Instr} (i : Instr) (h : CompleteAs cfg units units') :
    CompleteAs cfg (i :: units) (i :: units') := by
  intro e e' hrun
  obtain ⟨e1, hi, hrest⟩ := andThen_eq_done.1 hrun
  exact andThen_eq_done.2 ⟨e1, hi, h e1 e' hrest⟩

theorem completeAs_hwrite_before {cfg : Capacities} {i : Instr} (hi : i ∈ [.tbuild, .cwalk, .encode])
    (rest : List Instr) : CompleteAs cfg (i :: .hwrite :: rest) (.hwrite :: i :: rest) := by
  intro e e' hrun
  obtain ⟨e1, hb, hrun⟩ := andThen_eq_done.1 hrun
  obtain ⟨e2, hw, hrest⟩ := andThen_eq_done.1 hrun
  obtain ⟨e1', hw', hb'⟩ := hwriteBody_before hi hb hw
  exact andThen_eq_done.2 ⟨e1', hw', andThen_eq_done.2 ⟨e2, hb', hrest⟩⟩

/-! The bodies of COMPRESS and DECOMPRESS. -/

theorem runBodies_compress (cfg : Capacities) :
    runBodies cfg [.hcount, .hwrite, .tbuild, .cwalk, .encode, .pack] = compressBody cfg := by
  funext e
  simp only [runBodies, compressBody, bodyOf, andThen_assoc, andThen_done]

theorem runBodies_decompress (cfg : Capacities) :
    runBodies cfg [.hread, .tbuild, .cwalk, .unpack, .decode] = decompressBody cfg := by
  funext e
  simp only [runBodies, decompressBody, bodyOf, andThen_assoc, andThen_done]

/-- HWRITE anywhere between HCOUNT and PACK completes as HWRITE right after HCOUNT. -/
theorem completeAs_compress (cfg : Capacities) :
    ∀ units ∈ [[Instr.hcount, .hwrite, .tbuild, .cwalk, .encode, .pack],
        [.hcount, .tbuild, .hwrite, .cwalk, .encode, .pack],
        [.hcount, .tbuild, .cwalk, .hwrite, .encode, .pack],
        [.hcount, .tbuild, .cwalk, .encode, .hwrite, .pack]],
      CompleteAs cfg units [.hcount, .hwrite, .tbuild, .cwalk, .encode, .pack] := by
  have htbuild : CompleteAs cfg [.hcount, .tbuild, .hwrite, .cwalk, .encode, .pack]
      [.hcount, .hwrite, .tbuild, .cwalk, .encode, .pack] := (completeAs_hwrite_before (by simp) _).cons _
  have hcwalk : CompleteAs cfg [.hcount, .tbuild, .cwalk, .hwrite, .encode, .pack]
      [.hcount, .tbuild, .hwrite, .cwalk, .encode, .pack] := ((completeAs_hwrite_before (by simp) _).cons _).cons _
  have hencode : CompleteAs cfg [.hcount, .tbuild, .cwalk, .encode, .hwrite, .pack]
      [.hcount, .tbuild, .cwalk, .hwrite, .encode, .pack] :=
    (((completeAs_hwrite_before (by simp) _).cons _).cons _).cons _
  intro units hunits e e' hrun
  simp only [List.mem_cons, List.not_mem_nil, or_false] at hunits
  rcases hunits with rfl | rfl | rfl | rfl
  · exact hrun
  · exact htbuild e e' hrun
  · exact htbuild e e' (hcwalk e e' hrun)
  · exact htbuild e e' (hcwalk e e' (hencode e e' hrun))

/-- Settles O50: units none of which faults run their bodies one after another, and HWRITE's place among them does not
matter. -/
theorem macrosAreTheirUnitCommands : Obligations.MacrosAreTheirUnitCommands := by
  intro s t _ ht
  refine ⟨fun units hunits hrun => ?compress, fun hrun => ?decompress⟩
  case compress =>
    refine exec_of_runAll (i := .compress) rfl ?_ (fun hbodies => ?_) hrun ht
    · clear hrun
      revert units
      decide
    · have hfirst := completeAs_compress s.cfg units hunits s.eng t.eng hbodies
      rwa [runBodies_compress] at hfirst
  case decompress =>
    refine exec_of_runAll (i := .decompress) rfl (by decide) (fun hbodies => ?_) hrun ht
    rwa [runBodies_decompress] at hbodies

end Sys2Proof.Machine


/-! PROOFS. The fault return (47_system.md R201). -/

namespace Sys2Proof.Machine

/-- CLRERR is executed whether a fault is held or not, and its effect on the engine is `clearFault`. -/
theorem exec_clrerr (s : State) : exec .clrerr s = .next { s with eng := clearFault s.eng } := rfl

/-- Settles O12: `clearFault` writes the four fields of the fault record and no other. -/
theorem clrerrClearsTheFaultRecord : Obligations.ClrerrClearsTheFaultRecord := by
  intro s
  rw [exec_clrerr, clearFault]

end Sys2Proof.Machine

/-! PROOFS. How every command ends: the causes it can raise, and that in a sound engine it never stops the machine
(60_exceptions.md R210 to R212). -/

namespace Sys2Proof.Machine

/-- The causes a command can raise: the raised-by column of 60_exceptions.md R212, a row a command. -/
@[simp] def causesOf : Instr → List Cause
  | .nop | .reset | .clrerr => []
  | .pushs _ => [.symbol, .capacity]
  | .pushb _ => [.capacity]
  | .popb | .pops => [.empty]
  | .hcount => [.capacity]
  | .tbuild | .cwalk => [.seq]
  | .encode => [.seq, .nocode, .capacity]
  | .pack | .decode | .hwrite => [.seq, .capacity]
  | .unpack | .decompress => [.format, .capacity]
  | .hread => [.format]
  | .compress => [.capacity]

/-- The body completes or raises one of `causes`, and stops the machine only where `ok` fails. -/
def EndsBy (causes : List Cause) (ok : Prop) : Ending → Prop
  | .done _ => True
  | .raise c _ => c ∈ causes
  | .stuck _ => ¬ ok

section EndsBy
variable {causes : List Cause} {ok : Prop}

@[simp] theorem endsBy_done (e : Engine) : EndsBy causes ok (.done e) := trivial

@[simp] theorem endsBy_raise {c : Cause} {info : BitVec 8} : EndsBy causes ok (.raise c info) ↔ c ∈ causes := .rfl

@[simp] theorem endsBy_stuck {f : Fault} : EndsBy causes ok (.stuck f) ↔ ¬ ok := .rfl

theorem EndsBy.mono {causes' : List Cause} {ok' : Prop} {r : Ending} (h : EndsBy causes ok r)
    (hcauses : causes ⊆ causes') (hok : ok' → ok) : EndsBy causes' ok' r := by
  cases r with
  | done e => exact endsBy_done e
  | raise c info => exact hcauses h
  | stuck f => exact mt hok h

theorem EndsBy.imp {ok' : Prop} {r : Ending} (h : EndsBy causes ok r) (hok : ok' → ok) : EndsBy causes ok' r :=
  h.mono (List.Subset.refl _) hok

theorem EndsBy.andThen {r : Ending} {next : Engine → Ending} (hr : EndsBy causes ok r)
    (hnext : ∀ e, r = .done e → EndsBy causes ok (next e)) : EndsBy causes ok (r.andThen next) := by
  cases r with
  | done e => exact hnext e rfl
  | raise c info => exact hr
  | stuck f => exact hr

theorem EndsBy.mem_of_raise {r : Ending} {c : Cause} {info : BitVec 8} (h : EndsBy causes ok r)
    (hr : r = .raise c info) : c ∈ causes := by
  subst hr
  exact h

theorem EndsBy.not_stuck {r : Ending} (h : EndsBy causes ok r) (hok : ok) (f : Fault) : r ≠ .stuck f := by
  rintro rfl
  exact h hok

end EndsBy

/-! The bodies that stop the machine in no state. -/

section NeverStuck
variable (cfg : Capacities) (e : Engine)

theorem pushsBody_endsBy (x : Sym) : EndsBy [.symbol, .capacity] True (pushsBody cfg x e) := by
  unfold pushsBody
  split
  · split <;> simp
  · simp

theorem pushbBody_endsBy (b : Byte) : EndsBy [.capacity] True (pushbBody cfg b e) := by
  unfold pushbBody
  split <;> simp

theorem popbBody_endsBy : EndsBy [.empty] True (popbBody e) := by
  unfold popbBody
  split <;> simp

theorem popsBody_endsBy : EndsBy [.empty] True (popsBody e) := by
  unfold popsBody
  split <;> simp

theorem hcountBody_endsBy : EndsBy [.capacity] True (hcountBody e) := by
  unfold hcountBody
  split <;> simp

theorem encodeBody_endsBy : EndsBy [.seq, .nocode, .capacity] True (encodeBody cfg e) := by
  unfold encodeBody
  split
  · split
    · simp
    · split <;> simp
  · simp

theorem packBody_endsBy : EndsBy [.seq, .capacity] True (packBody cfg e) := by
  unfold packBody
  split
  · split <;> simp
  · simp

theorem unpackBody_endsBy : EndsBy [.format, .capacity] True (unpackBody cfg e) := by
  cases hin : e.byteIn with
  | nil => simp [unpackBody_empty hin]
  | cons p rest =>
    by_cases hp : p.toNat < 1 ∨ 8 < p.toNat
    · simp [unpackBody_bad_count hin hp]
    · rw [unpackBody_good_count hin (by omega) (by omega)]
      split
      · simp
      · split <;> simp

theorem hreadBody_endsBy : EndsBy [.format] True (hreadBody e) := by
  unfold hreadBody
  split
  · split <;> simp
  · simp

end NeverStuck

/-! The bodies that stop the machine where an invariant is broken (log entry 4). -/

theorem tbuildBody_no_table {e : Engine} (h : e.ftv = false) : tbuildBody e = .raise .seq 0 := by
  simp [tbuildBody, h]

theorem decodeBody_no_input {cfg : Capacities} {e : Engine} (h : e.ctv = false ∨ e.bitsv = false) :
    decodeBody cfg e = .raise .seq 0 := by
  rcases h with h | h <;> simp [decodeBody, h]

section Invariants
variable {cfg : Capacities} {e : Engine}

theorem tbuildBody_endsBy : EndsBy [.seq] (e.n.toNat = e.ft.length) (tbuildBody e) := by
  unfold tbuildBody
  split
  · split
    · simp
    · rename_i hnone
      exact fun hn => by simp [tableEntries_eq_some hn] at hnone
  · simp

theorem cwalkBody_endsBy : EndsBy [.seq] (EngineSound e) (cwalkBody e) := by
  cases htree : e.treev with
  | false => simp [cwalkBody_no_tree htree]
  | true =>
    rw [cwalkBody, if_pos htree]
    split
    · simp
    · rename_i hnone
      intro h
      obtain ⟨ct, hct, -⟩ := codesOfTree_entries h htree
      simp [hct] at hnone

theorem hwriteBody_endsBy_of_table (hv : e.ftv = true) : EndsBy [.capacity] (EngineSound e) (hwriteBody cfg e) := by
  by_cases h : EngineSound e
  case pos =>
    have ⟨_, ⟨_, _, hscalar, _⟩, ⟨hn, _⟩, _⟩ := h
    obtain ⟨hdr, hhdr⟩ := isHeader_complete hscalar
    by_cases hroom : roomFor cfg.byteOut (e.byteOut.length + hdr.length)
    · simp [hwriteBody_fits hv hn hhdr hroom]
    · simp [hwriteBody_full hv hn hhdr hroom]
  case neg =>
    rw [hwriteBody, if_pos hv]
    split
    · exact h
    · split
      · exact h
      · split <;> simp

theorem hwriteBody_endsBy : EndsBy [.seq, .capacity] (EngineSound e) (hwriteBody cfg e) := by
  cases hv : e.ftv with
  | false => simp [hwriteBody_no_table hv]
  | true => exact (hwriteBody_endsBy_of_table hv).mono (by simp) id

theorem decodeBody_endsBy_of_input (hct : e.ctv = true) (hbits : e.bitsv = true) :
    EndsBy [.capacity] (e.n.toNat = e.ft.length) (decodeBody cfg e) := by
  cases hp : decodePayload e with
  | some payload =>
    rw [decodeBody_payload hct hbits hp]
    split <;> simp
  | none =>
    have hstuck : decodeBody cfg e = .stuck .entryMissing := by simp [decodeBody, hct, hbits, hp]
    rw [hstuck, endsBy_stuck]
    intro hn
    obtain ⟨out, left, hsome, -⟩ := decodePayload_complete hn
    simp [hsome] at hp

theorem decodeBody_endsBy : EndsBy [.seq, .capacity] (e.n.toNat = e.ft.length) (decodeBody cfg e) := by
  by_cases h : e.ctv = true ∧ e.bitsv = true
  · obtain ⟨hct, hbits⟩ := h
    exact (decodeBody_endsBy_of_input hct hbits).mono (by simp) id
  · rw [decodeBody_no_input (by simpa [imp_iff_not_or] using h)]
    simp

/-! COMPRESS and DECOMPRESS: the flag that each of their bodies needs is set by the bodies before it. -/

@[simp] theorem stuck_andThen (f : Fault) (next : Engine → Ending) : (Ending.stuck f).andThen next = .stuck f := rfl

theorem countSymbols_length_toNat {text : List Sym} {t : List FreqEntry} (ht : countSymbols [] text = .table t) :
    (BitVec.ofNat 16 t.length).toNat = t.length := by
  have : t.length ≤ 65535 := countSymbols_bounds (by simp) ht
  rw [BitVec.toNat_ofNat]
  omega

/-- A text whose histogram HWRITE has a header for is compressible, as that header has only scalar values. -/
theorem compressible_of_hwrite {t : List FreqEntry} {e2 : Engine} (ht : countSymbols [] e.symIn = .table t)
    (hw : hwriteBody cfg (installTable t (BitVec.ofNat 16 t.length) e) = .done e2) :
    ∃ h bits, Compressible e.symIn t h bits := by
  obtain ⟨-, t', hdr, htable, hhead, -⟩ := hwriteBody_done.1 hw
  obtain rfl : t = t' := Option.some.inj
    ((tableEntries_eq_some (e := installTable t _ e) (countSymbols_length_toNat ht)).symm.trans htable)
  refine compressible_of_scalar ht fun x hx => ?_
  obtain ⟨r, hr, rfl⟩ := (countSymbols_mem ht).1 hx
  exact headerOf_scalar hhead r hr

/-- COMPRESS ends as HCOUNT or HWRITE where one of them does not complete, and by its rooms where both do. -/
theorem compressBody_endsBy : EndsBy [.capacity] (SoundIn cfg e) (compressBody cfg e) := by
  have hhcount := hcountBody_endsBy e
  cases hc : hcountBody e with
  | raise c info =>
    rw [compressBody_raises hc]
    exact hhcount.mem_of_raise hc
  | stuck f => exact absurd hc (hhcount.not_stuck trivial f)
  | done e1 =>
    obtain ⟨t, ht, rfl⟩ := hcountBody_done.1 hc
    have hhwrite : EndsBy [.capacity] (SoundIn cfg e) (hwriteBody cfg _) :=
      (hwriteBody_endsBy_of_table (installTable_ftv t _ e)).imp fun h => (hcountBody_sound h hc).1
    cases hw : hwriteBody cfg (installTable t (BitVec.ofNat 16 t.length) e) with
    | raise c info => simpa [compressBody, hc, hw] using hhwrite
    | stuck f => simpa [compressBody, hc, hw] using hhwrite
    | done e2 =>
      obtain ⟨h, bits, ha⟩ := compressible_of_hwrite ht hw
      rw [compressBody_eq ha]
      split <;> simp

/-- DECOMPRESS ends as HREAD, as UNPACK after a good header, or as DECODE with the tables of that header. -/
theorem decompressBody_endsBy : EndsBy [.format, .capacity] True (decompressBody cfg e) := by
  have hhread := hreadBody_endsBy e
  cases hr : hreadBody e with
  | raise c info =>
    obtain rfl : c = .format := List.mem_singleton.1 (hhread.mem_of_raise hr)
    simp [decompressBody_raises hr]
  | stuck f => exact absurd hr (hhread.not_stuck trivial f)
  | done e1 =>
    obtain ⟨hvalid, h, hh, hin⟩ := hreadBody_consumed hr
    rw [decompressBody_header hvalid hh hin]
    refine (unpackBody_endsBy cfg _).andThen fun e2 hu => ?_
    obtain ⟨p, rest, -, -, -, -, -, rfl⟩ := unpackBody_done.1 hu
    refine (decodeBody_endsBy_of_input rfl rfl).mono (by simp) fun _ => ?_
    simpa [withTables] using hvalid.length_toNat

/-- Every command completes or raises one of its causes, and stops the machine in no sound engine. -/
theorem bodyOf_endsBy (i : Instr) : EndsBy (causesOf i) (SoundIn cfg e) (bodyOf cfg i e) := by
  have never {causes : List Cause} {r : Ending} (h : EndsBy causes True r) : EndsBy causes (SoundIn cfg e) r :=
    h.imp fun _ => trivial
  have tableSound : SoundIn cfg e → e.n.toNat = e.ft.length := fun ⟨⟨_, _, ⟨hn, _⟩, _⟩, _⟩ => hn
  cases i with
  | nop | reset | clrerr => exact endsBy_done _
  | pushs x => exact never (pushsBody_endsBy cfg e x)
  | pushb b => exact never (pushbBody_endsBy cfg e b)
  | popb => exact never (popbBody_endsBy e)
  | pops => exact never (popsBody_endsBy e)
  | hcount => exact never (hcountBody_endsBy e)
  | tbuild => exact tbuildBody_endsBy.imp tableSound
  | cwalk => exact cwalkBody_endsBy.imp And.left
  | encode => exact never (encodeBody_endsBy cfg e)
  | pack => exact never (packBody_endsBy cfg e)
  | unpack => exact never (unpackBody_endsBy cfg e)
  | decode => exact decodeBody_endsBy.imp tableSound
  | hwrite => exact hwriteBody_endsBy.imp And.left
  | hread => exact never (hreadBody_endsBy e)
  | compress => exact compressBody_endsBy
  | decompress => exact never decompressBody_endsBy

end Invariants

/-! The step is total on sound states (R210). -/

section Exec
variable {i : Instr} {s : State} (hi : runsHeld i = false)
include hi

theorem exec_held (he : s.eng.err = true) : exec i s = .next s := by
  rw [exec_eq_runCommand hi, runCommand_held he]

theorem exec_done {e : Engine} (he : s.eng.err = false) (hb : bodyOf s.cfg i s.eng = .done e) :
    exec i s = .next { s with eng := e } := by
  rw [exec_eq_runCommand hi, runCommand_done he hb]

theorem exec_raise {c : Cause} {info : BitVec 8} (he : s.eng.err = false)
    (hb : bodyOf s.cfg i s.eng = .raise c info) :
    exec i s = .next { s with eng := faulted s.eng c.code info (encode i) } := by
  rw [exec_eq_runCommand hi, runCommand_raise he hb, faulted_eq_takeFault]

end Exec

theorem exec_total {s : State} (h : Sound s) (i : Instr) : ∃ t, exec i s = .next t := by
  cases hi : runsHeld i with
  | true =>
    obtain ⟨e, -, hx⟩ := exec_eq_done hi s
    exact ⟨_, hx⟩
  | false =>
    cases he : s.eng.err with
    | true => exact ⟨s, exec_held hi he⟩
    | false =>
      cases hb : bodyOf s.cfg i s.eng with
      | done e => exact ⟨_, exec_done hi he hb⟩
      | raise c info => exact ⟨_, exec_raise hi he hb⟩
      | stuck f => exact absurd hb ((bodyOf_endsBy i).not_stuck h f)

theorem runIllegal_held {s : State} (he : s.eng.err = true) (w : Word) : runIllegal w s = .next s := if_pos he

theorem runIllegal_faults {s : State} (he : s.eng.err = false) (w : Word) :
    runIllegal w s = .next { s with eng := faulted s.eng 3 0 w } := by
  rw [runIllegal, if_neg (by simp [he])]
  rfl

theorem runWord_illegal {w : Word} {why : Illegal} (hd : decode w = .illegal why) (s : State) :
    runWord w s = runIllegal w s := by
  rw [runWord, hd]

theorem runWord_command {w : Word} {i : Instr} (hd : decode w = .command i) (s : State) : runWord w s = exec i s := by
  rw [runWord, hd]

theorem runWord_total {s : State} (h : Sound s) (w : Word) : ∃ t, runWord w s = .next t := by
  cases hd : decode w with
  | command i =>
    rw [runWord_command hd]
    exact exec_total h i
  | illegal why =>
    rw [runWord_illegal hd]
    cases he : s.eng.err with
    | true => exact ⟨s, runIllegal_held he w⟩
    | false => exact ⟨_, runIllegal_faults he w⟩

/-- Settles O9: with an empty list no access is served. -/
theorem idleStepChangesNothing : Obligations.IdleStepChangesNothing := by
  intro s hp
  rw [step, stepHost, hp]

/-- Settles O56: only a write to CMD runs a body, and no body stops the machine in a sound engine. -/
theorem soundStatesAlwaysStep : Obligations.SoundStatesAlwaysStep := by
  intro s h
  match hp : s.pending with
  | [] => exact ⟨s, idleStepChangesNothing s hp⟩
  | .regRead idx :: rest => exact ⟨_, step_regRead hp⟩
  | .hardReset :: rest => exact ⟨_, step_hardReset hp⟩
  | .regWrite idx w :: rest =>
    by_cases hi : idx = 0
    · subst hi
      rw [step_regWrite_cmd hp]
      exact runWord_total (s := { s with pending := rest }) h w
    · exact ⟨_, step_regWrite_other hp hi⟩

/-! The fault record (R211, R212). -/

/-- Settles O52: what a command raises is recorded over the engine of before. -/
theorem faultsAreAllOrNothing : Obligations.FaultsAreAllOrNothing := by
  intro i s t hs hx ht
  obtain ⟨c, info, heng⟩ := exec_faulted hx hs ht
  rw [exec_only_engine hx, heng]
  rfl

/-! The rows of R212, read from `causesOf`. -/

theorem format_mem_causesOf {i : Instr} : .format ∈ causesOf i ↔ i ∈ [.hread, .unpack, .decompress] := by
  cases i <;> simp

theorem capacity_mem_causesOf {i : Instr} : .capacity ∈ causesOf i ↔
    i ∈ [.hcount, .hwrite, .pack, .unpack, .encode, .decode, .compress, .decompress] ∨
      (∃ sym, i = .pushs sym) ∨ ∃ byte, i = .pushb byte := by
  cases i <;> simp

theorem illegal_not_mem_causesOf {i : Instr} : .illegal ∉ causesOf i := by
  cases i <;> simp

theorem seq_mem_causesOf {i : Instr} :
    .seq ∈ causesOf i ↔ i ∈ [.tbuild, .cwalk, .encode, .pack, .decode, .hwrite] := by
  cases i <;> simp

theorem symbol_mem_causesOf {i : Instr} : .symbol ∈ causesOf i ↔ ∃ sym, i = .pushs sym := by
  cases i <;> simp

theorem nocode_mem_causesOf {i : Instr} : .nocode ∈ causesOf i ↔ i = .encode := by
  cases i <;> simp

theorem empty_mem_causesOf {i : Instr} : .empty ∈ causesOf i ↔ i ∈ [.popb, .pops] := by
  cases i <;> simp

theorem exec_cause {i : Instr} {s t : State} (h : exec i s = .next t) (hs : s.eng.err = false)
    (ht : t.eng.err = true) : ∃ c ∈ causesOf i, t.eng.errcode = c.code := by
  obtain ⟨c, info, hb, heng⟩ := exec_raised h hs ht
  exact ⟨c, (bodyOf_endsBy i).mem_of_raise hb, heng ▸ rfl⟩

/-- Settles O53: the commands that can raise a cause are those of its row. -/
theorem faultCodesByCommand : Obligations.FaultCodesByCommand := by
  intro i s t hs hx ht
  obtain ⟨c, hc, hcode⟩ := exec_cause hx hs ht
  cases c with
  | format => exact .inl ⟨hcode, format_mem_causesOf.1 hc⟩
  | capacity => exact .inr (.inl ⟨hcode, capacity_mem_causesOf.1 hc⟩)
  | illegal => exact absurd hc illegal_not_mem_causesOf
  | seq => exact .inr (.inr (.inl ⟨hcode, seq_mem_causesOf.1 hc⟩))
  | symbol => exact .inr (.inr (.inr (.inl ⟨hcode, symbol_mem_causesOf.1 hc⟩)))
  | nocode => exact .inr (.inr (.inr (.inr (.inl ⟨hcode, nocode_mem_causesOf.1 hc⟩))))
  | empty => exact .inr (.inr (.inr (.inr (.inr ⟨hcode, empty_mem_causesOf.1 hc⟩))))

end Sys2Proof.Machine

/-! PROOFS. Illegal words, commands while a fault is held, missing flags, and the commands right after reset
(60_exceptions.md R215, R216, R223, 70_reset_and_hazards.md R241). -/

namespace Sys2Proof.Machine

theorem decode_illegal_of_no_row {w : Word} (h : ∀ r ∈ opcodeRows, w &&& r.2 ≠ r.1) :
    ∃ why, decode w = .illegal why := by
  refine (decode_illegal_iff w).2 fun i hi => ?_
  obtain ⟨hmeets, -⟩ := (decode_eq_command_iff w i).1 hi
  exact h _ (mem_opcodeRows_iff.2 ⟨i, rfl⟩) hmeets

/-- Settles O5: a word that meets no row decodes to no command. -/
theorem illegalWordFaults : Obligations.IllegalWordFaults := by
  intro s w rest hp he hrows
  obtain ⟨why, hd⟩ := decode_illegal_of_no_row hrows
  rw [step_regWrite_cmd hp, runWord_illegal hd]
  exact runIllegal_faults (s := { s with pending := rest }) he w

/-- The words of the commands that are executed while a fault is held (R223). -/
theorem encode_of_runsHeld {i : Instr} (hi : runsHeld i = true) :
    encode i = 0x00000000 ∨ encode i = 0x01000000 ∨ encode i = 0x02000000 := by
  cases i
  case nop => exact .inl rfl
  case reset => exact .inr (.inl rfl)
  case clrerr => exact .inr (.inr rfl)
  all_goals cases hi

theorem runWord_held {s : State} {w : Word} (he : s.eng.err = true) (hnop : w ≠ 0x00000000) (hreset : w ≠ 0x01000000)
    (hclrerr : w ≠ 0x02000000) : runWord w s = .next s := by
  cases hd : decode w with
  | illegal why => rw [runWord_illegal hd, runIllegal_held he]
  | command i =>
    obtain rfl := (decodeInvertsEncode i w).1 hd
    have hi : runsHeld i = false := by
      by_contra hne
      rcases encode_of_runsHeld (by simpa using hne) with h | h | h <;> contradiction
    rw [runWord_command hd, exec_held hi he]

theorem step_encode {s : State} {i : Instr} {rest : List HostAccess} (hp : s.pending = .regWrite 0 (encode i) :: rest) :
    step s = exec i { s with pending := rest } :=
  stepRunsTheDecodedCommand.1 s (encode i) rest i hp (decode_encode i)

/-- Settles O6: every word but the three is ignored by the envelope of its command or of an illegal word. -/
theorem heldFaultIgnoresCommands : Obligations.HeldFaultIgnoresCommands := by
  intro s rest he
  refine ⟨fun w hp hnop hreset hclrerr => ?ignored, fun hp => step_encode (i := .nop) hp,
    fun hp => ⟨_, atReset_iff.2 rfl, step_encode (i := .reset) hp⟩, fun hp => step_encode (i := .clrerr) hp,
    fun idx hp => step_regRead hp⟩
  case ignored =>
    rw [step_regWrite_cmd hp]
    exact runWord_held he hnop hreset hclrerr

/-- Settles O51: the body of each command tests its flags first. -/
theorem missingFlagsRaiseErrSeq : Obligations.MissingFlagsRaiseErrSeq := fun _ he =>
  ⟨fun hftv => ⟨runCommand_raise he (tbuildBody_no_table hftv), runCommand_raise he (hwriteBody_no_table hftv)⟩,
    fun htreev => runCommand_raise he (cwalkBody_no_tree htreev),
    fun hctv => runCommand_raise he (encodeBody_no_codes hctv),
    fun hbitsv => runCommand_raise he (packBody_no_bits hbitsv),
    fun hflags => runCommand_raise he (decodeBody_no_input hflags)⟩

theorem hcountBody_reset : hcountBody Engine.reset = .done { Engine.reset with ftv := true } :=
  hcountBody_done.2 ⟨[], rfl, rfl⟩

theorem compressible_nil : Compressible [] [] [0x00, 0x00] [] where
  counted := rfl
  valid := ⟨nofun, .nil, by simp⟩
  header := isHeader_iff.2 rfl
  codes := rfl

/-- COMPRESS of the empty text appends the header of the empty table and the payload section of no bits. -/
theorem compressBody_reset {cfg : Capacities} (hroom : roomFor cfg.byteOut 4) :
    compressBody cfg Engine.reset = .done (compressedWith [] [0x00, 0x00] [] Engine.reset) := by
  refine (compressBody_eq compressible_nil).trans (if_pos (Bool.and_eq_true_iff.2 ⟨?_, roomFor_iff.1 hroom⟩))
  exact roomFor_iff.1 fun _ _ => Nat.zero_le _

/-- Settles O13: no flag is set and every queue is empty. -/
theorem afterResetCommandsRun : Obligations.AfterResetCommandsRun := by
  rintro ⟨cfg, e, pending, answers⟩ hreset
  obtain rfl : e = Engine.reset := atReset_iff.1 hreset
  have hpopb : popbBody Engine.reset = .raise .empty 0 := popbBody_empty rfl
  have hpops : popsBody Engine.reset = .raise .empty 0 := popsBody_empty rfl
  have hunpack : unpackBody cfg Engine.reset = .raise .format 6 := unpackBody_empty rfl
  have hhread : hreadBody Engine.reset = .raise .format 1 := hreadBody_short (by decide)
  refine ⟨fun p hp => ?flags, exec_done (i := .hcount) rfl rfl hcountBody_reset, fun hroom => ?compress,
    exec_raise (i := .popb) (c := .empty) rfl rfl hpopb,
    exec_raise (i := .pops) (c := .empty) rfl rfl hpops,
    exec_raise (i := .hread) (c := .format) rfl rfl hhread,
    exec_raise (i := .unpack) (c := .format) rfl rfl hunpack,
    exec_raise (i := .decompress) (c := .format) rfl rfl (decompressBody_raises hhread)⟩
  case flags =>
    obtain ⟨htable, hcwalk, hencode, hpack, hdecode⟩ :=
      missingFlagsRaiseErrSeq ⟨cfg, Engine.reset, pending, answers⟩ rfl
    obtain ⟨htbuild, hhwrite⟩ := htable rfl
    simp only [List.mem_cons, List.not_mem_nil, or_false] at hp
    rcases hp with rfl | rfl | rfl | rfl | rfl | rfl
    · exact htbuild
    · exact hcwalk rfl
    · exact hencode rfl
    · exact hpack rfl
    · exact hdecode (.inl rfl)
    · exact hhwrite
  case compress =>
    have hout : (compressedWith [] [0x00, 0x00] [] Engine.reset).byteOut = [0x00, 0x00, 0x08, 0x00] := by decide
    exact ⟨_, exec_done (i := .compress) rfl rfl (compressBody_reset hroom), hout, rfl⟩

end Sys2Proof.Machine
